-- ==== Sys2Proof/Word.lean ====
section
/-! DEFINITION. The byte, the one unit the hardware moves (20_memory R47), and the lane register as a byte string. -/

namespace Sys2Proof

/-- A byte is 8 bits (00_scope section 5). -/
abbrev Byte := BitVec 8

/-- A byte string, indexed from 0 (00_scope section 5). A lane register is one of length `L`
(10_state R10, R11): byte `j` of it is entry `j`. -/
abbrev Lane := List Byte

end Sys2Proof
end

