-- ==== Sys2Proof/Config.lean ====
section
/-! DEFINITION. What an implementation or its platform fixes (00_scope R5; 20_memory R42), and the free values. -/

namespace Sys2Proof

/-- The one option of the unit: the lane register length `L` (00_scope R2, R5). -/
inductive LaneLen where
  | l16
  | l32
  deriving DecidableEq, Repr

/-- `L` in bytes. -/
def LaneLen.bytes : LaneLen → Nat
  | .l16 => 16
  | .l32 => 32

/-- `log2 L`, the field `ID.LLOG` (10_state R17). -/
def LaneLen.log2 : LaneLen → BitVec 4
  | .l16 => 4
  | .l32 => 5

/-- A run of addresses `first .. first + count - 1`. -/
structure AddrRange where
  first : Nat
  count : Nat
  deriving DecidableEq, Repr

def AddrRange.holds (r : AddrRange) (a : Nat) : Bool :=
  decide (r.first ≤ a) && decide (a < r.first + r.count)

/-- The launch parameters: `L`, `ALEN`, and the addresses the platform refuses to read or to write. No step
changes them. Any predicate on the finite address space is such a list of ranges (log 1, log 18; DEDUCED, safe). -/
structure Hardware where
  lane    : LaneLen
  alen    : Nat
  noRead  : List AddrRange
  noWrite : List AddrRange
  deriving DecidableEq, Repr

/-- `Readable(a)` (20_memory R42). -/
def Hardware.readable (hw : Hardware) (a : Nat) : Bool := !(hw.noRead.any (·.holds a))

/-- `Writable(a)` (20_memory R42). -/
def Hardware.writable (hw : Hardware) (a : Nat) : Bool := !(hw.noWrite.any (·.holds a))

/-- `2^ALEN`: addresses run from 0 to one below it (20_memory R40). -/
def Hardware.top (hw : Hardware) : Nat := 2 ^ hw.alen

/-- The baseline unit: `L = 16`, `ALEN = 64`, every address readable and writable (00_scope R5; D2, D3, D19; log 1). -/
def Hardware.baseline : Hardware := { lane := .l16, alen := 64, noRead := [], noWrite := [] }

/-- Number of lane registers (10_state R10). -/
def numLanes : Nat := 8

/-- FREE VALUE (log 5): byte `j` of lane register `r` at draw `c`, where the spec leaves a lane register unspecified. -/
opaque Config.freeByte : (c r j : Nat) → Byte

/-- FREE VALUE (log 5): at draw `c`, whether the byte at address `a` that an abandoned or refused command would
have written holds its new value (60_exceptions R146; 70_reset R173). -/
opaque Config.freeLanded : (c a : Nat) → Bool

/-- FREE VALUE (log 5): at draw `c`, which of the refused addresses `FADDR` receives (60_exceptions R146). -/
opaque Config.freeIndex : (c : Nat) → Nat

/-- FREE VALUE (log 5): at draw `c`, which of the bytes a racing read of address `a` may return it returns (20_memory R53;
log 14). -/
opaque Config.freePick : (c a : Nat) → Nat

end Sys2Proof
end

