-- ==== Sys2Proof/Syntax.lean ====
section
/-! DEFINITION. The nineteen commands (30_encoding R67; opcode_table.json). A command word has no operand field (R66). -/

namespace Sys2Proof

/-- One constructor per row of spec/opcode_table.json, in opcode order. -/
inductive Instr where
  /-- `UNPK8.NEXT`, word 0x00 (40_primitives R82). -/
  | unpk8Next
  /-- `UNPK16.NEXT`, word 0x01 (R83). -/
  | unpk16Next
  /-- `UNPK32.NEXT`, word 0x02 (R84). -/
  | unpk32Next
  /-- `UNPK64.NEXT`, word 0x03 (R85). -/
  | unpk64Next
  /-- `UNPK8.SKIP`, word 0x04 (R86). -/
  | unpk8Skip
  /-- `UNPK16.SKIP`, word 0x05 (R87). -/
  | unpk16Skip
  /-- `UNPK32.SKIP`, word 0x06 (R88). -/
  | unpk32Skip
  /-- `UNPK64.SKIP`, word 0x07 (R89). -/
  | unpk64Skip
  /-- `PERM128.NEXT`, word 0x08, `L = 32` only (R90). -/
  | perm128Next
  /-- `PERM128.SKIP`, word 0x09, `L = 32` only (R91). -/
  | perm128Skip
  /-- `SHUFQ.SELF`, word 0x0A, `L = 32` only (R92). -/
  | shufqSelf
  /-- `LDE`, word 0x10 (41_block_moves R101). -/
  | lde
  /-- `STP`, word 0x11 (R102). -/
  | stp
  /-- `LDP`, word 0x12 (R103). -/
  | ldp
  /-- `STE`, word 0x13 (R104). -/
  | ste
  /-- `SCE`, word 0x14 (R105). -/
  | sce
  /-- `SCD`, word 0x15 (R106). -/
  | scd
  /-- `ENC`, word 0x18 (42_codec R120). -/
  | enc
  /-- `DEC`, word 0x19 (R121). -/
  | dec
  deriving DecidableEq, Repr

end Sys2Proof
end

