-- ==== Sys2Proof/WellFormed.lean ====
section
/-! DEFINITION. Which commands a unit has, and which parameters a unit may have. -/

namespace Sys2Proof

/-- The class of a command (30_encoding R61). -/
inductive CmdClass where
  | unpk
  | wide
  | move
  | codec
  deriving DecidableEq, Repr

/-- The class each command belongs to (30_encoding R61, R67). -/
def Instr.cls : Instr → CmdClass
  | .unpk8Next | .unpk16Next | .unpk32Next | .unpk64Next => .unpk
  | .unpk8Skip | .unpk16Skip | .unpk32Skip | .unpk64Skip => .unpk
  | .perm128Next | .perm128Skip | .shufqSelf => .wide
  | .lde | .stp | .ldp | .ste | .sce | .scd => .move
  | .enc | .dec => .codec

/-- A memory command: one that touches memory (10_state R31). -/
def Instr.isMemory (i : Instr) : Bool := i.cls == .move || i.cls == .codec

/-- Well-formed on a unit of lane length `l`: the words of class `WIDE` are legal only when `L = 32`
(30_encoding R61, R67, R68). -/
def Instr.legalFor (l : LaneLen) (i : Instr) : Bool := i.cls != .wide || l == .l32

/-- Well-formed parameters: `ALEN` is a positive integer (00_scope R5). -/
def Hardware.wf (hw : Hardware) : Bool := decide (0 < hw.alen)

end Sys2Proof
end

