-- ==== Sys2Proof/Decode.lean ====
section
/-! DEFINITION. The command word (30_encoding R60 to R69): a decoder total on all 256 words, and the encoder. -/

namespace Sys2Proof

/-- `ZERO`, bits 7:5 (30_encoding R60). -/
def zeroField (w : Byte) : BitVec 3 := w.extractLsb' 5 3

/-- `CLS`, bits 4:3 (R60). -/
def clsField (w : Byte) : BitVec 2 := w.extractLsb' 3 2

/-- `FN`, bits 2:0 (R60). -/
def fnField (w : Byte) : BitVec 3 := w.extractLsb' 0 3

/-- `P`, bit 2 in class `UNPK`: 0 is `next`, 1 is `skip` (R62). -/
def pField (w : Byte) : BitVec 1 := w.extractLsb' 2 1

/-- `G`, bits 1:0 in class `UNPK`: the granularity is `2^G` bytes (R62). -/
def gField (w : Byte) : BitVec 2 := w.extractLsb' 0 2

/-- Class `UNPK` (R62): all eight values are legal. -/
def decodeUnpk (p : BitVec 1) (g : BitVec 2) : Instr :=
  match p.toNat, g.toNat with
  | 0, 0 => .unpk8Next
  | 0, 1 => .unpk16Next
  | 0, 2 => .unpk32Next
  | 0, _ => .unpk64Next
  | _, 0 => .unpk8Skip
  | _, 1 => .unpk16Skip
  | _, 2 => .unpk32Skip
  | _, _ => .unpk64Skip

/-- Class `WIDE` (R63): 3 to 7 are reserved. -/
def decodeWide (fn : BitVec 3) : Option Instr :=
  match fn.toNat with
  | 0 => some .perm128Next
  | 1 => some .perm128Skip
  | 2 => some .shufqSelf
  | _ => none

/-- Class `MOVE` (R64): 6 and 7 are reserved. -/
def decodeMove (fn : BitVec 3) : Option Instr :=
  match fn.toNat with
  | 0 => some .lde
  | 1 => some .stp
  | 2 => some .ldp
  | 3 => some .ste
  | 4 => some .sce
  | 5 => some .scd
  | _ => none

/-- Class `CODEC` (R65): 2 to 7 are reserved. -/
def decodeCodec (fn : BitVec 3) : Option Instr :=
  match fn.toNat with
  | 0 => some .enc
  | 1 => some .dec
  | _ => none

/-- The opcode map of R67 for the full command set: the command a word selects, none for a reserved word (R68). -/
def decode (w : Byte) : Option Instr :=
  if zeroField w ≠ 0 then none
  else match (clsField w).toNat with
    | 0 => some (decodeUnpk (pField w) (gField w))
    | 1 => decodeWide (fnField w)
    | 2 => decodeMove (fnField w)
    | _ => decodeCodec (fnField w)

/-- The decoder of a unit of lane length `l` (R67, last paragraph; R69): `WIDE` words are illegal at `L = 16`. -/
def decodeFor (l : LaneLen) (w : Byte) : Option Instr := (decode w).filter (·.legalFor l)

/-- `CLS` of a class (R61). -/
def CmdClass.bits : CmdClass → BitVec 2
  | .unpk => 0b00
  | .wide => 0b01
  | .move => 0b10
  | .codec => 0b11

/-- `FN` of a command (R62 to R65); in class `UNPK` it is `P` then `G`. -/
def Instr.fnBits : Instr → BitVec 3
  | .unpk8Next => 0b000
  | .unpk16Next => 0b001
  | .unpk32Next => 0b010
  | .unpk64Next => 0b011
  | .unpk8Skip => 0b100
  | .unpk16Skip => 0b101
  | .unpk32Skip => 0b110
  | .unpk64Skip => 0b111
  | .perm128Next => 0
  | .perm128Skip => 1
  | .shufqSelf => 2
  | .lde => 0
  | .stp => 1
  | .ldp => 2
  | .ste => 3
  | .sce => 4
  | .scd => 5
  | .enc => 0
  | .dec => 1

/-- The word of a command: `ZERO`, `CLS`, `FN`, most significant first (R60). -/
def encode (i : Instr) : Byte := (0 : BitVec 3) ++ i.cls.bits ++ i.fnBits

/-- The command word a value written to `CMD` carries: its bits 7:0 (10_state R27; 30_encoding R60). -/
def commandWord (v : Nat) : Byte := BitVec.ofNat 8 v

/-- The table's numbering: the one word of a command is bits 7:0 of `w`. Every row has one byte (R60), so `nbits`
selects nothing. The table's decoder is the full command set; a unit of `L = 16` refuses the `WIDE` words when
it runs them (log 17). -/
def decodeTableWord (_nbits w : Nat) : Option Instr := decode (commandWord w)

end Sys2Proof
end

