-- ==== Sys2Proof/Machine/State.lean ====
section
/-! DEFINITION. The state of the unit, of memory, and of what the host does next; the ways a step can stop; reset. -/

namespace Sys2Proof.Machine

/-- Memory as (address, byte) cells; Machine/Memory.lean says which lists are in canonical form. -/
abbrev Memory := List Host.Cell

/-- `STATUS.STATE` (10_state R22), with the command word the unit holds while `BUSY` (R27, R32; log 8). -/
inductive Sequencer where
  | idle
  | busy (word : Byte)
  | fault
  deriving DecidableEq, Repr

/-- The five faults of the UNIT (60_exceptions R140). Taking one is a next state (R143). -/
inductive UnitFault where
  | illegalCmd
  | badConfig
  | aliasFault
  | rangeFault
  | accessFault
  deriving DecidableEq, Repr

/-- What happens next outside the unit's own decision (log 6). -/
inductive HostEvent where
  /-- The unit has its turn: a running command runs to its end. -/
  | unit
  /-- The host writes `value` to port `number` (10_state R16). -/
  | write (number value : Nat)
  /-- The host reads port `number` (10_state R16). -/
  | read (number : Nat)
  /-- The platform drives the hardware reset (70_reset R170, R171). -/
  | hardReset
  /-- The host writes a byte of memory (10_state R31; 20_memory R50). -/
  | poke (addr : Nat) (byte : Byte)
  /-- The host reads a byte of memory. -/
  | peek (addr : Nat)
  deriving DecidableEq, Repr

/-- The machine stops with a fault. No command ends so: the unit's own faults are next states (60_exceptions R143). -/
inductive Fault where
  /-- Raised by `hostPoke` and `hostPeek`: the HOST touches an address of `2^ALEN` or above, which does not exist
  (20_memory R40). Safe: the machine stops where the spec has no behaviour (log 14). -/
  | hostAddressOutside (addr : Nat)
  deriving DecidableEq, Repr

/-- The step has no meaning. No step is refused: the constructor is for a command still without one. -/
inductive Refusal where
  /-- Raised by `exec` for a command with no meaning yet: none is left. Safe. -/
  | notModelled (mnemonic : String)
  deriving DecidableEq, Repr

/-- Everything the spec gives the machine, with the fixed parameters of the launch and four fields of the model's own. -/
structure State where
  /-- `L`, `ALEN`, `Readable`, `Writable` (00_scope R5; 20_memory R42). No step changes it. -/
  hw        : Hardware
  /-- `V[0]` to `V[7]` (10_state R10). -/
  lanes     : List Lane
  /-- `CFG.W` (10_state R18). -/
  cfgW      : BitVec 4
  /-- `NELEM` (10_state R19), an `ALEN`-bit register held as a number below `2^ALEN` (log 2), as the next four are. -/
  nelem     : Nat
  /-- `SRC` (10_state R20). -/
  src       : Nat
  /-- `DST` (10_state R20). -/
  dst       : Nat
  /-- `IDX` (10_state R21). -/
  idx       : Nat
  /-- `STATUS.STATE` and the command word held while busy (10_state R22, R27, R32). -/
  seq       : Sequencer
  /-- `STATUS.OVR` (10_state R22, R34). -/
  ovr       : Bool
  /-- `CAUSE.CODE` (10_state R25). -/
  causeCode : BitVec 4
  /-- `CAUSE.FCMD` (10_state R25). -/
  causeFcmd : BitVec 8
  /-- `FADDR` (10_state R26). -/
  faddr     : Nat
  /-- `CMDCNT` (10_state R24). -/
  cmdcnt    : BitVec 32
  /-- Memory (10_state R31; 20_memory R40). -/
  mem       : Memory
  /-- The model's own (log 6): what the host, the platform and the unit's turn do next, oldest first. -/
  host      : List HostEvent
  /-- The model's own (log 6): what the host's reads returned, oldest first (30_encoding R70, "the script's result"). -/
  seen      : List Nat
  /-- The model's own (log 5): which draw of free values comes next. -/
  freeCtr   : Nat
  /-- The model's own (log 14): the host's writes that race the running command (20_memory R53), newest first, each as
  the address and the byte it held before. -/
  raced     : List (Nat × Byte)
  deriving DecidableEq, Repr

/-- The state right after reset of a unit with parameters `hw` (10_state R33; 70_reset R171). DESIGN CHOICE, unsafe:
the lane registers, unspecified in the spec, are named 0 here (log 3), and memory lists nothing (log 4). -/
def State.resetOf (hw : Hardware) : State where
  hw        := hw
  lanes     := List.replicate numLanes (List.replicate hw.lane.bytes 0)
  cfgW      := 4
  nelem     := 0
  src       := 0
  dst       := 0
  idx       := 0
  seq       := .idle
  ovr       := false
  causeCode := 0
  causeFcmd := 0
  faddr     := 0
  cmdcnt    := 0
  mem       := []
  host      := []
  seen      := []
  freeCtr   := 0
  raced     := []

/-- The state right after reset of the baseline unit (00_scope R5; log 1). -/
def State.reset : State := State.resetOf Hardware.baseline

end Sys2Proof.Machine
end

