-- ==== Sys2Proof/Machine/Flags.lean ====
section
/-! DEFINITION. The unit has no condition codes; its only flag-like state is `STATUS.OVR` (10_state R30). This file
sets it, and assembles the status words the port reads. -/

namespace Sys2Proof.Machine

/-- A dropped write sets the sticky bit `OVR` and changes nothing else (10_state R34). -/
def setOvr (s : State) : State := { s with ovr := true }

/-- The code of `STATUS.STATE` (10_state R22). -/
def Sequencer.code : Sequencer → BitVec 2
  | .idle => 0
  | .busy _ => 1
  | .fault => 2

/-- `STATUS` (10_state R22): `STATE` in bits 1:0, `OVR` in bit 2, the rest 0. -/
def statusWord (s : State) : BitVec 32 := (0 : BitVec 29) ++ BitVec.ofBool s.ovr ++ s.seq.code

/-- `CAUSE` (10_state R25): `CODE` in bits 3:0, `FCMD` in bits 15:8, the rest 0. -/
def causeWord (s : State) : BitVec 32 := (0 : BitVec 16) ++ s.causeFcmd ++ (0 : BitVec 4) ++ s.causeCode

/-- `ID` (10_state R17): `LLOG` in bits 3:0, `NREG` = 8 in bits 7:4, `VER` = 1 in bits 15:8, the rest 0. -/
def idWord (hw : Hardware) : BitVec 32 := (0 : BitVec 16) ++ (1 : BitVec 8) ++ (8 : BitVec 4) ++ hw.lane.log2

/-- `CFG` (10_state R18): `W` in bits 3:0, the rest 0. -/
def cfgWord (s : State) : BitVec 32 := (0 : BitVec 28) ++ s.cfgW

/-- The code of a unit fault (60_exceptions R140). -/
def UnitFault.code : UnitFault → BitVec 4
  | .illegalCmd => 1
  | .badConfig => 2
  | .aliasFault => 3
  | .rangeFault => 4
  | .accessFault => 5

end Sys2Proof.Machine
end

