-- ==== Sys2Proof/Machine/Memory.lean ====
section
/-! DEFINITION. Memory as a canonical list of cells: reading and writing one byte, and the byte strings built on them. -/

namespace Sys2Proof.Machine

/-- What an address that no cell lists reads as. The spec gives memory no contents of its own (10_state R31, R33):
DESIGN CHOICE, unsafe (log 4). -/
def unlistedByte : Byte := 0

/-- The canonical form: addresses strictly rising, no cell equal to what an unlisted address reads as. -/
abbrev Memory.wf (m : Memory) : Prop :=
  m.Pairwise (fun x y => x.1 < y.1) ∧ ∀ c ∈ m, c.2 ≠ unlistedByte

/-- The byte at address `a` (20_memory R43 for one byte). -/
def Memory.read : Memory → Nat → Byte
  | [], _ => unlistedByte
  | (k, b) :: m, a => if k = a then b else Memory.read m a

/-- Memory with no cell for `a`. -/
def Memory.erase : Memory → Nat → Memory
  | [], _ => []
  | (k, b) :: m, a => if k = a then Memory.erase m a else (k, b) :: Memory.erase m a

/-- A cell put before the first cell of a higher address. -/
def Memory.insert : Memory → Nat → Byte → Memory
  | [], a, b => [(a, b)]
  | (k, c) :: m, a, b => if a < k then (a, b) :: (k, c) :: m else (k, c) :: Memory.insert m a b

/-- Memory after the byte at `a` becomes `b` (20_memory R44 for one byte). -/
def Memory.write (m : Memory) (a : Nat) (b : Byte) : Memory :=
  if b = unlistedByte then m.erase a else (m.erase a).insert a b

/-- Single-byte writes one after the other (20_memory R47). -/
def Memory.writeAll (m : Memory) (ws : List (Nat × Byte)) : Memory :=
  ws.foldl (fun m w => m.write w.1 w.2) m

/-- The addresses `a .. a+n-1`. -/
def addrsFrom (a n : Nat) : List Nat := (List.range n).map (a + ·)

/-- The byte string `MemRead(a, n)` returns: entry `j` is the byte at `a + j` (20_memory R43). -/
def Memory.readBytes (m : Memory) (a n : Nat) : List Byte := (addrsFrom a n).map m.read

/-- The single-byte writes of `MemWrite(a, n, v)`: the byte at `a + j` becomes `v[j]` (20_memory R44). -/
def bytesAt (a n : Nat) (v : List Byte) : List (Nat × Byte) :=
  (List.range n).map fun j => (a + j, v.getD j 0)

end Sys2Proof.Machine
end

