-- ==== Sys2Proof/Machine/Operands.lean ====
section
/-! DEFINITION. The operands of every command, from the control registers at issue (30_encoding R66; 41_block_moves R100),
and the address formulas (20_memory R41). Arithmetic is over the natural numbers, without wrap-around (42_codec R130). -/

namespace Sys2Proof.Machine

/-- `L`, the lane register length in bytes (00_scope R5). -/
def State.laneBytes (s : State) : Nat := s.hw.lane.bytes

/-- `W`, the element width: `CFG.W` as a number (10_state R18). -/
def State.width (s : State) : Nat := s.cfgW.toNat

/-- `SIZE`, the lane registers a command works on: equal to `W` (10_state R12). -/
def State.size (s : State) : Nat := s.width

/-- `BLK`, the elements in one block: equal to `L` (00_scope R5; 41_block_moves R100; 90_conflicts C1). -/
def State.block (s : State) : Nat := s.laneBytes

/-- `N·W`, the bytes of either region (20_memory R41). -/
def State.regionBytes (s : State) : Nat := s.nelem * s.width

/-- `a` is in `SrcRegion` (20_memory R41). -/
def State.inSrc (s : State) (a : Nat) : Bool := decide (s.src ≤ a) && decide (a < s.src + s.regionBytes)

/-- `a` is in `DstRegion` (20_memory R41). -/
def State.inDst (s : State) (a : Nat) : Bool := decide (s.dst ≤ a) && decide (a < s.dst + s.regionBytes)

/-- `ElemAddr(B, i, k) = B + i·W + k` (20_memory R41). -/
def elemAddr (base width i k : Nat) : Nat := base + i * width + k

/-- `PlaneAddr(B, i, k) = B + k·N + i` (20_memory R41). -/
def planeAddr (base n i k : Nat) : Nat := base + k * n + i

/-- `V[r]` (00_scope section 5). -/
def State.lane (s : State) (r : Nat) : Lane := s.lanes.getD r []

/-- `V[r][j]` (10_state R11). -/
def State.laneByte (s : State) (r j : Nat) : Byte := (s.lane r).getD j 0

end Sys2Proof.Machine
end

