-- ==== Sys2Proof/Machine/Ops.lean ====
section
/-! DEFINITION. What all commands share: ending without fault, taking a fault, the checks in their order, free lane
registers, and running a memory command from the list of its accesses. -/

namespace Sys2Proof.Machine

/-! ### How a command ends -/

/-- A command ends without fault: `STATE` returns to `IDLE`, `CMDCNT` goes up by one modulo `2^32`
(10_state R22, R24; 40_primitives R93; 41_block_moves R108). -/
def complete (s : State) : State := { s with seq := .idle, cmdcnt := s.cmdcnt + 1 }

/-- Fault entry (60_exceptions R143): the code, the command word and the refused address (0 but for `AccessFault`)
are recorded, and `STATE` becomes `FAULT`. Nothing else changes. -/
def takeFault (k : UnitFault) (word : Byte) (addr : Nat) (s : State) : State :=
  { s with causeCode := k.code, causeFcmd := word, faddr := addr, seq := .fault }

/-! ### Checks -/

/-- `CFG.W` is 4 or 8 (60_exceptions R142). -/
def widthLegal (s : State) : Bool := s.width == 4 || s.width == 8

/-- What a memory command asks of `IDX` (60_exceptions R144). -/
inductive IndexNeed where
  /-- `ENC` and `DEC` do not look at `IDX`. -/
  | nothing
  /-- Block moves need `IDX + L ≤ N`. -/
  | block
  /-- Scalar moves need `IDX < N`. -/
  | element
  deriving DecidableEq, Repr

/-- `IDX` is inside what the command needs (60_exceptions R144; 41_block_moves R107). -/
def indexLegal (need : IndexNeed) (s : State) : Bool :=
  match need with
  | .nothing => true
  | .block => decide (s.idx + s.block ≤ s.nelem)
  | .element => decide (s.idx < s.nelem)

/-- Both regions end at or below the top of the address space (60_exceptions R144). -/
def regionsFit (s : State) : Bool :=
  decide (s.src + s.regionBytes ≤ s.hw.top) && decide (s.dst + s.regionBytes ≤ s.hw.top)

/-- The regions share a byte (60_exceptions R145). -/
def regionsOverlap (s : State) : Bool :=
  decide (0 < s.nelem) && decide (s.src < s.dst + s.regionBytes) && decide (s.dst < s.src + s.regionBytes)

/-- The checks of a memory command before any access, in the order of 41_block_moves R107, 42_codec R120 and
60_exceptions R147: `BadConfig`, `RangeFault`, `AliasFault`. -/
def operandFault (need : IndexNeed) (s : State) : Option UnitFault :=
  if !widthLegal s then some .badConfig
  else if !(regionsFit s && indexLegal need s) then some .rangeFault
  else if regionsOverlap s then some .aliasFault
  else none

/-! ### Lane registers the spec leaves unspecified -/

/-- A lane register of free bytes: register `r` at draw `c` (log 5). -/
def freeLane (hw : Hardware) (c r : Nat) : Lane := (List.range hw.lane.bytes).map (Config.freeByte c r)

/-- The first `n` lane registers of free bytes, the others as they were. -/
def scrambleLanes (hw : Hardware) (c n : Nat) (v : List Lane) : List Lane :=
  (List.range n).map (freeLane hw c) ++ v.drop n

/-! ### Memory commands -/

/-- What a memory command does to the lane registers. -/
inductive LaneEffect where
  /-- It does not write them. -/
  | keep
  /-- It writes `V[0], V[1], ..` with these. -/
  | load (vs : List Lane)
  /-- It leaves all eight unspecified, with or without fault (42_codec R128). -/
  | free
  deriving DecidableEq, Repr

/-- The accesses of a memory command, from the state at issue: the bytes it reads, the bytes it writes with their
values, and what it does to the lane registers. The order inside the command is open (20_memory R51). -/
structure Plan where
  reads  : List Nat
  writes : List (Nat × Byte)
  lanes  : LaneEffect
  deriving DecidableEq, Repr

/-- The addresses of a plan the platform refuses: reads that are not `Readable`, writes that are not `Writable`
(20_memory R42 to R44). -/
def refusedAddrs (hw : Hardware) (p : Plan) : List Nat :=
  p.reads.filter (fun a => !hw.readable a) ++ (p.writes.map Prod.fst).filter (fun a => !hw.writable a)

/-- The lane registers after the command ends without fault. -/
def LaneEffect.done (e : LaneEffect) (hw : Hardware) (c : Nat) (v : List Lane) : List Lane :=
  match e with
  | .keep => v
  | .load vs => vs ++ v.drop vs.length
  | .free => scrambleLanes hw c numLanes v

/-- The lane registers after an `AccessFault` or a hardware reset cut the command short: those it would have written
are free (60_exceptions R146). -/
def LaneEffect.cut (e : LaneEffect) (hw : Hardware) (c : Nat) (v : List Lane) : List Lane :=
  match e with
  | .keep => v
  | .load vs => scrambleLanes hw c vs.length v
  | .free => scrambleLanes hw c numLanes v

/-- Memory after a command is cut short: each byte it would have written is old or new, freely; a byte the platform
refuses to write is old (60_exceptions R146; 70_reset R173; 20_memory R44; log 10). -/
def cutMemory (hw : Hardware) (c : Nat) (ws : List (Nat × Byte)) (m : Memory) : Memory :=
  m.writeAll (ws.filter fun w => hw.writable w.1 && Config.freeLanded c w.1)

/-- The refused address that `FADDR` receives: any one of them (60_exceptions R146; log 11). -/
def pickRefused (c : Nat) (bad : List Nat) : Nat := bad.getD (Config.freeIndex c % bad.length) 0

/-- All accesses of the plan are made and the command ends without fault. -/
def finishPlan (p : Plan) (s : State) : State :=
  complete { s with
    mem := s.mem.writeAll p.writes
    lanes := p.lanes.done s.hw s.freeCtr s.lanes
    freeCtr := s.freeCtr + 1 }

/-- `AccessFault` in mid-command (60_exceptions R146), then fault entry (R143). -/
def accessFault (word : Byte) (p : Plan) (s : State) : State :=
  takeFault .accessFault word (pickRefused s.freeCtr (refusedAddrs s.hw p)) { s with
    mem := cutMemory s.hw s.freeCtr p.writes s.mem
    lanes := p.lanes.cut s.hw s.freeCtr s.lanes
    freeCtr := s.freeCtr + 1 }

/-- The lane registers of a memory command that a check stops: as they were, but unspecified, with or without fault,
for a command that leaves them so (60_exceptions R143; 42_codec R128; log 9). -/
def stopLanes (e : LaneEffect) (s : State) : State :=
  match e with
  | .keep | .load _ => s
  | .free => { s with lanes := scrambleLanes s.hw s.freeCtr numLanes s.lanes, freeCtr := s.freeCtr + 1 }

/-- A check stops a memory command before any access: fault entry (60_exceptions R142, R144, R145). -/
def checkFault (k : UnitFault) (word : Byte) (p : Plan) (s : State) : State :=
  takeFault k word 0 (stopLanes p.lanes s)

/-- A memory command: the checks, then its accesses (41_block_moves R107; 42_codec R120). -/
def runMemory (i : Instr) (need : IndexNeed) (plan : State → Plan) (s : State) :
    Host.Outcome State Fault Refusal :=
  match operandFault need s with
  | some k => .next (checkFault k (encode i) (plan s) s)
  | none =>
    if refusedAddrs s.hw (plan s) = [] then .next (finishPlan (plan s) s)
    else .next (accessFault (encode i) (plan s) s)

/-! ### Primitives -/

/-- A primitive (40_primitives R93): `IllegalCmd` if the unit has no such word, `BadConfig` if `CFG.W` is not 4 or 8,
otherwise the lane registers become `f` of them and nothing can fault. -/
def runPrimitive (i : Instr) (f : LaneLen → Nat → List Lane → List Lane) (s : State) :
    Host.Outcome State Fault Refusal :=
  if !i.legalFor s.hw.lane then .next (takeFault .illegalCmd (encode i) 0 s)
  else if !widthLegal s then .next (takeFault .badConfig (encode i) 0 s)
  else .next (complete { s with lanes := f s.hw.lane s.size s.lanes })

/-- The pairing rule of a primitive (40_primitives R80). -/
inductive Pairing where
  | next
  | skip
  deriving DecidableEq, Repr

/-- The index of `A_i` (40_primitives R80). -/
def Pairing.first (p : Pairing) (i : Nat) : Nat :=
  match p with
  | .next => 2 * i
  | .skip => i

/-- The index of `B_i`, with `H = SIZE/2` (40_primitives R80). -/
def Pairing.second (p : Pairing) (half i : Nat) : Nat :=
  match p with
  | .next => 2 * i + 1
  | .skip => i + half

/-- A paired primitive: for each pair the first result goes to `V[2i]`, the second to `V[2i+1]`, all reads before all
writes; registers from `SIZE` on are untouched (40_primitives R80, R81, R93). -/
def pairwise (p : Pairing) (x y : Lane → Lane → Lane) (size : Nat) (v : List Lane) : List Lane :=
  ((List.range (size / 2)).flatMap fun i =>
    let a := v.getD (p.first i) []
    let b := v.getD (p.second (size / 2) i) []
    [x a b, y a b]) ++ v.drop size

/-- `s[a:b]`, the bytes `s[a] .. s[b-1]` (00_scope section 5). -/
def slice (s : Lane) (a b : Nat) : Lane := (s.drop a).take (b - a)

end Sys2Proof.Machine
end

