-- ==== Sys2Proof/Machine/Codec.lean ====
section
/-! DEFINITION. The whole-buffer codec, class `CODEC` (42_codec R120, R121, R128). -/

namespace Sys2Proof.Machine

/-- A whole-buffer copy: for every `k < W` and `i < N` the byte at `to_ i k` becomes the byte at `from_ i k` of memory
at issue; all eight lane registers become unspecified (42_codec R120, R128). -/
def codecPlan (from_ to_ : Nat → Nat → Nat) (s : State) : Plan where
  reads  := (List.range s.width).flatMap fun k => (List.range s.nelem).map fun i => from_ i k
  writes := (List.range s.width).flatMap fun k => (List.range s.nelem).map fun i => (to_ i k, s.mem.read (from_ i k))
  lanes  := .free

/-- The accesses of `ENC` (42_codec R120). -/
def encPlan (s : State) : Plan := codecPlan (elemAddr s.src s.width) (planeAddr s.dst s.nelem) s

/-- The accesses of `DEC` (42_codec R121). -/
def decPlan (s : State) : Plan := codecPlan (planeAddr s.src s.nelem) (elemAddr s.dst s.width) s

/-- `ENC`, encode an element buffer into a plane buffer (42_codec R120). -/
def execEnc (s : State) : Host.Outcome State Fault Refusal := runMemory .enc .nothing encPlan s

/-- `DEC`, decode a plane buffer into an element buffer (42_codec R121). -/
def execDec (s : State) : Host.Outcome State Fault Refusal := runMemory .dec .nothing decPlan s

end Sys2Proof.Machine
end

