-- ==== Sys2Proof/Machine/Move.lean ====
section
/-! DEFINITION. Block moves and scalar moves between memory and the lane registers, class `MOVE` (41_block_moves). -/

namespace Sys2Proof.Machine

/-- Where the piece of a block that belongs to `V[r]` starts in an element buffer at `base`: `base + i0·W + r·L`
(41_block_moves R101, R104). -/
def State.blockElemAddr (s : State) (base r : Nat) : Nat := elemAddr base s.width s.idx 0 + r * s.laneBytes

/-- Where the piece of a block that belongs to plane `k` starts in a plane buffer at `base`: `base + k·N + i0`
(41_block_moves R102, R103). -/
def State.blockPlaneAddr (s : State) (base k : Nat) : Nat := planeAddr base s.nelem s.idx k

/-- A block load: `V[r]` for each `r < SIZE` receives the `L` bytes from `at_ r` on. -/
def loadPlan (at_ : Nat → Nat) (s : State) : Plan where
  reads  := (List.range s.size).flatMap fun r => addrsFrom (at_ r) s.laneBytes
  writes := []
  lanes  := .load ((List.range s.size).map fun r => s.mem.readBytes (at_ r) s.laneBytes)

/-- A block store: the `L` bytes from `at_ r` on become `V[r]` for each `r < SIZE`. -/
def storePlan (at_ : Nat → Nat) (s : State) : Plan where
  reads  := []
  writes := (List.range s.size).flatMap fun r => bytesAt (at_ r) s.laneBytes (s.lane r)
  lanes  := .keep

/-- The `W` single-byte copies of a scalar move: byte `k` goes from `from_ k` to `to_ k`. -/
def copyPlan (from_ to_ : Nat → Nat) (s : State) : Plan where
  reads  := (List.range s.width).map from_
  writes := (List.range s.width).map fun k => (to_ k, s.mem.read (from_ k))
  lanes  := .keep

/-- The accesses of `LDE` (41_block_moves R101). -/
def ldePlan (s : State) : Plan := loadPlan (s.blockElemAddr s.src) s

/-- The accesses of `STP` (41_block_moves R102). -/
def stpPlan (s : State) : Plan := storePlan (s.blockPlaneAddr s.dst) s

/-- The accesses of `LDP` (41_block_moves R103). -/
def ldpPlan (s : State) : Plan := loadPlan (s.blockPlaneAddr s.src) s

/-- The accesses of `STE` (41_block_moves R104). -/
def stePlan (s : State) : Plan := storePlan (s.blockElemAddr s.dst) s

/-- The accesses of `SCE` (41_block_moves R105). -/
def scePlan (s : State) : Plan :=
  copyPlan (elemAddr s.src s.width s.idx) (planeAddr s.dst s.nelem s.idx) s

/-- The accesses of `SCD` (41_block_moves R106). -/
def scdPlan (s : State) : Plan :=
  copyPlan (planeAddr s.src s.nelem s.idx) (elemAddr s.dst s.width s.idx) s

/-- `LDE`, load a block of elements (41_block_moves R101). -/
def execLde (s : State) : Host.Outcome State Fault Refusal := runMemory .lde .block ldePlan s

/-- `STP`, store lane registers to the planes (41_block_moves R102). -/
def execStp (s : State) : Host.Outcome State Fault Refusal := runMemory .stp .block stpPlan s

/-- `LDP`, load lane registers from the planes (41_block_moves R103). -/
def execLdp (s : State) : Host.Outcome State Fault Refusal := runMemory .ldp .block ldpPlan s

/-- `STE`, store a block of elements (41_block_moves R104). -/
def execSte (s : State) : Host.Outcome State Fault Refusal := runMemory .ste .block stePlan s

/-- `SCE`, scalar encode of one element (41_block_moves R105). -/
def execSce (s : State) : Host.Outcome State Fault Refusal := runMemory .sce .element scePlan s

/-- `SCD`, scalar decode of one element (41_block_moves R106). -/
def execScd (s : State) : Host.Outcome State Fault Refusal := runMemory .scd .element scdPlan s

end Sys2Proof.Machine
end

