-- ==== Sys2Proof/Machine/Unpk.lean ====
section
/-! DEFINITION. The eight interleave primitives, class `UNPK` (40_primitives R82 to R89, R96). -/

namespace Sys2Proof.Machine

/-- The `G`-byte units of `a` and of `b` from byte `base` on, alternating, a unit of `a` first, eight bytes of each
(00_scope section 5). -/
def alternate (base : Nat) (a b : Lane) (g : Nat) : Lane :=
  (List.range (8 / g)).flatMap fun t =>
    slice a (base + t * g) (base + t * g + g) ++ slice b (base + t * g) (base + t * g + g)

/-- `lo128(a, b, G)` (00_scope section 5; D7). -/
def lo128 (a b : Lane) (g : Nat) : Lane := alternate 0 a b g

/-- `hi128(a, b, G)` (00_scope section 5; D7). -/
def hi128 (a b : Lane) (g : Nat) : Lane := alternate 8 a b g

/-- A 16-byte operation on each 128-bit lane of two registers (00_scope section 5; 40_primitives R96; D9). -/
def perLane (l : LaneLen) (f : Lane → Lane → Lane) (a b : Lane) : Lane :=
  match l with
  | .l16 => f a b
  | .l32 => f (slice a 0 16) (slice b 0 16) ++ f (slice a 16 32) (slice b 16 32)

/-- `lo(a, b, G)` (00_scope section 5). -/
def lo (l : LaneLen) (g : Nat) (a b : Lane) : Lane := perLane l (fun x y => lo128 x y g) a b

/-- `hi(a, b, G)` (00_scope section 5). -/
def hi (l : LaneLen) (g : Nat) (a b : Lane) : Lane := perLane l (fun x y => hi128 x y g) a b

/-- An interleave at granularity `g` under a pairing rule (40_primitives R82, R86). -/
def interleave (p : Pairing) (g : Nat) (l : LaneLen) (size : Nat) (v : List Lane) : List Lane :=
  pairwise p (lo l g) (hi l g) size v

/-- `UNPK8.NEXT` (40_primitives R82). -/
def execUnpk8Next (s : State) : Host.Outcome State Fault Refusal :=
  runPrimitive .unpk8Next (interleave .next 1) s

/-- `UNPK16.NEXT` (40_primitives R83). -/
def execUnpk16Next (s : State) : Host.Outcome State Fault Refusal :=
  runPrimitive .unpk16Next (interleave .next 2) s

/-- `UNPK32.NEXT` (40_primitives R84). -/
def execUnpk32Next (s : State) : Host.Outcome State Fault Refusal :=
  runPrimitive .unpk32Next (interleave .next 4) s

/-- `UNPK64.NEXT` (40_primitives R85). -/
def execUnpk64Next (s : State) : Host.Outcome State Fault Refusal :=
  runPrimitive .unpk64Next (interleave .next 8) s

/-- `UNPK8.SKIP` (40_primitives R86). -/
def execUnpk8Skip (s : State) : Host.Outcome State Fault Refusal :=
  runPrimitive .unpk8Skip (interleave .skip 1) s

/-- `UNPK16.SKIP` (40_primitives R87). -/
def execUnpk16Skip (s : State) : Host.Outcome State Fault Refusal :=
  runPrimitive .unpk16Skip (interleave .skip 2) s

/-- `UNPK32.SKIP` (40_primitives R88). -/
def execUnpk32Skip (s : State) : Host.Outcome State Fault Refusal :=
  runPrimitive .unpk32Skip (interleave .skip 4) s

/-- `UNPK64.SKIP` (40_primitives R89). -/
def execUnpk64Skip (s : State) : Host.Outcome State Fault Refusal :=
  runPrimitive .unpk64Skip (interleave .skip 8) s

end Sys2Proof.Machine
end

