-- ==== Sys2Proof/Machine/Wide.lean ====
section
/-! DEFINITION. The three wide-register primitives, class `WIDE`, legal only when `L = 32` (40_primitives R90 to R92; log 19). -/

namespace Sys2Proof.Machine

/-- The low 128-bit lanes of `A` and of `B` (40_primitives R90). -/
def gatherLow (a b : Lane) : Lane := slice a 0 16 ++ slice b 0 16

/-- The high 128-bit lanes of `A` and of `B` (40_primitives R90). -/
def gatherHigh (a b : Lane) : Lane := slice a 16 32 ++ slice b 16 32

/-- The cross-lane permute under a pairing rule (40_primitives R90, R91). -/
def perm128 (p : Pairing) (_l : LaneLen) (size : Nat) (v : List Lane) : List Lane :=
  pairwise p gatherLow gatherHigh size v

/-- `Q0 ‖ Q2 ‖ Q1 ‖ Q3`: the two middle quarters of a register swap (40_primitives R92). -/
def swapMiddle (a : Lane) : Lane := slice a 0 8 ++ slice a 16 24 ++ slice a 8 16 ++ slice a 24 32

/-- Every active register shuffled with itself (40_primitives R92). -/
def shufq (_l : LaneLen) (size : Nat) (v : List Lane) : List Lane :=
  (v.take size).map swapMiddle ++ v.drop size

/-- `PERM128.NEXT` (40_primitives R90). -/
def execPerm128Next (s : State) : Host.Outcome State Fault Refusal :=
  runPrimitive .perm128Next (perm128 .next) s

/-- `PERM128.SKIP` (40_primitives R91). -/
def execPerm128Skip (s : State) : Host.Outcome State Fault Refusal :=
  runPrimitive .perm128Skip (perm128 .skip) s

/-- `SHUFQ.SELF` (40_primitives R92). -/
def execShufqSelf (s : State) : Host.Outcome State Fault Refusal :=
  runPrimitive .shufqSelf shufq s

end Sys2Proof.Machine
end

