-- ==== Sys2Proof/Machine/Dispatch.lean ====
section
/-! DEFINITION. One arm per command: running it to its end. -/

namespace Sys2Proof.Machine

def exec (i : Instr) (s : State) : Host.Outcome State Fault Refusal :=
  match i with
  | .unpk8Next => Sys2Proof.Machine.execUnpk8Next s
  | .unpk16Next => Sys2Proof.Machine.execUnpk16Next s
  | .unpk32Next => Sys2Proof.Machine.execUnpk32Next s
  | .unpk64Next => Sys2Proof.Machine.execUnpk64Next s
  | .unpk8Skip => Sys2Proof.Machine.execUnpk8Skip s
  | .unpk16Skip => Sys2Proof.Machine.execUnpk16Skip s
  | .unpk32Skip => Sys2Proof.Machine.execUnpk32Skip s
  | .unpk64Skip => Sys2Proof.Machine.execUnpk64Skip s
  | .perm128Next => Sys2Proof.Machine.execPerm128Next s
  | .perm128Skip => Sys2Proof.Machine.execPerm128Skip s
  | .shufqSelf => Sys2Proof.Machine.execShufqSelf s
  | .lde => Sys2Proof.Machine.execLde s
  | .stp => Sys2Proof.Machine.execStp s
  | .ldp => Sys2Proof.Machine.execLdp s
  | .ste => Sys2Proof.Machine.execSte s
  | .sce => Sys2Proof.Machine.execSce s
  | .scd => Sys2Proof.Machine.execScd s
  | .enc => Sys2Proof.Machine.execEnc s
  | .dec => Sys2Proof.Machine.execDec s

end Sys2Proof.Machine
end

