-- ==== Sys2Proof/Machine/Port.lean ====
section
/-! DEFINITION. The register port, the two resets, and the host's direct access to memory (10_state; 70_reset; 20_memory). -/

namespace Sys2Proof.Machine

/-- The registers of the port (10_state R16). -/
inductive PortReg where
  | id
  | cfg
  | nelem
  | src
  | dst
  | idx
  | status
  | cause
  | faddr
  | cmdcnt
  | cmd
  | reset
  | reserved
  deriving DecidableEq, Repr

/-- The register at a port number (10_state R16, R29). -/
def portReg : Nat → PortReg
  | 0 => .id
  | 1 => .cfg
  | 2 => .nelem
  | 3 => .src
  | 4 => .dst
  | 5 => .idx
  | 6 => .status
  | 7 => .cause
  | 8 => .faddr
  | 9 => .cmdcnt
  | 10 => .cmd
  | 11 => .reset
  | _ => .reserved

/-- The number of a register that has one (10_state R16); 12 stands for the reserved numbers. -/
def PortReg.number : PortReg → Nat
  | .id => 0
  | .cfg => 1
  | .nelem => 2
  | .src => 3
  | .dst => 4
  | .idx => 5
  | .status => 6
  | .cause => 7
  | .faddr => 8
  | .cmdcnt => 9
  | .cmd => 10
  | .reset => 11
  | .reserved => 12

/-- What a read of a port number returns (10_state R17 to R29). It has no side effect (R34). -/
def portRead (number : Nat) (s : State) : Nat :=
  match portReg number with
  | .id => (idWord s.hw).toNat
  | .cfg => (cfgWord s).toNat
  | .nelem => s.nelem
  | .src => s.src
  | .dst => s.dst
  | .idx => s.idx
  | .status => (statusWord s).toNat
  | .cause => (causeWord s).toNat
  | .faddr => s.faddr
  | .cmdcnt => s.cmdcnt.toNat
  | .cmd => 0
  | .reset => 0
  | .reserved => 0

/-! ### Resets -/

/-- Every control register at its reset value (10_state R33; 70_reset R171). -/
def resetControl (s : State) : State :=
  { s with
    cfgW := 4, nelem := 0, src := 0, dst := 0, idx := 0, seq := .idle, ovr := false
    causeCode := 0, causeFcmd := 0, faddr := 0, cmdcnt := 0 }

/-- Soft reset: the control registers; lane registers keep their bytes, memory is not touched (70_reset R172; log 13). -/
def softReset (s : State) : State := resetControl s

/-- What a memory command asks of `IDX`, and its accesses. -/
def memoryPlan : Instr → Option (IndexNeed × (State → Plan))
  | .lde => some (.block, ldePlan)
  | .stp => some (.block, stpPlan)
  | .ldp => some (.block, ldpPlan)
  | .ste => some (.block, stePlan)
  | .sce => some (.element, scePlan)
  | .scd => some (.element, scdPlan)
  | .enc => some (.nothing, encPlan)
  | .dec => some (.nothing, decPlan)
  | .unpk8Next | .unpk16Next | .unpk32Next | .unpk64Next => none
  | .unpk8Skip | .unpk16Skip | .unpk32Skip | .unpk64Skip => none
  | .perm128Next | .perm128Skip | .shufqSelf => none

/-- The bytes command `i`, issued in `s`, would write: none where a check stops it first. -/
def wouldWrite (i : Instr) (s : State) : List (Nat × Byte) :=
  match memoryPlan i with
  | none => []
  | some (need, plan) => if operandFault need s = none then (plan s).writes else []

/-- The bytes the running command would write: none where nothing runs or the word is illegal. -/
def pendingWrites (s : State) : List (Nat × Byte) :=
  match s.seq with
  | .busy w => ((decode w).map fun i => wouldWrite i s).getD []
  | .idle | .fault => []

/-! ### Races of the host with a running command (20_memory R53; 70_reset R175; log 14) -/

/-- A memory command is running (10_state R22, R31). -/
def memoryBusy (s : State) : Bool :=
  match s.seq with
  | .busy w => ((decode w).map (·.isMemory)).getD false
  | .idle | .fault => false

/-- The bytes the address holds or has held since the running command was issued. -/
def heldBytes (s : State) (a : Nat) : List Byte :=
  s.mem.read a :: (s.raced.filter fun e => e.1 == a).map Prod.snd

/-- One of the bytes a racing read of `a` may return, freely. -/
def pickByte (c a : Nat) (bs : List Byte) : Byte := bs.getD (Config.freePick c a % bs.length) 0

/-- The state the running command reads from: each byte the host's writes have raced is the old or the new one, freely
(20_memory R53). -/
def raceView (s : State) : State :=
  { s with
    mem := s.mem.writeAll (s.raced.map fun e => (e.1, pickByte s.freeCtr e.1 (heldBytes s e.1)))
    freeCtr := s.freeCtr + 1 }

/-- The writes of the running command that stand when it has ended in `u` and the host's writes have raced it: those it
made, but a byte the host also wrote is the command's or the host's, freely. DESIGN CHOICE, unsafe: `Writable` is not asked
here. A byte the platform refuses and the host has raced keeps the host's byte, but where the held byte that `raceView` picked
for it equals the byte the command would have written, it is either of the two, freely; 60_exceptions R146 allows both
(log 14; unraced: log 10). -/
def raceWrites (s u : State) : List (Nat × Byte) :=
  (pendingWrites (raceView s)).filter fun w =>
    u.mem.read w.1 == w.2 && (s.raced.all (fun e => e.1 != w.1) || Config.freeLanded s.freeCtr w.1)

/-- The command that ran on `raceView s` has ended in `u`: its writes go to memory as the host has left it. -/
def settleRaces (s u : State) : State := { u with mem := s.mem.writeAll (raceWrites s u), raced := [] }

/-- What a racing read by the host returns: a byte the address has held since issue, or one the running command writes
there, freely (20_memory R53). DESIGN CHOICE, safe: the byte the command would write counts at a refused address too
(60_exceptions R146; log 14). -/
def racingRead (s : State) (a : Nat) : Byte :=
  pickByte s.freeCtr a (heldBytes s a ++ ((pendingWrites (raceView s)).filter fun w => w.1 == a).map Prod.snd)

/-- Hardware reset, at any time: a running command is abandoned, each byte it would have written old or new, freely;
lane registers become free; every control register takes its reset value (70_reset R171, R173; log 12). -/
def hardReset (s : State) : State :=
  resetControl { s with
    mem := cutMemory s.hw s.freeCtr (pendingWrites (raceView s)) s.mem
    lanes := scrambleLanes s.hw s.freeCtr numLanes s.lanes
    raced := []
    freeCtr := s.freeCtr + 1 }

/-! ### Port writes -/

/-- A write to `CMD` while idle issues the command in bits 7:0 (10_state R27). Nothing has raced it yet. -/
def issue (value : Nat) (s : State) : State := { s with seq := .busy (commandWord value), raced := [] }

/-- An `ALEN`-bit register keeps the low `ALEN` bits of what is written (10_state R16; log 2). -/
def keepAlen (value : Nat) (s : State) : Nat := value % s.hw.top

/-- A port write while `STATE = IDLE` (10_state R17 to R29). Writes to read-only and reserved numbers are ignored
(log 15). DESIGN CHOICE, unsafe for such values: of a value of `2^32` or above, `CFG` too keeps bits 3:0 (log 2). -/
def idleWrite (r : PortReg) (value : Nat) (s : State) : State :=
  match r with
  | .cfg => { s with cfgW := BitVec.ofNat 4 value }
  | .nelem => { s with nelem := keepAlen value s }
  | .src => { s with src := keepAlen value s }
  | .dst => { s with dst := keepAlen value s }
  | .idx => { s with idx := keepAlen value s }
  | .cmd => issue value s
  | .reset => softReset s
  | .id | .status | .cause | .faddr | .cmdcnt | .reserved => s

/-- A port write in any state: dropped with `OVR` set while `BUSY`, and while `FAULT` unless it is to `RESET`
(10_state R28, R34; 70_reset R172). -/
def portWrite (number value : Nat) (s : State) : State :=
  match s.seq with
  | .idle => idleWrite (portReg number) value s
  | .busy _ => setOvr s
  | .fault => if portReg number = .reset then softReset s else setOvr s

/-! ### The host and memory -/

/-- The host writes a byte of memory. A write to either region of a running memory command races it and is remembered
with the byte it replaced (20_memory R53; 93 U14; log 14). DESIGN CHOICE, unsafe: `Writable` binds the unit's accesses only,
so the host may write every address below `2^ALEN` (log 22). -/
def hostPoke (addr : Nat) (byte : Byte) (s : State) : Host.Outcome State Fault Refusal :=
  if s.hw.top ≤ addr then .fault (.hostAddressOutside addr)
  else if memoryBusy s && (s.inSrc addr || s.inDst addr) then
    .next { s with mem := s.mem.write addr byte, raced := (addr, s.mem.read addr) :: s.raced }
  else .next { s with mem := s.mem.write addr byte }

/-- The host reads a byte of memory. A read of the destination region of a running memory command races it
(20_memory R50, R53; log 14). DESIGN CHOICE, unsafe: `Readable` binds the unit's accesses only, so the host may read every
address below `2^ALEN` (log 22). -/
def hostPeek (addr : Nat) (s : State) : Host.Outcome State Fault Refusal :=
  if s.hw.top ≤ addr then .fault (.hostAddressOutside addr)
  else if memoryBusy s && s.inDst addr then
    .next { s with seen := s.seen ++ [(racingRead s addr).toNat], freeCtr := s.freeCtr + 1 }
  else .next { s with seen := s.seen ++ [(s.mem.read addr).toNat] }

/-- The unit runs the command word it holds, to the end: the command the word selects, or `IllegalCmd` before anything
else is looked at (10_state R27; 60_exceptions R141). `WIDE` words at `L = 16` are stopped in `runPrimitive`. -/
def runWord (w : Byte) (s : State) : Host.Outcome State Fault Refusal :=
  match decode w with
  | some i => exec i s
  | none => .next (takeFault .illegalCmd w 0 s)

/-- The unit runs a memory command that the host's writes have raced: on what the command may have read, and then over
memory as the host has left it (20_memory R53; log 14). -/
def runRaced (w : Byte) (s : State) : Host.Outcome State Fault Refusal :=
  match runWord w (raceView s) with
  | .next u => .next (settleRaces s u)
  | .fault r => .fault r
  | .refused r => .refused r

/-- The unit's turn: a running command ends; an idle or faulted unit waits (10_state R22; 60_exceptions R148, R158). -/
def unitTurn (s : State) : Host.Outcome State Fault Refusal :=
  match s.seq with
  | .busy w => if memoryBusy s && s.raced != [] then runRaced w s else runWord w s
  | .idle | .fault => .next s

/-- One event of the schedule, taken in `s` (log 6). -/
def takeEvent (e : HostEvent) (s : State) : Host.Outcome State Fault Refusal :=
  match e with
  | .unit => unitTurn s
  | .write number value => .next (portWrite number value s)
  | .read number => .next { s with seen := s.seen ++ [portRead number s] }
  | .hardReset => .next (hardReset s)
  | .poke addr byte => hostPoke addr byte s
  | .peek addr => hostPeek addr s

end Sys2Proof.Machine
end

