-- ==== Sys2Proof/Machine/Step.lean ====
section
/-! DEFINITION. One step: the next event of the schedule, or the unit's turn when the schedule is empty (log 6). -/

namespace Sys2Proof.Machine

/-- The step takes the first event off the schedule and does it. With an empty schedule the unit has its turn, so an
issued command always ends (70_reset R178), and an idle unit waits (60_exceptions R158). -/
def step (s : State) : Host.Outcome State Fault Refusal :=
  match s.host with
  | [] => unitTurn s
  | e :: rest => takeEvent e { s with host := rest }

/-- `s` with a command issued and the unit's turn next: the unit is `BUSY` with the word and no host access has raced it
yet, as a `CMD` write leaves it (10_state R27; log 16). -/
def State.withFetchWord (s : State) (_nbits w : Nat) : State :=
  { s with seq := .busy (commandWord w), raced := [], host := .unit :: s.host }

end Sys2Proof.Machine
end

