-- ==== Sys2Proof/Machine/Script.lean ====
section
/-! DEFINITION. Host scripts (30_encoding R70), pseudo-commands (R71), the reference networks (42_codec R126) and the
reference expansions of `ENC` and `DEC` (R123, R125). -/

namespace Sys2Proof.Machine

/-- A statement of a host script (30_encoding R70). -/
inductive Stmt where
  /-- `wr NAME, value`. -/
  | wr (reg : PortReg) (value : Nat)
  /-- `rd NAME`. -/
  | rd (reg : PortReg)
  /-- `cmd MNEMONIC`. -/
  | cmd (i : Instr)
  /-- `reset`. -/
  | reset
  deriving DecidableEq, Repr

/-- What the host does for a statement (30_encoding R70). The polling of `cmd` is the unit's turn and the one `STATUS`
read that sees it ended (log 20). -/
def Stmt.events : Stmt → List HostEvent
  | .wr reg value => [.write reg.number value]
  | .rd reg => [.read reg.number]
  | .cmd i => [.write PortReg.cmd.number (encode i).toNat, .unit, .read PortReg.status.number]
  | .reset => [.write PortReg.reset.number 0]

/-- A script as its port accesses (30_encoding R70). DESIGN CHOICE, unsafe for what follows a fault: the list is fixed, so a
script goes on after a `cmd` that faults, as 95_test_vectors P4 does and P5 does not (log 23). -/
def scriptEvents (p : List Stmt) : List HostEvent := p.flatMap Stmt.events

/-- `NET.ENC`, the same for either element width (30_encoding R71; 42_codec R126). -/
def netEnc : LaneLen → List Instr
  | .l16 => List.replicate 4 .unpk8Skip
  | .l32 => .perm128Skip :: List.replicate 4 .unpk8Skip

/-- `NET.DEC` for element width 4 or 8 (30_encoding R71; 42_codec R126). -/
def netDec (l : LaneLen) (width : Nat) : List Instr :=
  let n := if width = 4 then 2 else 3
  match l with
  | .l16 => List.replicate n .unpk8Skip
  | .l32 => List.replicate n .unpk8Skip ++ List.replicate n .perm128Skip

/-- A block load, a network and the block store (41_block_moves R109). -/
def blkWith (load store : Instr) (net : List Instr) : List Instr := load :: net ++ [store]

/-- `BLK.ENC` (30_encoding R71): `LDE`, `NET.ENC`, `STP`. -/
def blkEnc (l : LaneLen) : List Instr := blkWith .lde .stp (netEnc l)

/-- `BLK.DEC` (30_encoding R71): `LDP`, `NET.DEC`, `STE`. -/
def blkDec (l : LaneLen) (width : Nat) : List Instr := blkWith .ldp .ste (netDec l width)

/-- `n` scalar moves, at `IDX = first, first + 1, ..` (41_block_moves R109; 42_codec R123 to R125). -/
def scalarMoves (first n : Nat) (scalar : Instr) : List Stmt :=
  (List.range n).flatMap fun i => [.wr .idx (first + i), .cmd scalar]

/-- A block loop then a scalar loop over `n` elements (42_codec R123, R125). -/
def expansion (l : LaneLen) (n : Nat) (block : List Instr) (scalar : Instr) : List Stmt :=
  let nb := n / l.bytes
  let tail := nb * l.bytes
  ((List.range nb).flatMap fun b => .wr .idx (b * l.bytes) :: block.map .cmd) ++ scalarMoves tail (n - tail) scalar

/-- The reference expansion of `ENC` (42_codec R123). -/
def encExpansion (l : LaneLen) (n : Nat) : List Stmt := expansion l n (blkEnc l) .sce

/-- The reference expansion of `DEC` (42_codec R125). -/
def decExpansion (l : LaneLen) (width n : Nat) : List Stmt := expansion l n (blkDec l width) .scd

/-- The scalar path alone: `N` scalar moves (42_codec R124). -/
def scalarLoop (n : Nat) (scalar : Instr) : List Stmt := scalarMoves 0 n scalar

/-- Commands run one after the other, each from its issue to its end, with nothing of the host between (42_codec R131;
70_reset R177). It stops at the first command that does not end in `IDLE`. -/
def runCommands : List Instr → State → Host.Outcome State Fault Refusal
  | [], s => .next s
  | i :: is, s =>
    match exec i s with
    | .next t => if t.seq = .idle then runCommands is t else .next t
    | .fault r => .fault r
    | .refused r => .refused r

end Sys2Proof.Machine
end

