-- ==== Sys2Proof/Machine/Positions.lean ====
section
/-! DEFINITION. Byte positions of the active lane registers (40_primitives R97), for statements about primitives and
networks: the bit field each primitive rotates, and the two images of a block (41_block_moves R109). -/

namespace Sys2Proof.Machine

/-- The byte at position `a = r·L + p` of the active state (40_primitives R97). -/
def State.posByte (s : State) (a : Nat) : Byte := s.laneByte (a / s.laneBytes) (a % s.laneBytes)

/-- The bits of a position, written most significant first, that a primitive rotates left by one: register bit `k` is
bit `log2 L + k`, and a swap of two bits is a rotation of the two (40_primitives R97). `regBits` is `log2 SIZE`. -/
def rotatedField (i : Instr) (l : LaneLen) (regBits : Nat) : List Nat :=
  let base := l.log2.toNat
  let regs := ((List.range regBits).map (base + ·)).reverse
  let low := fun g => ((List.range 4).drop g).reverse
  match i with
  | .unpk8Next => base :: low 0
  | .unpk16Next => base :: low 1
  | .unpk32Next => base :: low 2
  | .unpk64Next => base :: low 3
  | .unpk8Skip => regs ++ low 0
  | .unpk16Skip => regs ++ low 1
  | .unpk32Skip => regs ++ low 2
  | .unpk64Skip => regs ++ low 3
  | .perm128Next => [base, 4]
  | .perm128Skip => regs ++ [4]
  | .shufqSelf => [4, 3]
  | .lde | .stp | .ldp | .ste | .sce | .scd | .enc | .dec => []

/-- The bit of the old position that bit `b` of the new one equals: the next of the field, going round, or `b` itself. -/
def sourceBit (field : List Nat) (b : Nat) : Nat :=
  if b ∈ field then field.getD ((field.idxOf b + 1) % field.length) b else b

/-- The position `a` goes to: its bits with the field rotated left by one (positions have at most 8 bits). -/
def movePosition (field : List Nat) (a : Nat) : Nat :=
  ((List.range 8).map fun b => a / 2 ^ sourceBit field b % 2 * 2 ^ b).sum

/-- `log2 SIZE` (10_state R12). -/
def State.regBits (s : State) : Nat := if s.width = 4 then 2 else 3

/-- The network takes the element image of a block to its plane image: byte `k` of element `j`, at block offset
`j·W + k`, ends in `V[k][j]` (41_block_moves R109; 42_codec R126). -/
def encodesBlock (l : LaneLen) (width : Nat) (net : List Instr) : Prop :=
  ∀ s : State, s.hw.lane = l → s.width = width → s.lanes.length = numLanes →
    (∀ v ∈ s.lanes, v.length = l.bytes) →
    ∃ t, runCommands net s = .next t ∧
      ∀ k < width, ∀ j < l.bytes, t.laneByte k j = s.posByte (j * width + k)

/-- The network takes the plane image of a block to its element image (41_block_moves R109; 42_codec R126). -/
def decodesBlock (l : LaneLen) (width : Nat) (net : List Instr) : Prop :=
  ∀ s : State, s.hw.lane = l → s.width = width → s.lanes.length = numLanes →
    (∀ v ∈ s.lanes, v.length = l.bytes) →
    ∃ t, runCommands net s = .next t ∧
      ∀ k < width, ∀ j < l.bytes, t.posByte (j * width + k) = s.laneByte k j

/-! ### Minimal networks -/

/-- A network of a unit of lane length `l`: an ordered sequence of its primitives (40_primitives R94; 00_scope R2). -/
def isNetwork (l : LaneLen) (net : List Instr) : Prop := ∀ i ∈ net, i.isMemory = false ∧ i.legalFor l = true

/-- The minimal length of a network with a property, and how many distinct networks have that length (42_codec R134). -/
def minimalNetworks (l : LaneLen) (reaches : List Instr → Prop) (length count : Nat) : Prop :=
  ∃ nets : List (List Instr), nets.Nodup ∧ nets.length = count ∧ (∀ net ∈ nets, net.length = length) ∧
    ∀ net, net ∈ nets ↔ isNetwork l net ∧ net.length ≤ length ∧ reaches net

/-- A row of the table of 42_codec R134. -/
structure NetworkRow where
  lane         : LaneLen
  width        : Nat
  encodeLength : Nat
  encodeCount  : Nat
  decodeLength : Nat
  decodeCount  : Nat
  deriving DecidableEq, Repr

/-- The table of 42_codec R134: minimal lengths and how many networks have them. -/
def networkTable : List NetworkRow :=
  [{ lane := .l16, width := 4, encodeLength := 4, encodeCount := 8, decodeLength := 2, decodeCount := 2 },
   { lane := .l16, width := 8, encodeLength := 4, encodeCount := 4, decodeLength := 3, decodeCount := 2 },
   { lane := .l32, width := 4, encodeLength := 5, encodeCount := 15, decodeLength := 4, decodeCount := 14 },
   { lane := .l32, width := 8, encodeLength := 5, encodeCount := 7, decodeLength := 6, decodeCount := 50 }]

end Sys2Proof.Machine
end

