-- ==== Sys2Proof/Safety.lean ====
section
/-! DEFINITION. The terms the statements use: the invariant, the conditions of the checks as the rules write them, the
accesses of each memory command as its rule writes them, and what a command leaves alone. -/

namespace Sys2Proof.Machine

/-! ### The invariant -/

/-- There are 8 lane registers of `L` bytes each (10_state R10). -/
def lanesWf (s : State) : Prop := s.lanes.length = numLanes ∧ ∀ v ∈ s.lanes, v.length = s.laneBytes

/-- The `ALEN`-bit registers hold `ALEN`-bit values (10_state R16). -/
def registersFit (s : State) : Prop :=
  s.nelem < s.hw.top ∧ s.src < s.hw.top ∧ s.dst < s.hw.top ∧ s.idx < s.hw.top ∧ s.faddr < s.hw.top

/-- Memory is in canonical form and lists no address outside the address space (20_memory R40). -/
def memoryWf (s : State) : Prop := s.mem.wf ∧ ∀ c ∈ s.mem, c.1 < s.hw.top

/-- `CAUSE` and `FADDR` describe the one fault since reset exactly while `STATE = FAULT`: one of the five codes in
`FAULT`, 0 outside it, and `FADDR` is 0 but after an `AccessFault` (10_state R25, R26; 60_exceptions R140, R148). -/
def causeWf (s : State) : Prop :=
  (s.seq = .fault → ∃ k : UnitFault, s.causeCode = k.code) ∧
  (s.seq ≠ .fault → s.causeCode = 0 ∧ s.causeFcmd = 0) ∧
  (s.causeCode ≠ UnitFault.accessFault.code → s.faddr = 0)

/-- Only a running memory command can be raced, and only inside the address space (20_memory R40, R53; log 14). -/
def racesWf (s : State) : Prop :=
  (s.raced ≠ [] → ∃ w i, s.seq = .busy w ∧ decode w = some i ∧ i.isMemory = true) ∧ ∀ e ∈ s.raced, e.1 < s.hw.top

/-- The invariant of the machine. -/
structure Inv (s : State) : Prop where
  lanes : lanesWf s
  registers : registersFit s
  memory : memoryWf s
  cause : causeWf s
  races : racesWf s

/-! ### What a command leaves alone -/

/-- The parameters and the operand registers agree. -/
def sameControl (s t : State) : Prop :=
  t.hw = s.hw ∧ t.cfgW = s.cfgW ∧ t.nelem = s.nelem ∧ t.src = s.src ∧ t.dst = s.dst ∧ t.idx = s.idx

/-- `OVR` and the fault record agree (10_state R22, R25, R26). -/
def sameRecord (s t : State) : Prop :=
  t.ovr = s.ovr ∧ t.causeCode = s.causeCode ∧ t.causeFcmd = s.causeFcmd ∧ t.faddr = s.faddr

/-- The schedule and the host's results agree: a command is not the host's doing. -/
def sameHost (s t : State) : Prop := t.host = s.host ∧ t.seen = s.seen

/-- Every address reads the same. -/
def sameMemory (s t : State) : Prop := ∀ a, t.mem.read a = s.mem.read a

/-- The command ended without fault: `STATE = IDLE` and `CMDCNT` one higher (10_state R22, R24), and nothing changed but
those, lane registers and memory. -/
def completed (s t : State) : Prop :=
  t.seq = .idle ∧ t.cmdcnt = s.cmdcnt + 1 ∧ sameControl s t ∧ sameRecord s t ∧ sameHost s t

/-- The state after fault entry from `s` with nothing else changed (60_exceptions R143). -/
def faultEntry (code : BitVec 4) (word : Byte) (s : State) : State :=
  { s with causeCode := code, causeFcmd := word, faddr := 0, seq := .fault }

/-- Command `i` was stopped by a check with this fault code: fault entry and nothing else, but for the lane registers after
`ENC` and `DEC`, which are unspecified with or without fault (60_exceptions R143; 42_codec R128; log 9), and the draw
they take. -/
def stoppedBy (code : BitVec 4) (i : Instr) (s t : State) : Prop :=
  t = { faultEntry code (encode i) s with lanes := t.lanes, freeCtr := t.freeCtr } ∧
  (i ≠ .enc → i ≠ .dec → t = faultEntry code (encode i) s)

/-! ### Conditions, as the rules write them -/

/-- `CFG.W` is 4 or 8 (60_exceptions R142). -/
def widthOk (s : State) : Prop := s.width = 4 ∨ s.width = 8

/-- What the command asks of `IDX`: block moves `IDX + L ≤ N`, scalar moves `IDX < N`, `ENC` and `DEC` nothing
(60_exceptions R144). -/
def indexOk (i : Instr) (s : State) : Prop :=
  match i with
  | .lde | .stp | .ldp | .ste => s.idx + s.laneBytes ≤ s.nelem
  | .sce | .scd => s.idx < s.nelem
  | _ => True

/-- No `RangeFault` (60_exceptions R144). -/
def rangeOk (i : Instr) (s : State) : Prop :=
  s.src + s.nelem * s.width ≤ 2 ^ s.hw.alen ∧ s.dst + s.nelem * s.width ≤ 2 ^ s.hw.alen ∧ indexOk i s

/-- The regions share a byte (60_exceptions R145). -/
def overlap (s : State) : Prop :=
  0 < s.nelem ∧ s.src < s.dst + s.nelem * s.width ∧ s.dst < s.src + s.nelem * s.width

/-- All checks of a memory command pass (41_block_moves R107; 42_codec R120). -/
def checksPass (i : Instr) (s : State) : Prop := widthOk s ∧ rangeOk i s ∧ ¬overlap s

/-- The platform reads every byte of the source region and writes every byte of the destination region (20_memory R42). -/
def regionsGranted (s : State) : Prop :=
  (∀ o < s.nelem * s.width, s.hw.readable (s.src + o) = true) ∧
  (∀ o < s.nelem * s.width, s.hw.writable (s.dst + o) = true)

/-- The step from `s` takes a reset: a hardware reset, or a write to `RESET` while not `BUSY` (10_state R28;
70_reset R170 to R172). -/
def takesReset (s : State) : Prop :=
  (∃ rest, s.host = .hardReset :: rest) ∨
  (∃ v rest, s.host = .write 11 v :: rest ∧ ∀ w, s.seq ≠ .busy w)

/-- The step from `s` takes a write to this port while `STATE = IDLE` (10_state R16). -/
def idleWriteTo (port : Nat) (s : State) : Prop := s.seq = .idle ∧ ∃ v rest, s.host = .write port v :: rest

/-- The step from `s` is the unit's turn (log 6). -/
def unitsTurn (s : State) : Prop := s.host = [] ∨ ∃ rest, s.host = .unit :: rest

/-! ### Accesses, as the rules write them -/

/-- The command reads the byte at `a` (41_block_moves R101, R103, R105, R106; 42_codec R120, R121). -/
def readsByte (i : Instr) (s : State) (a : Nat) : Prop :=
  match i with
  | .lde => ∃ r < s.width, ∃ j < s.laneBytes, a = s.src + s.idx * s.width + r * s.laneBytes + j
  | .ldp => ∃ k < s.width, ∃ j < s.laneBytes, a = s.src + k * s.nelem + s.idx + j
  | .sce => ∃ k < s.width, a = s.src + s.idx * s.width + k
  | .scd => ∃ k < s.width, a = s.src + k * s.nelem + s.idx
  | .enc => ∃ e < s.nelem, ∃ k < s.width, a = s.src + e * s.width + k
  | .dec => ∃ e < s.nelem, ∃ k < s.width, a = s.src + k * s.nelem + e
  | _ => False

/-- The command writes the byte `b` at `a` (41_block_moves R102, R104, R105, R106; 42_codec R120, R121). -/
def storesByte (i : Instr) (s : State) (a : Nat) (b : Byte) : Prop :=
  match i with
  | .stp => ∃ k < s.width, ∃ j < s.laneBytes, a = s.dst + k * s.nelem + s.idx + j ∧ b = s.laneByte k j
  | .ste => ∃ r < s.width, ∃ j < s.laneBytes,
      a = s.dst + s.idx * s.width + r * s.laneBytes + j ∧ b = s.laneByte r j
  | .sce => ∃ k < s.width, a = s.dst + k * s.nelem + s.idx ∧ b = s.mem.read (s.src + s.idx * s.width + k)
  | .scd => ∃ k < s.width, a = s.dst + s.idx * s.width + k ∧ b = s.mem.read (s.src + k * s.nelem + s.idx)
  | .enc => ∃ e < s.nelem, ∃ k < s.width,
      a = s.dst + k * s.nelem + e ∧ b = s.mem.read (s.src + e * s.width + k)
  | .dec => ∃ e < s.nelem, ∃ k < s.width,
      a = s.dst + e * s.width + k ∧ b = s.mem.read (s.src + k * s.nelem + e)
  | _ => False

/-- A memory the running command may read from: every byte is the one memory holds, or one that a host write has replaced
since the command was issued (20_memory R53; log 14). Without such writes every byte is the one memory holds. -/
def raceMemory (s : State) (m : Memory) : Prop := ∀ a, m.read a = s.mem.read a ∨ (a, m.read a) ∈ s.raced

/-- `a` is an address the command accesses and the platform refuses (60_exceptions R146). -/
def refusedByte (i : Instr) (s : State) (a : Nat) : Prop :=
  (readsByte i s a ∧ s.hw.readable a = false) ∨ ((∃ b, storesByte i s a b) ∧ s.hw.writable a = false)

end Sys2Proof.Machine
end

