-- ==== Sys2Proof/Certificates/Slice0/Obligations.lean ====
section
/-! DEFINITION. The statements about the unit. Each docstring says which rule of spec/ it formalises. -/

namespace Sys2Proof.Machine

/-! ### Tables the statements range over, written out from the spec -/

/-- The eight interleaves: command, pairing rule `skip`, granularity in bytes (40_primitives R82 to R89). -/
def unpkTable : List (Instr × Bool × Nat) :=
  [(.unpk8Next, false, 1), (.unpk16Next, false, 2), (.unpk32Next, false, 4), (.unpk64Next, false, 8),
   (.unpk8Skip, true, 1), (.unpk16Skip, true, 2), (.unpk32Skip, true, 4), (.unpk64Skip, true, 8)]

/-- The index of `A_i` (40_primitives R80). -/
def pairFirst (skip : Bool) (i : Nat) : Nat := if skip then i else 2 * i

/-- The index of `B_i` with `H = half` (40_primitives R80). -/
def pairSecond (skip : Bool) (half i : Nat) : Nat := if skip then i + half else 2 * i + 1

/-- The opcode map (30_encoding R67): word, command, class, legal when `L = 16`. -/
def opcodeMap : List (Byte × Instr × CmdClass × Bool) :=
  [(0x00, .unpk8Next, .unpk, true), (0x01, .unpk16Next, .unpk, true), (0x02, .unpk32Next, .unpk, true),
   (0x03, .unpk64Next, .unpk, true), (0x04, .unpk8Skip, .unpk, true), (0x05, .unpk16Skip, .unpk, true),
   (0x06, .unpk32Skip, .unpk, true), (0x07, .unpk64Skip, .unpk, true), (0x08, .perm128Next, .wide, false),
   (0x09, .perm128Skip, .wide, false), (0x0A, .shufqSelf, .wide, false)] ++
  [(0x10, .lde, .move, true), (0x11, .stp, .move, true), (0x12, .ldp, .move, true), (0x13, .ste, .move, true),
   (0x14, .sce, .move, true), (0x15, .scd, .move, true), (0x18, .enc, .codec, true), (0x19, .dec, .codec, true)]

/-- Registers from `n` on are as they were. -/
def lanesKeptFrom (n : Nat) (s t : State) : Prop := ∀ r, n ≤ r → t.lane r = s.lane r

end Sys2Proof.Machine

open Sys2Proof Sys2Proof.Machine

/-! ### The command word -/

/-- The decoder and the encoder agree in both directions (30_encoding R60, R67). -/
def Obligations.DecodeAndEncodeAgree : Prop :=
  (∀ i : Instr, decode (encode i) = some i) ∧ ∀ (w : Byte) (i : Instr), decode w = some i → encode i = w

/-- 30_encoding R67: each word selects its command of its class, on the units it is legal for, and no other word is legal. Nineteen
words are legal at `L = 32`, sixteen at `L = 16`. -/
def Obligations.OpcodeMapOfBothUnits : Prop :=
  (∀ e ∈ opcodeMap, decodeFor .l32 e.1 = some e.2.1 ∧ e.2.1.cls = e.2.2.1 ∧
    decodeFor .l16 e.1 = if e.2.2.2 then some e.2.1 else none) ∧
  (∀ w : Byte, w ∉ opcodeMap.map (·.1) → decodeFor .l32 w = none ∧ decodeFor .l16 w = none) ∧
  (opcodeMap.length = 19 ∧ (opcodeMap.filter (·.2.2.2)).length = 16)

/-- 30_encoding R62: in class `UNPK`, `P` is the pairing rule and the granularity is `2^G`; all eight `FN` are legal
for both `L`. -/
def Obligations.UnpkFieldsArePairingAndGranularity : Prop :=
  (∀ e ∈ unpkTable, pField (encode e.1) = (if e.2.1 then 1 else 0) ∧ 2 ^ (gField (encode e.1)).toNat = e.2.2) ∧
  ∀ (l : LaneLen) (fn : BitVec 3), ((decodeFor l ((0 : BitVec 3) ++ (0 : BitVec 2) ++ fn)).isSome) = true

/-! ### The step, the port and the sequencer -/

/-- The unit's turn runs the command its word selects; a word that selects none is `IllegalCmd`
(10_state R27; 60_exceptions R141). A word placed by `withFetchWord` is the one the next step runs. Turns and placing are the
model's form (log 6, log 16). The turn of a memory command that the host's writes have raced is the matter of
`HostAccessesWhileBusyAreRaces`. -/
def Obligations.StepRunsTheWordTheUnitHolds : Prop :=
  (∀ (s : State) (w : Byte), s.seq = .busy w → unitsTurn s →
    (∀ i, decode w = some i → i.isMemory = false ∨ s.raced = [] → step s = exec i { s with host := s.host.tail }) ∧
    (decode w = none → step s = .next (faultEntry 1 w { s with host := s.host.tail }))) ∧
  ∀ (s : State) (w : Byte) (i : Instr), decode w = some i →
    step (s.withFetchWord 8 w.toNat) = exec i { s with seq := .busy w, raced := [] }

/-- 10_state R27: a write to `CMD` while idle sets `BUSY` with bits 7:0 of the value and records the operands, which a
busy unit keeps; while `BUSY` or `FAULT` it is dropped; `CMD` reads 0. No host write has raced the command yet (log 14). -/
def Obligations.CmdWriteIssuesACommand : Prop :=
  (∀ (s : State) (v : Nat) (rest : List HostEvent), s.host = .write 10 v :: rest →
    (s.seq = .idle → step s = .next { s with host := rest, seq := .busy (BitVec.ofNat 8 v), raced := [] }) ∧
    (s.seq ≠ .idle → step s = .next { s with host := rest, ovr := true })) ∧
  (∀ (s t : State) (w : Byte), s.seq = .busy w → step s = .next t → t.seq = .busy w → sameControl s t) ∧
  ∀ s : State, portRead 10 s = 0

/-- 10_state R18 to R21: an idle write to `CFG`, `NELEM`, `SRC`, `DST` or `IDX` changes that register and nothing else,
and a value that fits the register reads back. Of any value written to `CFG`, also one of `2^32` or above, bits 3:0 count:
for the latter that is the model's choice (log 2). -/
def Obligations.IdleWritesSetTheOperandRegisters : Prop :=
  ∀ (s : State) (v : Nat) (rest : List HostEvent), s.seq = .idle →
    (s.host = .write 1 v :: rest →
      step s = .next { s with host := rest, cfgW := BitVec.ofNat 4 v } ∧
      ∀ t, step s = .next t → portRead 1 t = v % 16) ∧
    (v < 2 ^ s.hw.alen →
      (s.host = .write 2 v :: rest →
        step s = .next { s with host := rest, nelem := v } ∧ ∀ t, step s = .next t → portRead 2 t = v) ∧
      (s.host = .write 3 v :: rest →
        step s = .next { s with host := rest, src := v } ∧ ∀ t, step s = .next t → portRead 3 t = v) ∧
      (s.host = .write 4 v :: rest →
        step s = .next { s with host := rest, dst := v } ∧ ∀ t, step s = .next t → portRead 4 t = v) ∧
      (s.host = .write 5 v :: rest →
        step s = .next { s with host := rest, idx := v } ∧ ∀ t, step s = .next t → portRead 5 t = v))

/-- 10_state R17: `ID` reads 0x184 on a 16-byte unit and 0x185 on a 32-byte unit; writes to it are ignored, and set
`OVR` when the unit is not idle. -/
def Obligations.IdIsConstantAndIgnoresWrites : Prop :=
  ∀ s : State,
    portRead 0 s = (if s.hw.lane = .l16 then 0x184 else 0x185) ∧
    ∀ (v : Nat) (rest : List HostEvent), s.host = .write 0 v :: rest →
      (s.seq = .idle → step s = .next { s with host := rest }) ∧
      (s.seq ≠ .idle → step s = .next { s with host := rest, ovr := true })

/-- 10_state R25, R26: the fields of `CAUSE`, and `FADDR`; both are written only by fault entry and reset. -/
def Obligations.CauseAndFaddrAreWrittenOnlyByFaultAndReset : Prop :=
  (∀ s : State, portRead 7 s = s.causeCode.toNat + 256 * s.causeFcmd.toNat ∧ portRead 8 s = s.faddr) ∧
  ∀ s t : State, step s = .next t →
    (t.causeCode = s.causeCode ∧ t.causeFcmd = s.causeFcmd ∧ t.faddr = s.faddr) ∨
    (takesReset s ∧ t.causeCode = 0 ∧ t.causeFcmd = 0 ∧ t.faddr = 0) ∨
    (unitsTurn s ∧ ∃ w, s.seq = .busy w ∧ t.seq = .fault ∧ t.causeFcmd = w ∧
      (t.causeCode ≠ 5 → t.faddr = 0))

/-- 10_state R29: reserved port numbers read 0 and ignore writes (which set `OVR` when the unit is not idle); reserved
bits read 0 and ignore what is written to them. That what is written above bit 31 of `CFG` is ignored too is the model's
choice (log 2). -/
def Obligations.ReservedPortsAndBits : Prop :=
  (∀ (s : State) (p v : Nat) (rest : List HostEvent), 12 ≤ p →
    portRead p s = 0 ∧
    (s.host = .write p v :: rest →
      (s.seq = .idle → step s = .next { s with host := rest }) ∧
      (s.seq ≠ .idle → step s = .next { s with host := rest, ovr := true }))) ∧
  ∀ s : State, portRead 0 s < 2 ^ 16 ∧ portRead 1 s < 2 ^ 4 ∧ portRead 6 s < 2 ^ 3 ∧
    portRead 7 s / 2 ^ 4 % 2 ^ 4 = 0 ∧ portRead 7 s < 2 ^ 16 ∧
    ∀ v, portWrite 1 v s = portWrite 1 (v % 2 ^ 4) s ∧ portWrite 10 v s = portWrite 10 (v % 2 ^ 8) s

/-- 10_state R34: while `BUSY` a write to any port, and while `FAULT` a write to any port but `RESET`, changes nothing
but `OVR`; reads are always allowed and only return a value; while `BUSY` a read of `STATUS` has `STATE` = 1, and what
the other registers read does not change until the command ends. An idle write sets no `OVR`. -/
def Obligations.WritesAreDroppedWhenNotIdle : Prop :=
  (∀ (s : State) (p v : Nat) (rest : List HostEvent), s.host = .write p v :: rest →
    ((∃ w, s.seq = .busy w) ∨ (s.seq = .fault ∧ p ≠ 11) →
      step s = .next { s with host := rest, ovr := true }) ∧
    (s.seq = .idle → ∀ t, step s = .next t → t.ovr = true → s.ovr = true)) ∧
  (∀ (s : State) (p : Nat) (rest : List HostEvent), s.host = .read p :: rest →
    step s = .next { s with host := rest, seen := s.seen ++ [portRead p s] }) ∧
  (∀ (s t : State) (w : Byte), s.seq = .busy w → portRead 6 s % 4 = 1 ∧
    (step s = .next t → t.seq = .busy w → ∀ p, p ≠ 6 → portRead p t = portRead p s))

/-- 10_state R22: the fields of `STATUS`, every transition of `STATE`, when each is made, and what sets and clears `OVR`. -/
def Obligations.StatusFieldsAndTransitions : Prop :=
  (∀ s : State, portRead 6 s =
    (match s.seq with | .idle => 0 | .busy _ => 1 | .fault => 2) + (if s.ovr then 4 else 0)) ∧
  ∀ s t : State, step s = .next t →
    (s.seq = .idle → t.seq = .idle ∨
      ∃ v rest, s.host = .write 10 v :: rest ∧ t.seq = .busy (BitVec.ofNat 8 v)) ∧
    (∀ w, s.seq = .busy w → t.seq = .busy w ∨ (unitsTurn s ∧ (t.seq = .idle ∨ t.seq = .fault)) ∨
      (takesReset s ∧ t.seq = .idle)) ∧
    (s.seq = .fault → t.seq = .fault ∨ (takesReset s ∧ t.seq = .idle)) ∧
    (s.seq = .idle → ∀ v rest, s.host = .write 10 v :: rest → t.seq = .busy (BitVec.ofNat 8 v)) ∧
    (∀ w, s.seq = .busy w → unitsTurn s →
      (t.seq = .idle ∧ t.causeCode = s.causeCode) ∨ (t.seq = .fault ∧ t.causeCode ≠ 0 ∧ t.causeFcmd = w)) ∧
    (takesReset s → t.seq = .idle ∧ t.ovr = false) ∧
    (¬takesReset s → (t.ovr = true ↔
      s.ovr = true ∨ (s.seq ≠ .idle ∧ ∃ p v rest, s.host = .write p v :: rest)))

/-- 10_state R24: port 9 reads `CMDCNT`, which goes up by one, modulo `2^32`, exactly when a command ends without fault; a
reset clears it; nothing else changes it. -/
def Obligations.CmdcntCountsCommandsThatEnd : Prop :=
  (∀ s : State, portRead 9 s = s.cmdcnt.toNat) ∧
  ∀ s t : State, step s = .next t →
    (takesReset s → t.cmdcnt = 0) ∧
    (¬takesReset s → (∃ w, s.seq = .busy w) → t.seq = .idle → t.cmdcnt.toNat = (s.cmdcnt.toNat + 1) % 2 ^ 32) ∧
    (¬takesReset s → (s.seq = .idle ∨ s.seq = .fault ∨ t.seq ≠ .idle) → t.cmdcnt = s.cmdcnt)

/-- 70_reset R178: a command issued in `IDLE` ends, in `IDLE` or `FAULT`, after finitely many steps: whatever port
accesses the host makes meanwhile. -/
def Obligations.AnIssuedCommandEnds : Prop :=
  ∀ (s : State) (w : Byte), s.seq = .busy w →
    (∀ e ∈ s.host, (∃ p v, e = .write p v) ∨ (∃ p, e = .read p) ∨ e = .unit) →
    ∃ n t, n ≤ s.host.length + 1 ∧ Host.Core.run Sys2Proof.core n s = .next t ∧
      (t.seq = .idle ∨ t.seq = .fault)

/-! ### Reset -/

/-- 10_state R33: what every port reads after a reset, for both `L` and every `ALEN`. A hardware and a soft reset give
the same values. Lane registers and memory, which no port reads, are not stated here. -/
def Obligations.ResetValuesAreTheTable : Prop :=
  ∀ s u : State, (∃ hw, s = State.resetOf hw) ∨ s = hardReset u ∨ s = softReset u →
    portRead 1 s = 4 ∧ portRead 2 s = 0 ∧ portRead 3 s = 0 ∧ portRead 4 s = 0 ∧ portRead 5 s = 0 ∧
    portRead 6 s = 0 ∧ portRead 7 s = 0 ∧ portRead 8 s = 0 ∧ portRead 9 s = 0 ∧
    portRead 0 s = (if s.hw.lane = .l16 then 0x184 else 0x185) ∧ ∀ p, 10 ≤ p → portRead p s = 0

/-- 10_state R28, 70_reset R172: a write of any value to `RESET` while `IDLE` or `FAULT` gives every control register its
reset value and leaves lane registers and memory alone; while `BUSY` it is dropped and sets `OVR`; `RESET` reads 0.
That the lane registers keep their bytes is one of the two treatments R172 allows (log 13). -/
def Obligations.SoftResetKeepsLanesAndMemory : Prop :=
  (∀ (s : State) (v : Nat) (rest : List HostEvent), s.host = .write 11 v :: rest →
    ((∀ w, s.seq ≠ .busy w) → step s = .next { s with
      host := rest, cfgW := 4, nelem := 0, src := 0, dst := 0, idx := 0, seq := .idle, ovr := false
      causeCode := 0, causeFcmd := 0, faddr := 0, cmdcnt := 0 }) ∧
    ((∃ w, s.seq = .busy w) → step s = .next { s with host := rest, ovr := true })) ∧
  ∀ s : State, portRead 11 s = 0

/-- 70_reset R171, R173: a hardware reset, in any state, gives every control register its reset value and leaves 8 lane
registers of `L` bytes with any content; each byte of memory is unchanged, or, if a command whose checks pass was
running, holds the value that command would have written there. That a command whose checks fail would have written none is
the model's reading (log 12), and that the command may have read old or new bytes, where the host's writes have raced it, is
its choice of the treatments 20_memory R53 allows (log 14). -/
def Obligations.HardwareResetAbandonsTheCommand : Prop :=
  ∀ (s : State) (rest : List HostEvent), s.host = .hardReset :: rest → lanesWf s →
    ∃ t, step s = .next t ∧ t.hw = s.hw ∧ t.cfgW = 4 ∧ t.nelem = 0 ∧ t.src = 0 ∧ t.dst = 0 ∧ t.idx = 0 ∧
      t.seq = .idle ∧ t.ovr = false ∧ t.causeCode = 0 ∧ t.causeFcmd = 0 ∧ t.faddr = 0 ∧ t.cmdcnt = 0 ∧
      t.host = rest ∧ t.seen = s.seen ∧ lanesWf t ∧
      ∀ a, t.mem.read a = s.mem.read a ∨
        ∃ w i m, s.seq = .busy w ∧ decode w = some i ∧ checksPass i s ∧ raceMemory s m ∧
          storesByte i { s with mem := m } a (t.mem.read a)

/-! ### Faults -/

/-- 60_exceptions R141: a word that is not a legal command of this unit raises `IllegalCmd` before anything else is
looked at, with no lane register and no byte of memory changed. -/
def Obligations.IllegalWordRaisesIllegalCmd : Prop :=
  ∀ (s : State) (w : Byte), s.seq = .busy w → unitsTurn s → decodeFor s.hw.lane w = none →
    step s = .next { s with host := s.host.tail, causeCode := 1, causeFcmd := w, faddr := 0, seq := .fault }

/-- 60_exceptions R142, R143: a legal command with `CFG.W` not 4 or 8 raises `BadConfig` and touches nothing else, but
that the lane registers are unspecified after `ENC` and `DEC`, with or without fault (42_codec R128; log 9). -/
def Obligations.BadWidthRaisesBadConfig : Prop :=
  ∀ (i : Instr) (s : State), i.legalFor s.hw.lane = true → ¬widthOk s →
    ∃ t, exec i s = .next t ∧ stoppedBy 2 i s t

/-- 60_exceptions R144: a memory command whose region leaves the address space, or whose `IDX` is out of range, raises
`RangeFault` after the `BadConfig` check, with no memory read or written and nothing else changed, but that the lane
registers are unspecified after `ENC` and `DEC` (60_exceptions R143; 42_codec R128; log 9). -/
def Obligations.OutOfRangeRaisesRangeFault : Prop :=
  ∀ (i : Instr) (s : State), i.isMemory = true → widthOk s → ¬rangeOk i s →
    ∃ t, exec i s = .next t ∧ stoppedBy 4 i s t

/-- 60_exceptions R145: a memory command whose regions share a byte raises `AliasFault` after the `BadConfig` and
`RangeFault` checks, with no memory read or written and nothing else changed, but that the lane registers are unspecified
after `ENC` and `DEC` (60_exceptions R143; 42_codec R128; log 9). -/
def Obligations.OverlapRaisesAliasFault : Prop :=
  ∀ (i : Instr) (s : State), i.isMemory = true → widthOk s → rangeOk i s → overlap s →
    ∃ t, exec i s = .next t ∧ stoppedBy 3 i s t

/-- 60_exceptions R146: a memory command that passes its checks and meets a refused address ends in `AccessFault`:
`FADDR` is a refused address it accesses, each byte of memory is old or the value it would have written there, the lane
registers it does not write are unchanged, and the control registers and `CMDCNT` are unchanged. -/
def Obligations.RefusedAccessRaisesAccessFault : Prop :=
  ∀ (i : Instr) (s : State), i.isMemory = true → checksPass i s → (∃ a, refusedByte i s a) →
    ∃ t, exec i s = .next t ∧ t.seq = .fault ∧ t.causeCode = 5 ∧ t.causeFcmd = encode i ∧
      refusedByte i s t.faddr ∧ t.cmdcnt = s.cmdcnt ∧ t.ovr = s.ovr ∧ sameControl s t ∧ sameHost s t ∧
      (∀ a, t.mem.read a = s.mem.read a ∨ storesByte i s a (t.mem.read a)) ∧
      (i = .lde ∨ i = .ldp → lanesKeptFrom s.width s t) ∧
      (i = .stp ∨ i = .ste ∨ i = .sce ∨ i = .scd → t.lanes = s.lanes)

/-- 60_exceptions R143: a command that faults records the code, its word and the address (with code 5 one the platform
refuses, otherwise 0), sets `STATE` to `FAULT` and does not count; codes 1 to 4 change nothing else, but that the lane
registers are unspecified after `ENC` and `DEC`, with or without fault (42_codec R128; log 9). -/
def Obligations.FaultEntryIsPrecise : Prop :=
  ∀ (i : Instr) (s t : State), exec i s = .next t → t.seq ≠ .idle →
    t.seq = .fault ∧ t.causeFcmd = encode i ∧ t.cmdcnt = s.cmdcnt ∧
    (t.causeCode = 1 ∨ t.causeCode = 2 ∨ t.causeCode = 3 ∨ t.causeCode = 4 ∨ t.causeCode = 5) ∧
    (t.causeCode = 5 → refusedByte i s t.faddr) ∧ (t.causeCode ≠ 5 → stoppedBy t.causeCode i s t)

/-- 60_exceptions R147: the fault reported is the first that applies, in the order `IllegalCmd`, `BadConfig`,
`RangeFault`, `AliasFault`, `AccessFault`; if none applies the command ends in `IDLE`. -/
def Obligations.TheFirstApplicableFaultIsReported : Prop :=
  (∀ (s t : State) (w : Byte), s.seq = .busy w → unitsTurn s → decodeFor s.hw.lane w = none → step s = .next t →
    t.seq = .fault ∧ t.causeCode = 1) ∧
  ∀ (i : Instr) (s t : State), exec i s = .next t →
    (i.legalFor s.hw.lane = false → t.seq = .fault ∧ t.causeCode = 1) ∧
    (i.legalFor s.hw.lane = true →
      (¬widthOk s → t.seq = .fault ∧ t.causeCode = 2) ∧
      (widthOk s →
        (i.isMemory = false → t.seq = .idle) ∧
        (i.isMemory = true →
          (¬rangeOk i s → t.seq = .fault ∧ t.causeCode = 4) ∧
          (rangeOk i s →
            (overlap s → t.seq = .fault ∧ t.causeCode = 3) ∧
            (¬overlap s →
              ((∃ a, refusedByte i s a) → t.seq = .fault ∧ t.causeCode = 5) ∧
              ((¬∃ a, refusedByte i s a) → t.seq = .idle))))))

/-- 60_exceptions R148: `FAULT` is left only by a reset, which clears `CAUSE` and `FADDR`; until then no step changes the
fault record, a control register, a lane register or `CMDCNT`, and only the host changes memory. -/
def Obligations.FaultIsStickyUntilReset : Prop :=
  ∀ s t : State, s.seq = .fault → step s = .next t →
    (takesReset s → t.seq = .idle ∧ t.causeCode = 0 ∧ t.causeFcmd = 0 ∧ t.faddr = 0) ∧
    (¬takesReset s → t.seq = .fault ∧ t.causeCode = s.causeCode ∧ t.causeFcmd = s.causeFcmd ∧ t.faddr = s.faddr ∧
      sameControl s t ∧ t.lanes = s.lanes ∧ t.cmdcnt = s.cmdcnt ∧
      ((∀ a b rest, s.host ≠ .poke a b :: rest) → t.mem = s.mem))

/-! ### Primitives -/

/-- 40_primitives R82 to R89, R96: each of the eight interleaves ends without fault, puts the alternating units of each
pair in `V[2k]` and `V[2k+1]`, lane by lane when `L = 32`, and changes no other lane register and no memory. -/
def Obligations.InterleavesAlternateUnits : Prop :=
  ∀ (i : Instr) (skip : Bool) (g : Nat), (i, skip, g) ∈ unpkTable →
    ∀ s : State, lanesWf s → widthOk s →
      ∃ t, exec i s = .next t ∧ completed s t ∧ t.mem = s.mem ∧ lanesWf t ∧ lanesKeptFrom s.width s t ∧
        ∀ k < s.width / 2, ∀ h < s.laneBytes / 16, ∀ n < 8 / g, ∀ u < g,
          t.laneByte (2 * k) (16 * h + 2 * n * g + u) = s.laneByte (pairFirst skip k) (16 * h + n * g + u) ∧
          t.laneByte (2 * k) (16 * h + (2 * n + 1) * g + u) =
            s.laneByte (pairSecond skip (s.width / 2) k) (16 * h + n * g + u) ∧
          t.laneByte (2 * k + 1) (16 * h + 2 * n * g + u) =
            s.laneByte (pairFirst skip k) (16 * h + 8 + n * g + u) ∧
          t.laneByte (2 * k + 1) (16 * h + (2 * n + 1) * g + u) =
            s.laneByte (pairSecond skip (s.width / 2) k) (16 * h + 8 + n * g + u)

/-- 40_primitives R95: the index form of the eight interleaves, over destination positions. -/
def Obligations.InterleavesInIndexForm : Prop :=
  ∀ (i : Instr) (skip : Bool) (g : Nat), (i, skip, g) ∈ unpkTable →
    ∀ s t : State, lanesWf s → widthOk s → exec i s = .next t →
      ∀ k < s.width / 2, ∀ b < 2, ∀ h < s.laneBytes / 16, ∀ q < 16,
        t.laneByte (2 * k + b) (16 * h + q) =
          s.laneByte
            (if skip then k + q / g % 2 * (s.width / 2) else 2 * k + q / g % 2)
            (16 * h + (8 * b + q / g / 2 * g + q % g))

/-- 40_primitives R90, R91: the two wide permutes end without fault on a 32-byte unit, gather the low 128-bit lanes of
each pair in `V[2k]` and the high ones in `V[2k+1]`; on a 16-byte unit they raise `IllegalCmd`. -/
def Obligations.WidePermutesGatherHalves : Prop :=
  ∀ (i : Instr) (skip : Bool), (i = .perm128Next ∧ skip = false) ∨ (i = .perm128Skip ∧ skip = true) →
    (∀ s : State, s.hw.lane = .l32 → lanesWf s → widthOk s →
      ∃ t, exec i s = .next t ∧ completed s t ∧ t.mem = s.mem ∧ lanesWf t ∧ lanesKeptFrom s.width s t ∧
        ∀ k < s.width / 2, ∀ j < 16,
          t.laneByte (2 * k) j = s.laneByte (pairFirst skip k) j ∧
          t.laneByte (2 * k) (16 + j) = s.laneByte (pairSecond skip (s.width / 2) k) j ∧
          t.laneByte (2 * k + 1) j = s.laneByte (pairFirst skip k) (16 + j) ∧
          t.laneByte (2 * k + 1) (16 + j) = s.laneByte (pairSecond skip (s.width / 2) k) (16 + j)) ∧
    ∀ s : State, s.hw.lane = .l16 → exec i s = .next (faultEntry 1 (encode i) s)

/-- 40_primitives R92: `SHUFQ.SELF` ends without fault on a 32-byte unit and swaps the two middle 8-byte quarters of
every active register; twice it restores the lane registers; on a 16-byte unit it raises `IllegalCmd`. -/
def Obligations.ShuffleSwapsMiddleQuarters : Prop :=
  (∀ s : State, s.hw.lane = .l32 → lanesWf s → widthOk s →
    ∃ t, exec .shufqSelf s = .next t ∧ completed s t ∧ t.mem = s.mem ∧ lanesWf t ∧ lanesKeptFrom s.width s t ∧
      (∀ r < s.width, ∀ j < 8,
        t.laneByte r j = s.laneByte r j ∧
        t.laneByte r (8 + j) = s.laneByte r (16 + j) ∧
        t.laneByte r (16 + j) = s.laneByte r (8 + j) ∧
        t.laneByte r (24 + j) = s.laneByte r (24 + j)) ∧
      ∃ u, exec .shufqSelf t = .next u ∧ u.lanes = s.lanes) ∧
  ∀ s : State, s.hw.lane = .l16 → exec .shufqSelf s = .next (faultEntry 1 (encode .shufqSelf) s)

/-- 40_primitives R93: every primitive checks its word, then `CFG.W`, and otherwise cannot fault: it changes
`V[0..SIZE-1]`, `STATUS` and `CMDCNT` and nothing else. -/
def Obligations.PrimitivesCheckThenCannotFault : Prop :=
  ∀ (i : Instr) (s : State), i.isMemory = false →
    (i.legalFor s.hw.lane = false → exec i s = .next (faultEntry 1 (encode i) s)) ∧
    (i.legalFor s.hw.lane = true → ¬widthOk s → exec i s = .next (faultEntry 2 (encode i) s)) ∧
    (i.legalFor s.hw.lane = true → widthOk s → lanesWf s →
      ∃ t, exec i s = .next t ∧
        t = { s with seq := .idle, cmdcnt := s.cmdcnt + 1, lanes := t.lanes } ∧ lanesKeptFrom s.width s t)

/-- 40_primitives R94: every primitive moves the bytes of the active lane registers by one fixed permutation of their
`SIZE·L` positions, whatever the bytes are. -/
def Obligations.PrimitivesPermutePositions : Prop :=
  ∀ (i : Instr) (l : LaneLen) (width : Nat), i.isMemory = false → i.legalFor l = true → width = 4 ∨ width = 8 →
    ∃ π : Equiv.Perm (Fin (width * l.bytes)),
      ∀ s t : State, s.hw.lane = l → s.width = width → lanesWf s → exec i s = .next t →
        ∀ a : Fin (width * l.bytes), t.posByte (π a) = s.posByte a

/-- 40_primitives R97: the permutation is the stated rotation of the bits of the position. -/
def Obligations.PrimitivesRotatePositionBits : Prop :=
  ∀ (i : Instr) (s t : State), i.isMemory = false → i.legalFor s.hw.lane = true → widthOk s → lanesWf s →
    exec i s = .next t →
    ∀ a < s.width * s.laneBytes,
      movePosition (rotatedField i s.hw.lane s.regBits) a < s.width * s.laneBytes ∧
      t.posByte (movePosition (rotatedField i s.hw.lane s.regBits) a) = s.posByte a

/-! ### Moves -/

/-- 41_block_moves R101: `LDE` loads `V[r][j]` from block offset `r·L + j`, byte `(r·L+j) mod W` of element
`IDX + (r·L+j) div W`; it writes no memory. -/
def Obligations.LdeLoadsABlockOfElements : Prop :=
  ∀ s : State, checksPass .lde s → (∀ a, readsByte .lde s a → s.hw.readable a = true) →
    ∃ t, exec .lde s = .next t ∧ completed s t ∧ t.mem = s.mem ∧ lanesKeptFrom s.width s t ∧
      (∀ r < s.width, (t.lane r).length = s.laneBytes) ∧
      ∀ r < s.width, ∀ j < s.laneBytes,
        t.laneByte r j = s.mem.read (s.src + s.idx * s.width + r * s.laneBytes + j) ∧
        t.laneByte r j = s.mem.read (elemAddr s.src s.width
          (s.idx + (r * s.laneBytes + j) / s.width) ((r * s.laneBytes + j) % s.width))

/-- 41_block_moves R102: `STP` stores `V[k][j]` to the place of byte `k` of element `IDX + j` in the plane buffer, and
changes no other byte and no lane register. -/
def Obligations.StpStoresRegistersToPlanes : Prop :=
  ∀ s : State, checksPass .stp s → (∀ a b, storesByte .stp s a b → s.hw.writable a = true) →
    ∃ t, exec .stp s = .next t ∧ completed s t ∧ t.lanes = s.lanes ∧
      (∀ k < s.width, ∀ j < s.laneBytes,
        t.mem.read (s.dst + k * s.nelem + s.idx + j) = s.laneByte k j) ∧
      ∀ a, (∀ k < s.width, ∀ j < s.laneBytes, a ≠ s.dst + k * s.nelem + s.idx + j) →
        t.mem.read a = s.mem.read a

/-- 41_block_moves R103: `LDP` loads `V[k][j]` with byte `k` of element `IDX + j` of the plane buffer; it writes no
memory. -/
def Obligations.LdpLoadsRegistersFromPlanes : Prop :=
  ∀ s : State, checksPass .ldp s → (∀ a, readsByte .ldp s a → s.hw.readable a = true) →
    ∃ t, exec .ldp s = .next t ∧ completed s t ∧ t.mem = s.mem ∧ lanesKeptFrom s.width s t ∧
      (∀ r < s.width, (t.lane r).length = s.laneBytes) ∧
      ∀ k < s.width, ∀ j < s.laneBytes,
        t.laneByte k j = s.mem.read (planeAddr s.src s.nelem (s.idx + j) k)

/-- 41_block_moves R104: `STE` stores `V[r][j]` at block offset `r·L + j` of the element buffer, and changes no other
byte and no lane register. -/
def Obligations.SteStoresABlockOfElements : Prop :=
  ∀ s : State, checksPass .ste s → (∀ a b, storesByte .ste s a b → s.hw.writable a = true) →
    ∃ t, exec .ste s = .next t ∧ completed s t ∧ t.lanes = s.lanes ∧
      (∀ r < s.width, ∀ j < s.laneBytes,
        t.mem.read (s.dst + s.idx * s.width + r * s.laneBytes + j) = s.laneByte r j) ∧
      ∀ a, (∀ r < s.width, ∀ j < s.laneBytes, a ≠ s.dst + s.idx * s.width + r * s.laneBytes + j) →
        t.mem.read a = s.mem.read a

/-- 41_block_moves R105: `SCE` copies the `W` bytes of element `IDX` to their planes, and changes nothing else. -/
def Obligations.SceCopiesOneElementToPlanes : Prop :=
  ∀ s : State, checksPass .sce s → (¬∃ a, refusedByte .sce s a) →
    ∃ t, exec .sce s = .next t ∧ completed s t ∧ t.lanes = s.lanes ∧
      (∀ k < s.width,
        t.mem.read (s.dst + k * s.nelem + s.idx) = s.mem.read (s.src + s.idx * s.width + k)) ∧
      ∀ a, (∀ k < s.width, a ≠ s.dst + k * s.nelem + s.idx) → t.mem.read a = s.mem.read a

/-- 41_block_moves R106: `SCD` copies the `W` bytes of element `IDX` from their planes, and changes nothing else. -/
def Obligations.ScdCopiesOneElementFromPlanes : Prop :=
  ∀ s : State, checksPass .scd s → (¬∃ a, refusedByte .scd s a) →
    ∃ t, exec .scd s = .next t ∧ completed s t ∧ t.lanes = s.lanes ∧
      (∀ k < s.width,
        t.mem.read (s.dst + s.idx * s.width + k) = s.mem.read (s.src + k * s.nelem + s.idx)) ∧
      ∀ a, (∀ k < s.width, a ≠ s.dst + s.idx * s.width + k) → t.mem.read a = s.mem.read a

/-! ### The codec -/

/-- 42_codec R120: `ENC` makes byte `k·N + i` of the destination byte `i·W + k` of the source, for every element, and
changes no byte outside the destination region. -/
def Obligations.EncTransposesToPlanes : Prop :=
  ∀ s : State, checksPass .enc s → regionsGranted s →
    ∃ t, exec .enc s = .next t ∧ completed s t ∧
      (∀ i < s.nelem, ∀ k < s.width,
        t.mem.read (s.dst + k * s.nelem + i) = s.mem.read (s.src + i * s.width + k)) ∧
      ∀ a, ¬(s.dst ≤ a ∧ a < s.dst + s.nelem * s.width) → t.mem.read a = s.mem.read a

/-- 42_codec R121: `DEC` makes byte `i·W + k` of the destination byte `k·N + i` of the source, for every element, and
changes no byte outside the destination region. -/
def Obligations.DecTransposesToElements : Prop :=
  ∀ s : State, checksPass .dec s → regionsGranted s →
    ∃ t, exec .dec s = .next t ∧ completed s t ∧
      (∀ i < s.nelem, ∀ k < s.width,
        t.mem.read (s.dst + i * s.width + k) = s.mem.read (s.src + k * s.nelem + i)) ∧
      ∀ a, ¬(s.dst ≤ a ∧ a < s.dst + s.nelem * s.width) → t.mem.read a = s.mem.read a

/-- 42_codec R122: `ENC` from `A` to `B`, then `DEC` from `B` to `C` with the same `W` and `N`, leaves at `C` the `N·W`
bytes that were at `A`; and the same with `DEC` first. -/
def Obligations.CodecRoundTrip : Prop :=
  ∀ (first second : Instr), (first = .enc ∧ second = .dec) ∨ (first = .dec ∧ second = .enc) →
    ∀ s t u v : State, exec first s = .next t → t.seq = .idle →
      sameMemory t u → u.cfgW = s.cfgW → u.nelem = s.nelem → u.src = s.dst →
      exec second u = .next v → v.seq = .idle →
      ∀ o < s.nelem * s.width, v.mem.read (u.dst + o) = s.mem.read (s.src + o)

/-! ### What commands leave alone -/

/-- 41_block_moves R100 and 10_state R21: no command, whatever it is and however it ends, changes `CFG`, `NELEM`, `SRC`,
`DST`, `IDX`, a parameter, `OVR`, the host's schedule or what it has seen; and every command ends. -/
def Obligations.CommandsLeaveOperandsAlone : Prop :=
  ∀ (i : Instr) (s : State), ∃ t, exec i s = .next t ∧ sameControl s t ∧ t.ovr = s.ovr ∧ sameHost s t ∧
    (t.seq = .idle ∨ t.seq = .fault)

/-- 10_state R12: with `W = 4`, no command but `ENC` and `DEC` reads or writes `V[4]` to `V[7]`: runs from two states
that differ only there agree everywhere else, and each keeps its own. Where an `AccessFault` leaves a value open, the two
runs share their draws: a draw is numbered by `freeCtr` alone (log 5). -/
def Obligations.UpperLanesAreUntouchedAtWidthFour : Prop :=
  ∀ (i : Instr) (s : State) (v : List Lane), i ≠ .enc → i ≠ .dec → s.width = 4 →
    lanesWf s → lanesWf { s with lanes := v } → (∀ r < 4, v.getD r [] = s.lane r) →
    ∃ t u, exec i s = .next t ∧ exec i { s with lanes := v } = .next u ∧
      u = { t with lanes := u.lanes } ∧ (∀ r < 4, u.lane r = t.lane r) ∧
      lanesKeptFrom 4 s t ∧ ∀ r, 4 ≤ r → u.lane r = v.getD r []

/-- 10_state R13: `LDE`, `LDP`, `SCE`, `SCD`, `ENC` and `DEC` read no lane register: the rest of the state they end in
does not depend on what the lane registers held, and neither does what they leave in the ones they write, which a load that
passes its checks confines to those below `SIZE`. Where a fault or `ENC` or `DEC` leaves a value open, the two runs share
their draws, which `freeCtr` alone numbers (log 5, log 9). `STP`, `STE`, `SCE` and `SCD` write none. -/
def Obligations.LaneRegistersAreReadOnlyByPrimitivesAndStores : Prop :=
  (∀ (i : Instr) (s t : State) (v : List Lane),
    i ∈ ([.lde, .ldp, .sce, .scd, .enc, .dec] : List Instr) → exec i s = .next t →
    ∃ u, exec i { s with lanes := v } = .next { t with lanes := u } ∧
      (i = .lde ∨ i = .ldp → checksPass i s →
        (∀ r < s.width, u.getD r [] = t.lane r) ∧ ∀ r, s.width ≤ r → u.getD r [] = v.getD r []) ∧
      (i = .enc ∨ i = .dec → ∀ r < numLanes, u.getD r [] = t.lane r)) ∧
  ∀ (i : Instr) (s t : State),
    i ∈ ([.stp, .ste, .sce, .scd] : List Instr) → exec i s = .next t → t.lanes = s.lanes

/-- 10_state R13, R15, R31: in a whole step a lane register changes only where a primitive, `LDE`, `LDP`, `ENC` or `DEC`
runs or a hardware reset arrives, and memory only where a storing command runs, a hardware reset cuts a command short, or
the host writes it. `CFG`, `NELEM`, `SRC`, `DST` and `IDX` (R16, R18 to R21) change only by an idle write to their own port or
by a reset, and the parameters never. That a write to a read-only port while idle is among what changes none of these is the
model's reading (log 15), and that a soft reset keeps the lane registers is one of the two treatments 70_reset R172 allows (log 13). -/
def Obligations.LanesAndMemoryChangeOnlyAsListed : Prop :=
  ∀ s t : State, step s = .next t →
    t.hw = s.hw ∧
    (t.cfgW ≠ s.cfgW → takesReset s ∨ idleWriteTo 1 s) ∧ (t.nelem ≠ s.nelem → takesReset s ∨ idleWriteTo 2 s) ∧
    (t.src ≠ s.src → takesReset s ∨ idleWriteTo 3 s) ∧ (t.dst ≠ s.dst → takesReset s ∨ idleWriteTo 4 s) ∧
    (t.idx ≠ s.idx → takesReset s ∨ idleWriteTo 5 s) ∧
    (t.lanes ≠ s.lanes → (∃ rest, s.host = .hardReset :: rest) ∨
      (unitsTurn s ∧ ∃ w i, s.seq = .busy w ∧ decode w = some i ∧ i ∉ ([.stp, .ste, .sce, .scd] : List Instr))) ∧
    (t.mem ≠ s.mem → (∃ a b rest, s.host = .poke a b :: rest) ∨
      ∃ w i, s.seq = .busy w ∧ decode w = some i ∧ i ∈ ([.stp, .ste, .sce, .scd, .enc, .dec] : List Instr) ∧
        (unitsTurn s ∨ ∃ rest, s.host = .hardReset :: rest))

/-! ### Memory -/

/-- 20_memory R41: both layouts are bijections from element and byte index onto the `N·W` offsets of a region. -/
def Obligations.LayoutsAreBijections : Prop :=
  ∀ base n width o : Nat, o < n * width →
    (∃! p : Nat × Nat, p.1 < n ∧ p.2 < width ∧ elemAddr base width p.1 p.2 = base + o) ∧
    (∃! p : Nat × Nat, p.1 < n ∧ p.2 < width ∧ planeAddr base n p.1 p.2 = base + o)

/-- 20_memory R47, R51, 42_codec R130: a memory command runs its plan, whose reads and writes are those of its rule. A
command that passes its checks reads only the source region and writes only the destination region, all below `2^ALEN`,
each destination byte at most once; its plan depends on no byte outside the source region; and performed in any order
its writes leave the memory the command leaves. -/
def Obligations.AccessesStayInRegionsInAnyOrder : Prop :=
  ∀ (i : Instr) (need : IndexNeed) (plan : State → Plan), memoryPlan i = some (need, plan) → ∀ s : State,
    exec i s = runMemory i need plan s ∧
    (∀ a, a ∈ (plan s).reads ↔ readsByte i s a) ∧ (∀ a b, (a, b) ∈ (plan s).writes ↔ storesByte i s a b) ∧
    (¬checksPass i s → wouldWrite i s = []) ∧
    (checksPass i s →
      wouldWrite i s = (plan s).writes ∧
      (∀ a ∈ (plan s).reads, s.src ≤ a ∧ a < s.src + s.nelem * s.width ∧ a < 2 ^ s.hw.alen) ∧
      (∀ e ∈ wouldWrite i s, s.dst ≤ e.1 ∧ e.1 < s.dst + s.nelem * s.width ∧ e.1 < 2 ^ s.hw.alen) ∧
      ((wouldWrite i s).map Prod.fst).Nodup ∧
      (∀ m : Memory, (∀ a, s.src ≤ a → a < s.src + s.nelem * s.width → m.read a = s.mem.read a) →
        plan { s with mem := m } = plan s) ∧
      ∀ t, exec i s = .next t → t.seq = .idle → ∀ ws, ws.Perm (wouldWrite i s) → ∀ a,
        (s.mem.writeAll ws).read a = t.mem.read a)

/-- 20_memory R48: a memory command is idempotent: run again on the memory it left, with the same registers, it leaves
the same memory. -/
def Obligations.MemoryCommandsAreIdempotent : Prop :=
  ∀ (i : Instr) (s t u : State), i.isMemory = true → exec i s = .next t → t.seq = .idle →
    exec i { s with mem := t.mem } = .next u → u.seq = .idle ∧ sameMemory t u

/-- 20_memory R44 for bytes the platform grants: after the writes of `MemWrite(a, n, v)` the byte at `a + j` is `v[j]`,
every other byte is as before, and `MemRead(a, n)` gives `v` back. -/
def Obligations.MemReadReturnsWhatMemWriteWrote : Prop :=
  ∀ (m : Memory) (a : Nat) (v : List Byte),
    (∀ j < v.length, (m.writeAll (bytesAt a v.length v)).read (a + j) = v.getD j 0) ∧
    (∀ x, ¬(a ≤ x ∧ x < a + v.length) → (m.writeAll (bytesAt a v.length v)).read x = m.read x) ∧
    (m.writeAll (bytesAt a v.length v)).readBytes a v.length = v ∧
    (m.wf → (m.writeAll (bytesAt a v.length v)).wf)

/-- 20_memory R53 as the model treats it, a race (log 14). While a memory command runs, the host's write to a byte of
either region is made and remembered, and its read of a byte of the destination region returns a byte the address has held
since issue or one the command writes there; other bytes of the space it writes and reads as ever, whatever the platform
refuses the unit (log 22). In the unit's turn the command reads, of each byte the host has written, an old or a new one;
memory then is as the command leaves it, but a byte the host has written holds the host's byte or the command's. While no
memory command runs the host writes and reads each byte of the space as it is (R50; log 22), and an address outside the
space stops it (R40; log 14). -/
def Obligations.HostAccessesWhileBusyAreRaces : Prop :=
  (∀ (s : State) (a : Nat) (b : Byte) (rest : List HostEvent),
    (2 ^ s.hw.alen ≤ a → s.host = .poke a b :: rest ∨ s.host = .peek a :: rest →
      step s = .fault (.hostAddressOutside a)) ∧
    (a < 2 ^ s.hw.alen → (∀ w i, s.seq = .busy w → decode w = some i → i.isMemory = false) →
      (s.host = .poke a b :: rest → step s = .next { s with host := rest, mem := s.mem.write a b }) ∧
      (s.host = .peek a :: rest →
        step s = .next { s with host := rest, seen := s.seen ++ [(s.mem.read a).toNat] }))) ∧
  ∀ (s : State) (w : Byte) (i : Instr), s.seq = .busy w → decode w = some i → i.isMemory = true →
    (∀ (a : Nat) (b : Byte) (rest : List HostEvent), a < 2 ^ s.hw.alen → s.host = .poke a b :: rest →
      ((s.src ≤ a ∧ a < s.src + s.nelem * s.width) ∨ (s.dst ≤ a ∧ a < s.dst + s.nelem * s.width) →
        step s = .next { s with
          host := rest, mem := s.mem.write a b, raced := (a, s.mem.read a) :: s.raced }) ∧
      (¬(s.src ≤ a ∧ a < s.src + s.nelem * s.width) → ¬(s.dst ≤ a ∧ a < s.dst + s.nelem * s.width) →
        step s = .next { s with host := rest, mem := s.mem.write a b })) ∧
    (∀ (a : Nat) (rest : List HostEvent), a < 2 ^ s.hw.alen → s.host = .peek a :: rest →
      (s.dst ≤ a ∧ a < s.dst + s.nelem * s.width → ∃ (b : Byte) (c : Nat),
        step s = .next { s with host := rest, seen := s.seen ++ [b.toNat], freeCtr := c } ∧
        (b = s.mem.read a ∨ (a, b) ∈ s.raced ∨
          ∃ m, raceMemory s m ∧ checksPass i s ∧ storesByte i { s with mem := m } a b)) ∧
      (¬(s.dst ≤ a ∧ a < s.dst + s.nelem * s.width) →
        step s = .next { s with host := rest, seen := s.seen ++ [(s.mem.read a).toNat] })) ∧
    (unitsTurn s → ∃ (m : Memory) (c : Nat) (u t : State), raceMemory s m ∧
      exec i { s with host := s.host.tail, mem := m, freeCtr := c } = .next u ∧
      step s = .next t ∧ t = { u with mem := t.mem, raced := [] } ∧
      (∀ a, (∀ b, (a, b) ∉ s.raced) → t.mem.read a = u.mem.read a) ∧
      ∀ a, t.mem.read a = s.mem.read a ∨ (checksPass i s ∧ storesByte i { s with mem := m } a (t.mem.read a)))

/-! ### Networks and expansions -/

/-- 42_codec R126: the reference networks take the element image of a block to its plane image and back, for every `L`,
`W` and content. -/
def Obligations.ReferenceNetworksTranspose : Prop :=
  ∀ (l : LaneLen) (width : Nat), width = 4 ∨ width = 8 →
    encodesBlock l width (netEnc l) ∧ decodesBlock l width (netDec l width)

/-- 95_test_vectors section 3 item 4: `NET.DEC` after `NET.ENC`, and `NET.ENC` after `NET.DEC`, end without fault and
restore the lane registers. -/
def Obligations.ReferenceNetworksAreInverse : Prop :=
  ∀ s : State, lanesWf s → widthOk s → ∃ t u : State,
    runCommands (netEnc s.hw.lane ++ netDec s.hw.lane s.width) s = .next t ∧ t.seq = .idle ∧ t.lanes = s.lanes ∧
    runCommands (netDec s.hw.lane s.width ++ netEnc s.hw.lane) s = .next u ∧ u.seq = .idle ∧ u.lanes = s.lanes

/-- 42_codec R134 and 95_test_vectors section 2.4: the minimal networks of a 16-byte unit, all of them, by length. -/
def Obligations.MinimalNetworksAtSixteenBytes : Prop :=
  ∀ net : List Instr, (∀ i ∈ net, i.cls = .unpk) →
    (net.length ≤ 4 → (encodesBlock .l16 4 net ↔ net ∈
      ([[.unpk8Next, .unpk8Next, .unpk8Next, .unpk64Skip], [.unpk8Next, .unpk8Next, .unpk32Skip, .unpk8Skip],
        [.unpk8Next, .unpk16Skip, .unpk8Next, .unpk16Skip], [.unpk8Next, .unpk16Skip, .unpk8Skip, .unpk8Skip],
        [.unpk8Skip, .unpk8Next, .unpk8Next, .unpk32Skip], [.unpk8Skip, .unpk8Next, .unpk16Skip, .unpk8Skip],
        [.unpk8Skip, .unpk8Skip, .unpk8Next, .unpk16Skip], [.unpk8Skip, .unpk8Skip, .unpk8Skip, .unpk8Skip]] :
        List (List Instr)))) ∧
    (net.length ≤ 2 → (decodesBlock .l16 4 net ↔ net ∈
      ([[.unpk8Next, .unpk16Skip], [.unpk8Skip, .unpk8Skip]] : List (List Instr)))) ∧
    (net.length ≤ 4 → (encodesBlock .l16 8 net ↔ net ∈
      ([[.unpk8Next, .unpk8Next, .unpk32Skip, .unpk32Skip], [.unpk8Next, .unpk16Skip, .unpk16Skip, .unpk8Skip],
        [.unpk8Skip, .unpk8Next, .unpk16Skip, .unpk16Skip], [.unpk8Skip, .unpk8Skip, .unpk8Skip, .unpk8Skip]] :
        List (List Instr)))) ∧
    (net.length ≤ 3 → (decodesBlock .l16 8 net ↔ net ∈
      ([[.unpk8Next, .unpk16Skip, .unpk16Skip], [.unpk8Skip, .unpk8Skip, .unpk8Skip]] : List (List Instr))))

/-- 42_codec R134: on a 32-byte unit no network of primitives shorter than the lengths of the table takes one image of a
block to the other. The reference networks have exactly these lengths. -/
def Obligations.MinimalLengthsAtThirtyTwoBytes : Prop :=
  ∀ net : List Instr, (∀ i ∈ net, i.isMemory = false) →
    (encodesBlock .l32 4 net → 5 ≤ net.length) ∧ (decodesBlock .l32 4 net → 4 ≤ net.length) ∧
    (encodesBlock .l32 8 net → 5 ≤ net.length) ∧ (decodesBlock .l32 8 net → 6 ≤ net.length)

/-- 41_block_moves R109: a block load, a network from one image of a block to the other, and the block store write exactly
the bytes that `L` scalar moves at `IDX, IDX+1, ..` write, and those are the bytes of the formula. The network is the
reference network or any other with the same end-to-end effect. -/
def Obligations.BlockPathEqualsScalarPath : Prop :=
  ∀ s : State, lanesWf s → checksPass .lde s → regionsGranted s →
    (∀ net, net = netEnc s.hw.lane ∨ (isNetwork s.hw.lane net ∧ encodesBlock s.hw.lane s.width net) →
      ∃ t, runCommands (blkWith .lde .stp net) s = .next t ∧ t.seq = .idle ∧
        (∀ j < s.laneBytes, ∀ k < s.width, t.mem.read (s.dst + k * s.nelem + s.idx + j) =
          s.mem.read (s.src + (s.idx + j) * s.width + k)) ∧
        (∀ a, (∀ j < s.laneBytes, ∀ k < s.width, a ≠ s.dst + k * s.nelem + s.idx + j) →
          t.mem.read a = s.mem.read a) ∧
        (s.seq = .idle →
          ∃ u, Host.Core.run Sys2Proof.core (scriptEvents (scalarMoves s.idx s.laneBytes .sce)).length
              { s with host := scriptEvents (scalarMoves s.idx s.laneBytes .sce) } = .next u ∧
            u.seq = .idle ∧ u.host = [] ∧ sameMemory t u)) ∧
    (∀ net, net = netDec s.hw.lane s.width ∨ (isNetwork s.hw.lane net ∧ decodesBlock s.hw.lane s.width net) →
      ∃ t, runCommands (blkWith .ldp .ste net) s = .next t ∧ t.seq = .idle ∧
        (∀ j < s.laneBytes, ∀ k < s.width, t.mem.read (s.dst + (s.idx + j) * s.width + k) =
          s.mem.read (s.src + k * s.nelem + s.idx + j)) ∧
        (∀ a, (∀ j < s.laneBytes, ∀ k < s.width, a ≠ s.dst + (s.idx + j) * s.width + k) →
          t.mem.read a = s.mem.read a) ∧
        (s.seq = .idle →
          ∃ u, Host.Core.run Sys2Proof.core (scriptEvents (scalarMoves s.idx s.laneBytes .scd)).length
              { s with host := scriptEvents (scalarMoves s.idx s.laneBytes .scd) } = .next u ∧
            u.seq = .idle ∧ u.host = [] ∧ sameMemory t u))

/-- 42_codec R123, R124: the reference expansion of `ENC`, run by the host on the machine step by step, leaves the
memory that one `ENC` leaves, and counts `nb·(2 + length of NET.ENC) + (N - tail)` commands. -/
def Obligations.EncExpansionEqualsEnc : Prop :=
  ∀ s : State, s.seq = .idle → lanesWf s → checksPass .enc s → regionsGranted s →
    ∃ t u, Host.Core.run Sys2Proof.core (scriptEvents (encExpansion s.hw.lane s.nelem)).length
        { s with host := scriptEvents (encExpansion s.hw.lane s.nelem) } = .next t ∧
      exec .enc s = .next u ∧ t.seq = .idle ∧ t.host = [] ∧ sameMemory u t ∧
      t.cmdcnt = s.cmdcnt + BitVec.ofNat 32 (s.nelem / s.laneBytes * (2 + (netEnc s.hw.lane).length) +
        (s.nelem - s.nelem / s.laneBytes * s.laneBytes))

/-- 42_codec R125, R124: the reference expansion of `DEC`, likewise. -/
def Obligations.DecExpansionEqualsDec : Prop :=
  ∀ s : State, s.seq = .idle → lanesWf s → checksPass .dec s → regionsGranted s →
    ∃ t u, Host.Core.run Sys2Proof.core (scriptEvents (decExpansion s.hw.lane s.width s.nelem)).length
        { s with host := scriptEvents (decExpansion s.hw.lane s.width s.nelem) } = .next t ∧
      exec .dec s = .next u ∧ t.seq = .idle ∧ t.host = [] ∧ sameMemory u t ∧
      t.cmdcnt = s.cmdcnt + BitVec.ofNat 32 (s.nelem / s.laneBytes * (2 + (netDec s.hw.lane s.width).length) +
        (s.nelem - s.nelem / s.laneBytes * s.laneBytes))

/-- 42_codec R124: `N` scalar moves alone leave the memory that `ENC`, or `DEC`, leaves. -/
def Obligations.ScalarLoopEqualsCodec : Prop :=
  ∀ (scalar codec : Instr), (scalar = .sce ∧ codec = .enc) ∨ (scalar = .scd ∧ codec = .dec) →
    ∀ s : State, s.seq = .idle → checksPass codec s → regionsGranted s →
      ∃ t u, Host.Core.run Sys2Proof.core (scriptEvents (scalarLoop s.nelem scalar)).length
          { s with host := scriptEvents (scalarLoop s.nelem scalar) } = .next t ∧
        exec codec s = .next u ∧ t.seq = .idle ∧ t.host = [] ∧ sameMemory u t

/-! ### The invariant -/

/-- The state after reset meets the invariant, whatever the parameters (lane registers at the model's 0, log 3). -/
def Obligations.ResetMeetsTheInvariant : Prop := ∀ hw : Hardware, Inv (State.resetOf hw)

/-- Every step keeps the invariant: 8 lane registers of `L` bytes, `ALEN`-bit registers, memory canonical and inside
the address space, `CAUSE` and `FADDR` describing the one fault since reset exactly while `STATE = FAULT`, and races
remembered only of a running memory command. -/
def Obligations.EveryStepKeepsTheInvariant : Prop :=
  ∀ s t : State, Inv s → step s = .next t → Inv t

/-! ### The table of minimal networks -/

/-- 42_codec R134: in every row of the table the minimal networks have the stated length, and there are as many of them as
stated; and the minimal 32-byte networks that 95_test_vectors section 2.4 lists have their effect. -/
def Obligations.MinimalNetworksAreAsManyAsTheTableSays : Prop :=
  (∀ row ∈ networkTable,
    minimalNetworks row.lane (encodesBlock row.lane row.width) row.encodeLength row.encodeCount ∧
    minimalNetworks row.lane (decodesBlock row.lane row.width) row.decodeLength row.decodeCount) ∧
  encodesBlock .l32 4 [.unpk8Next, .unpk8Next, .unpk8Next, .perm128Skip, .unpk32Next] ∧
  decodesBlock .l32 4 [.unpk8Next, .perm128Next, .shufqSelf, .unpk16Skip] ∧
  encodesBlock .l32 8 [.unpk8Next, .unpk8Next, .perm128Skip, .unpk16Next, .unpk64Skip] ∧
  decodesBlock .l32 8 [.unpk8Next, .unpk32Next, .shufqSelf, .unpk32Next, .unpk16Skip, .unpk16Skip]
end

