-- ==== Sys2Proof/Laws/Lanes.lean ====
section
/-! SUPPORT. The laws of lane registers: slices, interleaves, pairs, and the shape every primitive keeps. -/

namespace Sys2Proof.Machine

/-! ### Lists built block by block -/

theorem flatMap_range_length {α : Type} (f : Nat → List α) (c n : Nat) (h : ∀ t < n, (f t).length = c) :
    ((List.range n).flatMap f).length = n * c := by
  induction n with
  | zero => simp
  | succ n ih =>
    rw [List.range_succ, List.flatMap_append, List.length_append, ih fun t ht => h t (by omega)]
    simp [h n (by omega), Nat.succ_mul]

/-- Entry `t·c + u` of blocks of length `c` is entry `u` of block `t`. -/
theorem getD_flatMap_range {α : Type} (f : Nat → List α) (c n : Nat) (d : α) (h : ∀ t < n, (f t).length = c)
    {t u : Nat} (ht : t < n) (hu : u < c) : ((List.range n).flatMap f).getD (t * c + u) d = (f t).getD u d := by
  induction n with
  | zero => omega
  | succ n ih =>
    have hlen := flatMap_range_length f c n fun t ht => h t (by omega)
    rw [List.range_succ, List.flatMap_append]
    by_cases htn : t < n
    · have : t * c + u < n * c := by nlinarith
      rw [List.getD_append _ _ _ _ (by omega)]
      exact ih (fun t ht => h t (by omega)) htn
    · obtain rfl : t = n := by omega
      rw [List.getD_append_right _ _ _ _ (by omega), hlen]
      simp

/-! ### Slices -/

@[simp] theorem slice_length {s : Lane} {a b : Nat} (hb : b ≤ s.length) : (slice s a b).length = b - a := by
  simp only [slice, List.length_take, List.length_drop]
  omega

/-- Entry `u` of `s[a:b]` is `s[a + u]`. -/
theorem slice_getD (s : Lane) {a b u : Nat} (hu : u < b - a) : (slice s a b).getD u 0 = s.getD (a + u) 0 := by
  simp [slice, List.getD, hu]

/-- A register is its two 128-bit lanes, one after the other. -/
theorem slice_append_slice (s : Lane) {a b c : Nat} (hab : a ≤ b) (hbc : b ≤ c) :
    slice s a b ++ slice s b c = slice s a c := by
  simp only [slice]
  rw [show c - a = (b - a) + (c - b) by omega, List.take_add, List.drop_drop]
  congr 3
  omega

/-! ### Interleaves -/

/-- The four granularities: byte, word, dword, qword (30_encoding R62). -/
def Granule (g : Nat) : Prop := g = 1 ∨ g = 2 ∨ g = 4 ∨ g = 8

theorem alternate_length {base : Nat} {a b : Lane} {g : Nat} (hg : Granule g) (hbase : base + 8 ≤ 16)
    (ha : a.length = 16) (hb : b.length = 16) : (alternate base a b g).length = 16 := by
  have block : ∀ t < 8 / g, (slice a (base + t * g) (base + t * g + g) ++
      slice b (base + t * g) (base + t * g + g)).length = 2 * g := by
    intro t ht
    have hend : t * g + g ≤ 8 := by
      have := Nat.div_mul_le_self 8 g
      nlinarith
    rw [List.length_append, slice_length (by omega), slice_length (by omega)]
    omega
  rw [alternate, flatMap_range_length _ _ _ block]
  rcases hg with rfl | rfl | rfl | rfl <;> norm_num

/-- Unit `2t` of an interleave is unit `t` of the first source, unit `2t + 1` unit `t` of the second
(00_scope section 5). -/
theorem alternate_getD {base : Nat} {a b : Lane} {g : Nat} (hbase : base + 8 ≤ 16)
    (ha : a.length = 16) (hb : b.length = 16) {t u : Nat} (ht : t < 8 / g) (hu : u < g) :
    (alternate base a b g).getD (2 * t * g + u) 0 = a.getD (base + t * g + u) 0 ∧
    (alternate base a b g).getD ((2 * t + 1) * g + u) 0 = b.getD (base + t * g + u) 0 := by
  have fits : ∀ t < 8 / g, base + t * g + g ≤ 16 := by
    intro t ht
    have := Nat.div_mul_le_self 8 g
    nlinarith
  have block : ∀ t < 8 / g, (slice a (base + t * g) (base + t * g + g) ++
      slice b (base + t * g) (base + t * g + g)).length = 2 * g := by
    intro t ht
    have := fits t ht
    rw [List.length_append, slice_length (by omega), slice_length (by omega)]
    omega
  have la : (slice a (base + t * g) (base + t * g + g)).length = g := by
    rw [slice_length (by have := fits t ht; omega)]; omega
  constructor
  · rw [show 2 * t * g + u = t * (2 * g) + u by ring, alternate,
      getD_flatMap_range _ (2 * g) _ _ block ht (by omega), List.getD_append _ _ _ _ (by omega),
      slice_getD _ (by omega)]
  · rw [show (2 * t + 1) * g + u = t * (2 * g) + (g + u) by ring, alternate,
      getD_flatMap_range _ (2 * g) _ _ block ht (by omega), List.getD_append_right _ _ _ _ (by omega),
      la, Nat.add_sub_cancel_left, slice_getD _ (by omega)]

theorem perLane_length {l : LaneLen} {f : Lane → Lane → Lane} {a b : Lane} (ha : a.length = l.bytes)
    (hb : b.length = l.bytes) (hf : ∀ x y : Lane, x.length = 16 → y.length = 16 → (f x y).length = 16) :
    (perLane l f a b).length = l.bytes := by
  cases l with
  | l16 => exact hf a b ha hb
  | l32 =>
    simp only [LaneLen.bytes] at ha hb ⊢
    simp only [perLane, List.length_append]
    rw [hf _ _ (by rw [slice_length (by omega)]) (by rw [slice_length (by omega)]),
      hf _ _ (by rw [slice_length (by omega)]) (by rw [slice_length (by omega)])]

theorem lo_length {l : LaneLen} {g : Nat} (hg : Granule g) {a b : Lane} (ha : a.length = l.bytes)
    (hb : b.length = l.bytes) : (lo l g a b).length = l.bytes :=
  perLane_length ha hb fun _ _ hx hy => alternate_length hg (by norm_num) hx hy

theorem hi_length {l : LaneLen} {g : Nat} (hg : Granule g) {a b : Lane} (ha : a.length = l.bytes)
    (hb : b.length = l.bytes) : (hi l g a b).length = l.bytes :=
  perLane_length ha hb fun _ _ hx hy => alternate_length hg (by norm_num) hx hy

/-- Byte `16h + q` of a lane-by-lane operation comes from 128-bit lane `h` alone (40_primitives R96). -/
theorem perLane_getD {l : LaneLen} {f : Lane → Lane → Lane} {a b : Lane} (ha : a.length = l.bytes)
    (hb : b.length = l.bytes) (hf : ∀ x y : Lane, x.length = 16 → y.length = 16 → (f x y).length = 16)
    {h q : Nat} (hh : h < l.bytes / 16) (hq : q < 16) :
    (perLane l f a b).getD (16 * h + q) 0 =
      (f (slice a (16 * h) (16 * h + 16)) (slice b (16 * h) (16 * h + 16))).getD q 0 := by
  cases l with
  | l16 =>
    simp only [LaneLen.bytes] at ha hb hh
    obtain rfl : h = 0 := by omega
    have whole : ∀ s : Lane, s.length = 16 → slice s 0 16 = s := fun s hs => by simp [slice, hs]
    simp [perLane, whole a ha, whole b hb]
  | l32 =>
    simp only [LaneLen.bytes] at ha hb hh
    have hlen : (f (slice a 0 16) (slice b 0 16)).length = 16 :=
      hf _ _ (by rw [slice_length (by omega)]) (by rw [slice_length (by omega)])
    rcases (by omega : h = 0 ∨ h = 1) with rfl | rfl
    · simp only [perLane]
      rw [List.getD_append _ _ _ _ (by omega)]
      simp
    · simp only [perLane]
      rw [List.getD_append_right _ _ _ _ (by omega), hlen]
      simp

/-! ### Pairs -/

theorem pairwise_length {p : Pairing} {x y : Lane → Lane → Lane} {size : Nat} {v : List Lane}
    (he : 2 * (size / 2) = size) (hs : size ≤ v.length) : (pairwise p x y size v).length = v.length := by
  rw [pairwise, List.length_append, flatMap_range_length _ 2 _ fun _ _ => rfl, List.length_drop]
  omega

/-- The first result of pair `i` is in `V[2i]`, the second in `V[2i+1]` (40_primitives R81). -/
theorem pairwise_lane {p : Pairing} {x y : Lane → Lane → Lane} {size : Nat} {v : List Lane} {i : Nat}
    (hi : i < size / 2) :
    (pairwise p x y size v).getD (2 * i) [] =
      x (v.getD (p.first i) []) (v.getD (p.second (size / 2) i) []) ∧
    (pairwise p x y size v).getD (2 * i + 1) [] =
      y (v.getD (p.first i) []) (v.getD (p.second (size / 2) i) []) := by
  have hlen := flatMap_range_length (fun i =>
    [x (v.getD (p.first i) []) (v.getD (p.second (size / 2) i) []),
      y (v.getD (p.first i) []) (v.getD (p.second (size / 2) i) [])]) 2 (size / 2) fun _ _ => rfl
  constructor
  · rw [pairwise, List.getD_append _ _ _ _ (by rw [hlen]; omega), Nat.mul_comm]
    exact getD_flatMap_range (fun i =>
      [x (v.getD (p.first i) []) (v.getD (p.second (size / 2) i) []),
        y (v.getD (p.first i) []) (v.getD (p.second (size / 2) i) [])]) 2 _ [] (fun _ _ => rfl) hi (u := 0)
      (by norm_num)
  · rw [pairwise, List.getD_append _ _ _ _ (by rw [hlen]; omega), Nat.mul_comm]
    exact getD_flatMap_range _ 2 _ [] (fun _ _ => rfl) hi (by norm_num)

/-- Registers from `SIZE` on are untouched (40_primitives R93). -/
theorem pairwise_lane_other {p : Pairing} {x y : Lane → Lane → Lane} {size : Nat} {v : List Lane} {r : Nat}
    (he : 2 * (size / 2) = size) (hr : size ≤ r) : (pairwise p x y size v).getD r [] = v.getD r [] := by
  have hlen := flatMap_range_length (fun i =>
    [x (v.getD (p.first i) []) (v.getD (p.second (size / 2) i) []),
      y (v.getD (p.first i) []) (v.getD (p.second (size / 2) i) [])]) 2 (size / 2) fun _ _ => rfl
  rw [pairwise, List.getD_append_right _ _ _ _ (by rw [hlen]; omega), hlen, List.getD, List.getElem?_drop,
    ← List.getD]
  congr 1
  omega

/-- A pair's members are active registers: their indices are below `SIZE` (40_primitives R80). -/
theorem Pairing.first_lt {p : Pairing} {size i : Nat} (hi : i < size / 2) : p.first i < size := by
  cases p <;> simp only [Pairing.first] <;> omega

theorem Pairing.second_lt {p : Pairing} {size i : Nat} (hi : i < size / 2) : p.second (size / 2) i < size := by
  cases p <;> simp only [Pairing.second] <;> omega

theorem mem_getD_of_lt {v : List Lane} {r : Nat} (h : r < v.length) : v.getD r [] ∈ v := by
  simp [List.getD, h]

/-- A paired operation keeps every register at length `n` if its two results do. -/
theorem pairwise_lengths {p : Pairing} {x y : Lane → Lane → Lane} {size n : Nat} {v : List Lane}
    (hs : size ≤ v.length) (hv : ∀ w ∈ v, w.length = n)
    (hx : ∀ a b : Lane, a.length = n → b.length = n → (x a b).length = n)
    (hy : ∀ a b : Lane, a.length = n → b.length = n → (y a b).length = n) :
    ∀ w ∈ pairwise p x y size v, w.length = n := by
  intro w hw
  rcases List.mem_append.mp hw with hw | hw
  · obtain ⟨i, hi, hw⟩ := List.mem_flatMap.mp hw
    have hi := List.mem_range.mp hi
    have ha := hv _ (mem_getD_of_lt (lt_of_lt_of_le (Pairing.first_lt (p := p) hi) hs))
    have hb := hv _ (mem_getD_of_lt (lt_of_lt_of_le (Pairing.second_lt (p := p) hi) hs))
    rcases List.mem_pair.mp hw with rfl | rfl
    · exact hx _ _ ha hb
    · exact hy _ _ ha hb
  · exact hv w (List.mem_of_mem_drop hw)

/-! ### The wide primitives -/

theorem gatherLow_length {a b : Lane} (ha : a.length = 32) (hb : b.length = 32) : (gatherLow a b).length = 32 := by
  rw [gatherLow, List.length_append, slice_length (by omega), slice_length (by omega)]

theorem gatherHigh_length {a b : Lane} (ha : a.length = 32) (hb : b.length = 32) :
    (gatherHigh a b).length = 32 := by
  rw [gatherHigh, List.length_append, slice_length (by omega), slice_length (by omega)]

theorem swapMiddle_length {a : Lane} (ha : a.length = 32) : (swapMiddle a).length = 32 := by
  simp only [swapMiddle, List.length_append]
  rw [slice_length (by omega), slice_length (by omega), slice_length (by omega), slice_length (by omega)]

/-- A register of 32 bytes is its four quarters. -/
theorem quarters (a : Lane) (ha : a.length = 32) :
    slice a 0 8 ++ slice a 8 16 ++ slice a 16 24 ++ slice a 24 32 = a := by
  rw [slice_append_slice a (by omega) (by omega), slice_append_slice a (by omega) (by omega),
    slice_append_slice a (by omega) (by omega)]
  simp [slice, ha]

/-! ### Free registers and loads -/

@[simp] theorem freeLane_length (hw : Hardware) (c r : Nat) : (freeLane hw c r).length = hw.lane.bytes := by
  simp [freeLane]

theorem scrambleLanes_length {hw : Hardware} {c n : Nat} {v : List Lane} (h : n ≤ v.length) :
    (scrambleLanes hw c n v).length = v.length := by
  simp only [scrambleLanes, List.length_append, List.length_map, List.length_range, List.length_drop]
  omega

theorem scrambleLanes_lengths {hw : Hardware} {c n : Nat} {v : List Lane} (hv : ∀ w ∈ v, w.length = hw.lane.bytes) :
    ∀ w ∈ scrambleLanes hw c n v, w.length = hw.lane.bytes := by
  intro w hw'
  rcases List.mem_append.mp hw' with h | h
  · obtain ⟨r, -, rfl⟩ := List.mem_map.mp h
    simp
  · exact hv w (List.mem_of_mem_drop h)

/-- Registers from `n` on are untouched. -/
theorem scrambleLanes_lane_other {hw : Hardware} {c n r : Nat} {v : List Lane} (hr : n ≤ r) :
    (scrambleLanes hw c n v).getD r [] = v.getD r [] := by
  rw [scrambleLanes, List.getD_append_right _ _ _ _ (by simpa using hr), List.getD, List.getElem?_drop, ← List.getD]
  congr 1
  simp
  omega

end Sys2Proof.Machine
end

