-- ==== Sys2Proof/Laws/Memory.lean ====
section
/-! SUPPORT. The laws of memory: reading after writing, and the canonical form that every operation keeps. -/

namespace Sys2Proof.Machine

/-! ### Reading after one operation -/

@[simp] theorem Memory.read_nil (a : Nat) : Memory.read [] a = unlistedByte := rfl

theorem Memory.read_erase (m : Memory) (a x : Nat) :
    (m.erase a).read x = if x = a then unlistedByte else m.read x := by
  induction m with
  | nil => simp [Memory.erase]
  | cons c m ih =>
    obtain ⟨k, b⟩ := c
    by_cases hk : k = a <;> by_cases hx : k = x <;> simp_all [Memory.erase, Memory.read]

theorem Memory.read_of_not_listed (m : Memory) (a : Nat) (h : ∀ c ∈ m, c.1 ≠ a) : m.read a = unlistedByte := by
  induction m with
  | nil => rfl
  | cons c m ih =>
    obtain ⟨k, b⟩ := c
    have hk : k ≠ a := h (k, b) (by simp)
    simpa [Memory.read, hk] using ih (fun d hd => h d (by simp [hd]))

theorem Memory.not_listed_erase (m : Memory) (a : Nat) : ∀ c ∈ m.erase a, c.1 ≠ a := by
  induction m with
  | nil => simp [Memory.erase]
  | cons c m ih =>
    obtain ⟨k, b⟩ := c
    by_cases hk : k = a
    · simpa [Memory.erase, hk] using ih
    · simp only [Memory.erase, hk, if_false, List.mem_cons, forall_eq_or_imp]
      exact ⟨hk, ih⟩

theorem Memory.read_insert (m : Memory) (a x : Nat) (b : Byte) (h : ∀ c ∈ m, c.1 ≠ a) :
    (m.insert a b).read x = if x = a then b else m.read x := by
  induction m with
  | nil =>
    by_cases hx : x = a
    · simp [Memory.insert, Memory.read, hx]
    · simp [Memory.insert, Memory.read, hx, Ne.symm hx]
  | cons c m ih =>
    obtain ⟨k, d⟩ := c
    have hk : k ≠ a := h (k, d) (by simp)
    have ih' := ih (fun e he => h e (by simp [he]))
    by_cases hlt : a < k
    · by_cases hx : x = a
      · simp [Memory.insert, hlt, Memory.read, hx]
      · simp [Memory.insert, hlt, Memory.read, hx, Ne.symm hx]
    · by_cases hx : k = x
      · subst hx
        simp [Memory.insert, hlt, Memory.read, hk]
      · simp [Memory.insert, hlt, Memory.read, hx, ih']

/-- A read after a write gives the value written at the same address, and what was there at any other. -/
theorem Memory.read_write (m : Memory) (a x : Nat) (b : Byte) :
    (m.write a b).read x = if x = a then b else m.read x := by
  unfold Memory.write
  split
  · next h => rw [Memory.read_erase, h]
  · rw [Memory.read_insert _ _ _ _ (Memory.not_listed_erase m a), Memory.read_erase]
    split <;> rfl

@[simp] theorem Memory.read_write_same (m : Memory) (a : Nat) (b : Byte) : (m.write a b).read a = b := by
  simp [Memory.read_write]

theorem Memory.read_write_other (m : Memory) {a x : Nat} (b : Byte) (h : x ≠ a) :
    (m.write a b).read x = m.read x := by
  simp [Memory.read_write, h]

/-! ### Reading after many writes -/

@[simp] theorem Memory.writeAll_nil (m : Memory) : m.writeAll [] = m := rfl

@[simp] theorem Memory.writeAll_cons (m : Memory) (w : Nat × Byte) (ws : List (Nat × Byte)) :
    m.writeAll (w :: ws) = (m.write w.1 w.2).writeAll ws := rfl

/-- Bytes outside the list of writes are unchanged. -/
theorem Memory.read_writeAll_other (ws : List (Nat × Byte)) (m : Memory) (a : Nat) (h : a ∉ ws.map Prod.fst) :
    (m.writeAll ws).read a = m.read a := by
  induction ws generalizing m with
  | nil => rfl
  | cons w ws ih =>
    simp only [List.map_cons, List.mem_cons, not_or] at h
    rw [Memory.writeAll_cons, ih _ h.2, Memory.read_write_other _ _ h.1]

/-- When no address is written twice, a written byte reads as its value. -/
theorem Memory.read_writeAll_mem (ws : List (Nat × Byte)) (m : Memory) (a : Nat) (b : Byte)
    (hnd : (ws.map Prod.fst).Nodup) (h : (a, b) ∈ ws) : (m.writeAll ws).read a = b := by
  induction ws generalizing m with
  | nil => simp at h
  | cons w ws ih =>
    simp only [List.map_cons, List.nodup_cons] at hnd
    rcases List.mem_cons.mp h with rfl | h
    · rw [Memory.writeAll_cons, Memory.read_writeAll_other _ _ _ hnd.1, Memory.read_write_same]
    · exact ih _ hnd.2 h

/-- Whatever the list of writes, a byte ends old or as one of its written values. -/
theorem Memory.read_writeAll_cases (ws : List (Nat × Byte)) (m : Memory) (a : Nat) :
    (m.writeAll ws).read a = m.read a ∨ (a, (m.writeAll ws).read a) ∈ ws := by
  induction ws generalizing m with
  | nil => exact .inl rfl
  | cons w ws ih =>
    rcases ih (m.write w.1 w.2) with h | h
    · by_cases ha : a = w.1
      · exact .inr (by subst ha; simp_all)
      · exact .inl (by rw [Memory.writeAll_cons, h, Memory.read_write_other _ _ ha])
    · exact .inr (List.mem_cons_of_mem _ h)

/-- A write to an address written only there commutes with all the others. -/
theorem Memory.read_writeAll_perm {ws us : List (Nat × Byte)} (h : ws.Perm us) (m : Memory)
    (hnd : (ws.map Prod.fst).Nodup) (a : Nat) : (m.writeAll us).read a = (m.writeAll ws).read a := by
  by_cases ha : a ∈ ws.map Prod.fst
  · obtain ⟨⟨a', b⟩, hw, rfl⟩ := List.mem_map.mp ha
    rw [Memory.read_writeAll_mem ws m a' b hnd hw,
      Memory.read_writeAll_mem us m a' b ((h.map Prod.fst).nodup_iff.mp hnd) (h.mem_iff.mp hw)]
  · rw [Memory.read_writeAll_other ws m a ha,
      Memory.read_writeAll_other us m a (fun hu => ha ((h.map Prod.fst).mem_iff.mpr hu))]

/-! ### The canonical form -/

theorem Memory.mem_of_mem_erase {m : Memory} {a : Nat} {c : Host.Cell} (h : c ∈ m.erase a) : c ∈ m := by
  induction m with
  | nil => simp [Memory.erase] at h
  | cons d m ih =>
    by_cases hk : d.1 = a
    · simp only [Memory.erase, hk, if_true] at h
      exact List.mem_cons_of_mem _ (ih h)
    · simp only [Memory.erase, hk, if_false, List.mem_cons] at h
      exact h.elim (fun e => by simp [e]) (fun e => List.mem_cons_of_mem _ (ih e))

theorem Memory.mem_insert {m : Memory} {a : Nat} {b : Byte} {c : Host.Cell} :
    c ∈ m.insert a b ↔ c = (a, b) ∨ c ∈ m := by
  induction m with
  | nil => simp [Memory.insert]
  | cons d m ih =>
    by_cases hlt : a < d.1
    · simp [Memory.insert, hlt]
    · simp only [Memory.insert, hlt, if_false, List.mem_cons, ih]
      tauto

theorem Memory.wf_erase {m : Memory} (h : m.wf) (a : Nat) : (m.erase a).wf := by
  refine ⟨?_, fun c hc => h.2 c (Memory.mem_of_mem_erase hc)⟩
  have hs : (m.erase a).Sublist m := by
    clear h
    induction m with
    | nil => simp [Memory.erase]
    | cons d m ih =>
      by_cases hk : d.1 = a
      · simpa [Memory.erase, hk] using ih.cons d
      · simpa [Memory.erase, hk] using ih
  exact h.1.sublist hs

theorem Memory.wf_insert {m : Memory} (h : m.wf) {a : Nat} {b : Byte} (ha : ∀ c ∈ m, c.1 ≠ a)
    (hb : b ≠ unlistedByte) : (m.insert a b).wf := by
  refine ⟨?_, ?_⟩
  · have hp := h.1
    clear h
    induction m with
    | nil => simp [Memory.insert]
    | cons d m ih =>
      obtain ⟨k, e⟩ := d
      have hk : k ≠ a := ha (k, e) (by simp)
      rw [List.pairwise_cons] at hp
      by_cases hlt : a < k
      · simp only [Memory.insert, hlt, if_true, List.pairwise_cons]
        exact ⟨fun c hc => by
          rcases List.mem_cons.mp hc with rfl | hc
          · exact hlt
          · exact lt_trans hlt (hp.1 c hc), hp⟩
      · simp only [Memory.insert, hlt, if_false, List.pairwise_cons]
        refine ⟨fun c hc => ?_, ih (fun c hc => ha c (by simp [hc])) hp.2⟩
        rcases Memory.mem_insert.mp hc with rfl | hc
        · change k < a
          omega
        · exact hp.1 c hc
  · intro c hc
    rcases Memory.mem_insert.mp hc with rfl | hc
    · exact hb
    · exact h.2 c hc

/-- A write keeps the canonical form. -/
theorem Memory.wf_write {m : Memory} (h : m.wf) (a : Nat) (b : Byte) : (m.write a b).wf := by
  unfold Memory.write
  split
  · exact Memory.wf_erase h a
  · next hb => exact Memory.wf_insert (Memory.wf_erase h a) (Memory.not_listed_erase m a) hb

/-- Many writes keep the canonical form. -/
theorem Memory.wf_writeAll {m : Memory} (h : m.wf) (ws : List (Nat × Byte)) : (m.writeAll ws).wf := by
  induction ws generalizing m with
  | nil => exact h
  | cons w ws ih => exact ih (Memory.wf_write h w.1 w.2)

theorem Memory.wf_nil : Memory.wf [] := by simp [Memory.wf]

/-- A listed cell after a write was listed before, or is the written one. -/
theorem Memory.mem_write {m : Memory} {a : Nat} {b : Byte} {c : Host.Cell} (h : c ∈ m.write a b) :
    c = (a, b) ∨ c ∈ m := by
  unfold Memory.write at h
  split at h
  · exact .inr (Memory.mem_of_mem_erase h)
  · rcases Memory.mem_insert.mp h with h | h
    · exact .inl h
    · exact .inr (Memory.mem_of_mem_erase h)

/-- A listed cell after many writes was listed before, or is one of the written ones. -/
theorem Memory.mem_writeAll {ws : List (Nat × Byte)} {m : Memory} {c : Host.Cell} (h : c ∈ m.writeAll ws) :
    c ∈ ws ∨ c ∈ m := by
  induction ws generalizing m with
  | nil => exact .inr h
  | cons w ws ih =>
    rcases ih h with h | h
    · exact .inl (List.mem_cons_of_mem _ h)
    · rcases Memory.mem_write h with rfl | h
      · exact .inl (by simp)
      · exact .inr h

/-- Two memories in canonical form that read alike at every address are the same list. -/
theorem Memory.ext_of_wf {m n : Memory} (hm : m.wf) (hn : n.wf) (h : ∀ a, m.read a = n.read a) : m = n := by
  induction m generalizing n with
  | nil =>
    cases n with
    | nil => rfl
    | cons d n =>
      have := h d.1
      simp only [Memory.read, if_true] at this
      exact absurd this.symm (hn.2 d (by simp))
  | cons c m ih =>
    have hmt : Memory.wf m := ⟨(List.pairwise_cons.mp hm.1).2, fun x hx => hm.2 x (by simp [hx])⟩
    have hcm := (List.pairwise_cons.mp hm.1).1
    cases n with
    | nil =>
      have := h c.1
      simp only [Memory.read, if_true] at this
      exact absurd this (hm.2 c (by simp))
    | cons d n =>
      have hnt : Memory.wf n := ⟨(List.pairwise_cons.mp hn.1).2, fun x hx => hn.2 x (by simp [hx])⟩
      have hdn := (List.pairwise_cons.mp hn.1).1
      obtain ⟨k, b⟩ := c
      obtain ⟨l, e⟩ := d
      have hb : b ≠ unlistedByte := hm.2 (k, b) (by simp)
      have he : e ≠ unlistedByte := hn.2 (l, e) (by simp)
      have absent_m : ∀ a, a ≤ k → Memory.read m a = unlistedByte := fun a ha =>
        Memory.read_of_not_listed m a (fun x hx => by have := hcm x hx; simp only at this; omega)
      have absent_n : ∀ a, a ≤ l → Memory.read n a = unlistedByte := fun a ha =>
        Memory.read_of_not_listed n a (fun x hx => by have := hdn x hx; simp only at this; omega)
      have hkl : k = l := by
        rcases lt_trichotomy k l with hlt | heq | hgt
        · have := h k
          simp [Memory.read, Nat.ne_of_gt hlt, absent_n k (le_of_lt hlt)] at this
          exact absurd this hb
        · exact heq
        · have := h l
          simp [Memory.read, Nat.ne_of_gt hgt, absent_m l (le_of_lt hgt)] at this
          exact absurd this.symm he
      subst hkl
      have hbe : b = e := by simpa [Memory.read] using h k
      subst hbe
      rw [ih hmt hnt fun a => ?_]
      by_cases ha : a = k
      · subst ha; rw [absent_m a le_rfl, absent_n a le_rfl]
      · simpa [Memory.read, Ne.symm ha] using h a

/-! ### Byte strings -/

theorem mem_addrsFrom {a n x : Nat} : x ∈ addrsFrom a n ↔ a ≤ x ∧ x < a + n := by
  simp only [addrsFrom, List.mem_map, List.mem_range]
  constructor
  · rintro ⟨j, hj, rfl⟩; omega
  · rintro ⟨h1, h2⟩; exact ⟨x - a, by omega, by omega⟩

@[simp] theorem Memory.readBytes_length (m : Memory) (a n : Nat) : (m.readBytes a n).length = n := by
  simp [Memory.readBytes, addrsFrom]

/-- Entry `j` of the string read is the byte at `a + j` (20_memory R43). -/
theorem Memory.readBytes_getD (m : Memory) {a n j : Nat} (h : j < n) : (m.readBytes a n).getD j 0 = m.read (a + j) := by
  simp [Memory.readBytes, addrsFrom, List.getD, h]

theorem mem_bytesAt {a n : Nat} {v : List Byte} {x : Nat} {b : Byte} :
    (x, b) ∈ bytesAt a n v ↔ ∃ j < n, x = a + j ∧ b = v.getD j 0 := by
  simp only [bytesAt, List.mem_map, List.mem_range, Prod.mk.injEq]
  exact ⟨fun ⟨j, hj, h1, h2⟩ => ⟨j, hj, h1.symm, h2.symm⟩, fun ⟨j, hj, h1, h2⟩ => ⟨j, hj, h1.symm, h2.symm⟩⟩

end Sys2Proof.Machine
end

