-- ==== Sys2Proof/Laws/State.lean ====
section
/-! SUPPORT. What each shared update of the state leaves in each field, one lemma per field. -/

namespace Sys2Proof.Machine

/-! ### `setOvr` -/

@[simp] theorem setOvr_hw (s : State) : (setOvr s).hw = s.hw := rfl
@[simp] theorem setOvr_lanes (s : State) : (setOvr s).lanes = s.lanes := rfl
@[simp] theorem setOvr_cfgW (s : State) : (setOvr s).cfgW = s.cfgW := rfl
@[simp] theorem setOvr_nelem (s : State) : (setOvr s).nelem = s.nelem := rfl
@[simp] theorem setOvr_src (s : State) : (setOvr s).src = s.src := rfl
@[simp] theorem setOvr_dst (s : State) : (setOvr s).dst = s.dst := rfl
@[simp] theorem setOvr_idx (s : State) : (setOvr s).idx = s.idx := rfl
@[simp] theorem setOvr_seq (s : State) : (setOvr s).seq = s.seq := rfl
@[simp] theorem setOvr_ovr (s : State) : (setOvr s).ovr = true := rfl
@[simp] theorem setOvr_causeCode (s : State) : (setOvr s).causeCode = s.causeCode := rfl
@[simp] theorem setOvr_causeFcmd (s : State) : (setOvr s).causeFcmd = s.causeFcmd := rfl
@[simp] theorem setOvr_faddr (s : State) : (setOvr s).faddr = s.faddr := rfl
@[simp] theorem setOvr_cmdcnt (s : State) : (setOvr s).cmdcnt = s.cmdcnt := rfl
@[simp] theorem setOvr_mem (s : State) : (setOvr s).mem = s.mem := rfl
@[simp] theorem setOvr_host (s : State) : (setOvr s).host = s.host := rfl
@[simp] theorem setOvr_seen (s : State) : (setOvr s).seen = s.seen := rfl
@[simp] theorem setOvr_freeCtr (s : State) : (setOvr s).freeCtr = s.freeCtr := rfl
@[simp] theorem setOvr_raced (s : State) : (setOvr s).raced = s.raced := rfl

/-! ### `complete` -/

@[simp] theorem complete_hw (s : State) : (complete s).hw = s.hw := rfl
@[simp] theorem complete_lanes (s : State) : (complete s).lanes = s.lanes := rfl
@[simp] theorem complete_cfgW (s : State) : (complete s).cfgW = s.cfgW := rfl
@[simp] theorem complete_nelem (s : State) : (complete s).nelem = s.nelem := rfl
@[simp] theorem complete_src (s : State) : (complete s).src = s.src := rfl
@[simp] theorem complete_dst (s : State) : (complete s).dst = s.dst := rfl
@[simp] theorem complete_idx (s : State) : (complete s).idx = s.idx := rfl
@[simp] theorem complete_seq (s : State) : (complete s).seq = .idle := rfl
@[simp] theorem complete_ovr (s : State) : (complete s).ovr = s.ovr := rfl
@[simp] theorem complete_causeCode (s : State) : (complete s).causeCode = s.causeCode := rfl
@[simp] theorem complete_causeFcmd (s : State) : (complete s).causeFcmd = s.causeFcmd := rfl
@[simp] theorem complete_faddr (s : State) : (complete s).faddr = s.faddr := rfl
@[simp] theorem complete_cmdcnt (s : State) : (complete s).cmdcnt = s.cmdcnt + 1 := rfl
@[simp] theorem complete_mem (s : State) : (complete s).mem = s.mem := rfl
@[simp] theorem complete_host (s : State) : (complete s).host = s.host := rfl
@[simp] theorem complete_seen (s : State) : (complete s).seen = s.seen := rfl
@[simp] theorem complete_freeCtr (s : State) : (complete s).freeCtr = s.freeCtr := rfl
@[simp] theorem complete_raced (s : State) : (complete s).raced = s.raced := rfl

/-! ### `takeFault` -/

@[simp] theorem takeFault_hw (k : UnitFault) (w : Byte) (a : Nat) (s : State) : (takeFault k w a s).hw = s.hw := rfl
@[simp] theorem takeFault_lanes (k : UnitFault) (w : Byte) (a : Nat) (s : State) : (takeFault k w a s).lanes = s.lanes := rfl
@[simp] theorem takeFault_cfgW (k : UnitFault) (w : Byte) (a : Nat) (s : State) : (takeFault k w a s).cfgW = s.cfgW := rfl
@[simp] theorem takeFault_nelem (k : UnitFault) (w : Byte) (a : Nat) (s : State) : (takeFault k w a s).nelem = s.nelem := rfl
@[simp] theorem takeFault_src (k : UnitFault) (w : Byte) (a : Nat) (s : State) : (takeFault k w a s).src = s.src := rfl
@[simp] theorem takeFault_dst (k : UnitFault) (w : Byte) (a : Nat) (s : State) : (takeFault k w a s).dst = s.dst := rfl
@[simp] theorem takeFault_idx (k : UnitFault) (w : Byte) (a : Nat) (s : State) : (takeFault k w a s).idx = s.idx := rfl
@[simp] theorem takeFault_seq (k : UnitFault) (w : Byte) (a : Nat) (s : State) : (takeFault k w a s).seq = .fault := rfl
@[simp] theorem takeFault_ovr (k : UnitFault) (w : Byte) (a : Nat) (s : State) : (takeFault k w a s).ovr = s.ovr := rfl
@[simp] theorem takeFault_causeCode (k : UnitFault) (w : Byte) (a : Nat) (s : State) : (takeFault k w a s).causeCode = k.code := rfl
@[simp] theorem takeFault_causeFcmd (k : UnitFault) (w : Byte) (a : Nat) (s : State) : (takeFault k w a s).causeFcmd = w := rfl
@[simp] theorem takeFault_faddr (k : UnitFault) (w : Byte) (a : Nat) (s : State) : (takeFault k w a s).faddr = a := rfl
@[simp] theorem takeFault_cmdcnt (k : UnitFault) (w : Byte) (a : Nat) (s : State) : (takeFault k w a s).cmdcnt = s.cmdcnt := rfl
@[simp] theorem takeFault_mem (k : UnitFault) (w : Byte) (a : Nat) (s : State) : (takeFault k w a s).mem = s.mem := rfl
@[simp] theorem takeFault_host (k : UnitFault) (w : Byte) (a : Nat) (s : State) : (takeFault k w a s).host = s.host := rfl
@[simp] theorem takeFault_seen (k : UnitFault) (w : Byte) (a : Nat) (s : State) : (takeFault k w a s).seen = s.seen := rfl
@[simp] theorem takeFault_freeCtr (k : UnitFault) (w : Byte) (a : Nat) (s : State) : (takeFault k w a s).freeCtr = s.freeCtr := rfl
@[simp] theorem takeFault_raced (k : UnitFault) (w : Byte) (a : Nat) (s : State) : (takeFault k w a s).raced = s.raced := rfl

/-! ### `resetControl` -/

@[simp] theorem resetControl_hw (s : State) : (resetControl s).hw = s.hw := rfl
@[simp] theorem resetControl_lanes (s : State) : (resetControl s).lanes = s.lanes := rfl
@[simp] theorem resetControl_cfgW (s : State) : (resetControl s).cfgW = 4 := rfl
@[simp] theorem resetControl_nelem (s : State) : (resetControl s).nelem = 0 := rfl
@[simp] theorem resetControl_src (s : State) : (resetControl s).src = 0 := rfl
@[simp] theorem resetControl_dst (s : State) : (resetControl s).dst = 0 := rfl
@[simp] theorem resetControl_idx (s : State) : (resetControl s).idx = 0 := rfl
@[simp] theorem resetControl_seq (s : State) : (resetControl s).seq = .idle := rfl
@[simp] theorem resetControl_ovr (s : State) : (resetControl s).ovr = false := rfl
@[simp] theorem resetControl_causeCode (s : State) : (resetControl s).causeCode = 0 := rfl
@[simp] theorem resetControl_causeFcmd (s : State) : (resetControl s).causeFcmd = 0 := rfl
@[simp] theorem resetControl_faddr (s : State) : (resetControl s).faddr = 0 := rfl
@[simp] theorem resetControl_cmdcnt (s : State) : (resetControl s).cmdcnt = 0 := rfl
@[simp] theorem resetControl_mem (s : State) : (resetControl s).mem = s.mem := rfl
@[simp] theorem resetControl_host (s : State) : (resetControl s).host = s.host := rfl
@[simp] theorem resetControl_seen (s : State) : (resetControl s).seen = s.seen := rfl
@[simp] theorem resetControl_freeCtr (s : State) : (resetControl s).freeCtr = s.freeCtr := rfl
@[simp] theorem resetControl_raced (s : State) : (resetControl s).raced = s.raced := rfl

/-! ### `softReset` -/

@[simp] theorem softReset_hw (s : State) : (softReset s).hw = s.hw := rfl
@[simp] theorem softReset_lanes (s : State) : (softReset s).lanes = s.lanes := rfl
@[simp] theorem softReset_cfgW (s : State) : (softReset s).cfgW = 4 := rfl
@[simp] theorem softReset_nelem (s : State) : (softReset s).nelem = 0 := rfl
@[simp] theorem softReset_src (s : State) : (softReset s).src = 0 := rfl
@[simp] theorem softReset_dst (s : State) : (softReset s).dst = 0 := rfl
@[simp] theorem softReset_idx (s : State) : (softReset s).idx = 0 := rfl
@[simp] theorem softReset_seq (s : State) : (softReset s).seq = .idle := rfl
@[simp] theorem softReset_ovr (s : State) : (softReset s).ovr = false := rfl
@[simp] theorem softReset_causeCode (s : State) : (softReset s).causeCode = 0 := rfl
@[simp] theorem softReset_causeFcmd (s : State) : (softReset s).causeFcmd = 0 := rfl
@[simp] theorem softReset_faddr (s : State) : (softReset s).faddr = 0 := rfl
@[simp] theorem softReset_cmdcnt (s : State) : (softReset s).cmdcnt = 0 := rfl
@[simp] theorem softReset_mem (s : State) : (softReset s).mem = s.mem := rfl
@[simp] theorem softReset_host (s : State) : (softReset s).host = s.host := rfl
@[simp] theorem softReset_seen (s : State) : (softReset s).seen = s.seen := rfl
@[simp] theorem softReset_freeCtr (s : State) : (softReset s).freeCtr = s.freeCtr := rfl
@[simp] theorem softReset_raced (s : State) : (softReset s).raced = s.raced := rfl

/-! ### `issue` -/

@[simp] theorem issue_hw (v : Nat) (s : State) : (issue v s).hw = s.hw := rfl
@[simp] theorem issue_lanes (v : Nat) (s : State) : (issue v s).lanes = s.lanes := rfl
@[simp] theorem issue_cfgW (v : Nat) (s : State) : (issue v s).cfgW = s.cfgW := rfl
@[simp] theorem issue_nelem (v : Nat) (s : State) : (issue v s).nelem = s.nelem := rfl
@[simp] theorem issue_src (v : Nat) (s : State) : (issue v s).src = s.src := rfl
@[simp] theorem issue_dst (v : Nat) (s : State) : (issue v s).dst = s.dst := rfl
@[simp] theorem issue_idx (v : Nat) (s : State) : (issue v s).idx = s.idx := rfl
@[simp] theorem issue_seq (v : Nat) (s : State) : (issue v s).seq = .busy (commandWord v) := rfl
@[simp] theorem issue_ovr (v : Nat) (s : State) : (issue v s).ovr = s.ovr := rfl
@[simp] theorem issue_causeCode (v : Nat) (s : State) : (issue v s).causeCode = s.causeCode := rfl
@[simp] theorem issue_causeFcmd (v : Nat) (s : State) : (issue v s).causeFcmd = s.causeFcmd := rfl
@[simp] theorem issue_faddr (v : Nat) (s : State) : (issue v s).faddr = s.faddr := rfl
@[simp] theorem issue_cmdcnt (v : Nat) (s : State) : (issue v s).cmdcnt = s.cmdcnt := rfl
@[simp] theorem issue_mem (v : Nat) (s : State) : (issue v s).mem = s.mem := rfl
@[simp] theorem issue_host (v : Nat) (s : State) : (issue v s).host = s.host := rfl
@[simp] theorem issue_seen (v : Nat) (s : State) : (issue v s).seen = s.seen := rfl
@[simp] theorem issue_freeCtr (v : Nat) (s : State) : (issue v s).freeCtr = s.freeCtr := rfl
@[simp] theorem issue_raced (v : Nat) (s : State) : (issue v s).raced = [] := rfl

end Sys2Proof.Machine
end

