-- ==== Sys2Proof/Laws/Ops.lean ====
section
/-! SUPPORT. What each shared operation can do, said once: ending, cutting short, running a primitive or a memory command. -/

namespace Sys2Proof.Machine

/-! ### The end of a memory command, field by field -/

section
variable (p : Plan) (w : Byte) (s : State)

@[simp] theorem finishPlan_hw : (finishPlan p s).hw = s.hw := rfl
@[simp] theorem finishPlan_lanes : (finishPlan p s).lanes = p.lanes.done s.hw s.freeCtr s.lanes := rfl
@[simp] theorem finishPlan_cfgW : (finishPlan p s).cfgW = s.cfgW := rfl
@[simp] theorem finishPlan_nelem : (finishPlan p s).nelem = s.nelem := rfl
@[simp] theorem finishPlan_src : (finishPlan p s).src = s.src := rfl
@[simp] theorem finishPlan_dst : (finishPlan p s).dst = s.dst := rfl
@[simp] theorem finishPlan_idx : (finishPlan p s).idx = s.idx := rfl
@[simp] theorem finishPlan_seq : (finishPlan p s).seq = .idle := rfl
@[simp] theorem finishPlan_ovr : (finishPlan p s).ovr = s.ovr := rfl
@[simp] theorem finishPlan_causeCode : (finishPlan p s).causeCode = s.causeCode := rfl
@[simp] theorem finishPlan_causeFcmd : (finishPlan p s).causeFcmd = s.causeFcmd := rfl
@[simp] theorem finishPlan_faddr : (finishPlan p s).faddr = s.faddr := rfl
@[simp] theorem finishPlan_cmdcnt : (finishPlan p s).cmdcnt = s.cmdcnt + 1 := rfl
@[simp] theorem finishPlan_mem : (finishPlan p s).mem = s.mem.writeAll p.writes := rfl
@[simp] theorem finishPlan_host : (finishPlan p s).host = s.host := rfl
@[simp] theorem finishPlan_seen : (finishPlan p s).seen = s.seen := rfl
@[simp] theorem finishPlan_raced : (finishPlan p s).raced = s.raced := rfl

@[simp] theorem accessFault_hw : (accessFault w p s).hw = s.hw := rfl
@[simp] theorem accessFault_lanes : (accessFault w p s).lanes = p.lanes.cut s.hw s.freeCtr s.lanes := rfl
@[simp] theorem accessFault_cfgW : (accessFault w p s).cfgW = s.cfgW := rfl
@[simp] theorem accessFault_nelem : (accessFault w p s).nelem = s.nelem := rfl
@[simp] theorem accessFault_src : (accessFault w p s).src = s.src := rfl
@[simp] theorem accessFault_dst : (accessFault w p s).dst = s.dst := rfl
@[simp] theorem accessFault_idx : (accessFault w p s).idx = s.idx := rfl
@[simp] theorem accessFault_seq : (accessFault w p s).seq = .fault := rfl
@[simp] theorem accessFault_ovr : (accessFault w p s).ovr = s.ovr := rfl
@[simp] theorem accessFault_causeCode : (accessFault w p s).causeCode = UnitFault.accessFault.code := rfl
@[simp] theorem accessFault_causeFcmd : (accessFault w p s).causeFcmd = w := rfl
@[simp] theorem accessFault_faddr :
    (accessFault w p s).faddr = pickRefused s.freeCtr (refusedAddrs s.hw p) := rfl
@[simp] theorem accessFault_cmdcnt : (accessFault w p s).cmdcnt = s.cmdcnt := rfl
@[simp] theorem accessFault_mem :
    (accessFault w p s).mem = cutMemory s.hw s.freeCtr p.writes s.mem := rfl
@[simp] theorem accessFault_host : (accessFault w p s).host = s.host := rfl
@[simp] theorem accessFault_seen : (accessFault w p s).seen = s.seen := rfl
@[simp] theorem accessFault_raced : (accessFault w p s).raced = s.raced := rfl

variable (k : UnitFault)

@[simp] theorem checkFault_hw : (checkFault k w p s).hw = s.hw := by
  unfold checkFault stopLanes; split <;> rfl
@[simp] theorem checkFault_cfgW : (checkFault k w p s).cfgW = s.cfgW := by
  unfold checkFault stopLanes; split <;> rfl
@[simp] theorem checkFault_nelem : (checkFault k w p s).nelem = s.nelem := by
  unfold checkFault stopLanes; split <;> rfl
@[simp] theorem checkFault_src : (checkFault k w p s).src = s.src := by
  unfold checkFault stopLanes; split <;> rfl
@[simp] theorem checkFault_dst : (checkFault k w p s).dst = s.dst := by
  unfold checkFault stopLanes; split <;> rfl
@[simp] theorem checkFault_idx : (checkFault k w p s).idx = s.idx := by
  unfold checkFault stopLanes; split <;> rfl
@[simp] theorem checkFault_seq : (checkFault k w p s).seq = .fault := rfl
@[simp] theorem checkFault_ovr : (checkFault k w p s).ovr = s.ovr := by
  unfold checkFault stopLanes; split <;> rfl
@[simp] theorem checkFault_causeCode : (checkFault k w p s).causeCode = k.code := rfl
@[simp] theorem checkFault_causeFcmd : (checkFault k w p s).causeFcmd = w := rfl
@[simp] theorem checkFault_faddr : (checkFault k w p s).faddr = 0 := rfl
@[simp] theorem checkFault_cmdcnt : (checkFault k w p s).cmdcnt = s.cmdcnt := by
  unfold checkFault stopLanes; split <;> rfl
@[simp] theorem checkFault_mem : (checkFault k w p s).mem = s.mem := by
  unfold checkFault stopLanes; split <;> rfl
@[simp] theorem checkFault_host : (checkFault k w p s).host = s.host := by
  unfold checkFault stopLanes; split <;> rfl
@[simp] theorem checkFault_seen : (checkFault k w p s).seen = s.seen := by
  unfold checkFault stopLanes; split <;> rfl
@[simp] theorem checkFault_raced : (checkFault k w p s).raced = s.raced := by
  unfold checkFault stopLanes; split <;> rfl

end

/-! ### Free choices -/

/-- The address picked is one of the refused ones (60_exceptions R146). -/
theorem pickRefused_mem {c : Nat} {bad : List Nat} (h : bad ≠ []) : pickRefused c bad ∈ bad := by
  have hlen : 0 < bad.length := List.length_pos_iff.mpr h
  have hlt : Config.freeIndex c % bad.length < bad.length := Nat.mod_lt _ hlen
  simp [pickRefused, List.getD, hlt]

/-- Memory cut short: every byte is old, or one of the values the command would have written there. -/
theorem cutMemory_cases (hw : Hardware) (c : Nat) (ws : List (Nat × Byte)) (m : Memory) (a : Nat) :
    (cutMemory hw c ws m).read a = m.read a ∨ (a, (cutMemory hw c ws m).read a) ∈ ws := by
  rcases Memory.read_writeAll_cases (ws.filter fun w => hw.writable w.1 && Config.freeLanded c w.1) m a with h | h
  · exact .inl h
  · exact .inr (List.mem_of_mem_filter h)

/-- A byte the platform refuses to write is old. -/
theorem cutMemory_refused (hw : Hardware) (c : Nat) (ws : List (Nat × Byte)) (m : Memory) {a : Nat}
    (ha : hw.writable a = false) : (cutMemory hw c ws m).read a = m.read a := by
  refine Memory.read_writeAll_other _ _ _ fun h => ?_
  obtain ⟨w, hw', rfl⟩ := List.mem_map.mp h
  simp [ha] at hw'

theorem mem_refusedAddrs {hw : Hardware} {p : Plan} {a : Nat} : a ∈ refusedAddrs hw p ↔
    (a ∈ p.reads ∧ hw.readable a = false) ∨ (a ∈ p.writes.map Prod.fst ∧ hw.writable a = false) := by
  simp only [refusedAddrs, List.mem_append, List.mem_filter, Bool.not_eq_true']

/-! ### Primitives and memory commands -/

/-- What the lane registers become under a primitive. -/
def primitiveFn : Instr → Option (LaneLen → Nat → List Lane → List Lane)
  | .unpk8Next => some (interleave .next 1)
  | .unpk16Next => some (interleave .next 2)
  | .unpk32Next => some (interleave .next 4)
  | .unpk64Next => some (interleave .next 8)
  | .unpk8Skip => some (interleave .skip 1)
  | .unpk16Skip => some (interleave .skip 2)
  | .unpk32Skip => some (interleave .skip 4)
  | .unpk64Skip => some (interleave .skip 8)
  | .perm128Next => some (perm128 .next)
  | .perm128Skip => some (perm128 .skip)
  | .shufqSelf => some shufq
  | .lde | .stp | .ldp | .ste | .sce | .scd | .enc | .dec => none

theorem exec_of_primitiveFn {i : Instr} {f : LaneLen → Nat → List Lane → List Lane} (h : primitiveFn i = some f)
    (s : State) : exec i s = runPrimitive i f s := by
  cases i <;> simp only [primitiveFn, Option.some.injEq, reduceCtorEq] at h <;> subst h <;> rfl

theorem exec_of_memoryPlan {i : Instr} {need : IndexNeed} {plan : State → Plan}
    (h : memoryPlan i = some (need, plan)) (s : State) : exec i s = runMemory i need plan s := by
  cases i <;> simp only [memoryPlan, Option.some.injEq, reduceCtorEq, Prod.mk.injEq] at h <;>
    obtain ⟨rfl, rfl⟩ := h <;> rfl

/-- Every command is a primitive or a memory command. -/
theorem primitive_or_memory (i : Instr) :
    (∃ f, primitiveFn i = some f ∧ memoryPlan i = none ∧ i.isMemory = false) ∨
    (∃ need plan, memoryPlan i = some (need, plan) ∧ primitiveFn i = none ∧ i.isMemory = true) := by
  cases i
  case lde | stp | ldp | ste | sce | scd | enc | dec => exact .inr ⟨_, _, rfl, rfl, rfl⟩
  all_goals exact .inl ⟨_, rfl, rfl, rfl⟩

/-- What a primitive can do (40_primitives R93). -/
theorem runPrimitive_cases {i : Instr} {f : LaneLen → Nat → List Lane → List Lane} {s t : State}
    (h : runPrimitive i f s = .next t) :
    (i.legalFor s.hw.lane = false ∧ t = takeFault .illegalCmd (encode i) 0 s) ∨
    (i.legalFor s.hw.lane = true ∧ widthLegal s = false ∧ t = takeFault .badConfig (encode i) 0 s) ∨
    (i.legalFor s.hw.lane = true ∧ widthLegal s = true ∧
      t = complete { s with lanes := f s.hw.lane s.size s.lanes }) := by
  unfold runPrimitive at h
  split at h
  · next hl => exact .inl ⟨by simpa using hl, (Host.Outcome.next.inj h).symm⟩
  · next hl =>
    split at h
    · next hw => exact .inr (.inl ⟨by simpa using hl, by simpa using hw, (Host.Outcome.next.inj h).symm⟩)
    · next hw => exact .inr (.inr ⟨by simpa using hl, by simpa using hw, (Host.Outcome.next.inj h).symm⟩)

/-- What a memory command can do (41_block_moves R107, R108; 60_exceptions R146). -/
theorem runMemory_cases {i : Instr} {need : IndexNeed} {plan : State → Plan} {s t : State}
    (h : runMemory i need plan s = .next t) :
    (∃ k, operandFault need s = some k ∧ t = checkFault k (encode i) (plan s) s) ∨
    (operandFault need s = none ∧ refusedAddrs s.hw (plan s) = [] ∧ t = finishPlan (plan s) s) ∨
    (operandFault need s = none ∧ refusedAddrs s.hw (plan s) ≠ [] ∧ t = accessFault (encode i) (plan s) s) := by
  unfold runMemory at h
  split at h
  · next k hk => exact .inl ⟨k, hk, (Host.Outcome.next.inj h).symm⟩
  · next hk =>
    split at h
    · next hb => exact .inr (.inl ⟨hk, hb, (Host.Outcome.next.inj h).symm⟩)
    · next hb => exact .inr (.inr ⟨hk, hb, (Host.Outcome.next.inj h).symm⟩)

/-- A command always ends in a next state: `IDLE` or `FAULT` (60_exceptions R143; 70_reset R178). -/
theorem exec_next (i : Instr) (s : State) : ∃ t, exec i s = .next t := by
  rcases primitive_or_memory i with ⟨f, hf, -⟩ | ⟨need, plan, hp, -⟩
  · rw [exec_of_primitiveFn hf, runPrimitive]
    split
    · exact ⟨_, rfl⟩
    · split <;> exact ⟨_, rfl⟩
  · rw [exec_of_memoryPlan hp, runMemory]
    split
    · exact ⟨_, rfl⟩
    · split <;> exact ⟨_, rfl⟩

/-! ### The checks -/

theorem widthLegal_iff {s : State} : widthLegal s = true ↔ s.width = 4 ∨ s.width = 8 := by
  simp [widthLegal]

/-- The checks pass exactly when the width is legal, the regions and `IDX` are in range and the regions are disjoint. -/
theorem operandFault_none_iff {need : IndexNeed} {s : State} : operandFault need s = none ↔
    widthLegal s = true ∧ regionsFit s = true ∧ indexLegal need s = true ∧ regionsOverlap s = false := by
  unfold operandFault
  cases widthLegal s <;> cases regionsFit s <;> cases indexLegal need s <;> cases regionsOverlap s <;> simp

/-- No check of a memory command reports `IllegalCmd` or `AccessFault`. -/
theorem operandFault_code {need : IndexNeed} {s : State} {k : UnitFault} (h : operandFault need s = some k) :
    k = .badConfig ∨ k = .rangeFault ∨ k = .aliasFault := by
  unfold operandFault at h
  split at h
  · exact .inl (Option.some.inj h).symm
  · split at h
    · exact .inr (.inl (Option.some.inj h).symm)
    · split at h
      · exact .inr (.inr (Option.some.inj h).symm)
      · simp at h

/-! ### The shape of the lane registers -/

/-- Every primitive keeps 8 registers of `L` bytes. -/
theorem primitiveFn_lanes {i : Instr} {f : LaneLen → Nat → List Lane → List Lane} (h : primitiveFn i = some f)
    {l : LaneLen} (hl : i.legalFor l = true) {size : Nat} (hsize : size = 4 ∨ size = 8) {v : List Lane}
    (hlen : v.length = numLanes) (hv : ∀ w ∈ v, w.length = l.bytes) :
    (f l size v).length = numLanes ∧ ∀ w ∈ f l size v, w.length = l.bytes := by
  have hs : size ≤ v.length := by rw [hlen]; rcases hsize with rfl | rfl <;> decide
  have he : 2 * (size / 2) = size := by omega
  have pairs : ∀ (p : Pairing) (x y : Lane → Lane → Lane),
      (∀ a b : Lane, a.length = l.bytes → b.length = l.bytes → (x a b).length = l.bytes) →
      (∀ a b : Lane, a.length = l.bytes → b.length = l.bytes → (y a b).length = l.bytes) →
      (pairwise p x y size v).length = numLanes ∧ ∀ w ∈ pairwise p x y size v, w.length = l.bytes :=
    fun p x y hx hy => ⟨by rw [pairwise_length he hs, hlen], pairwise_lengths hs hv hx hy⟩
  have unpk : ∀ (p : Pairing) (g : Nat), Granule g →
      (interleave p g l size v).length = numLanes ∧ ∀ w ∈ interleave p g l size v, w.length = l.bytes :=
    fun p g hg => pairs p _ _ (fun _ _ ha hb => lo_length hg ha hb) (fun _ _ ha hb => hi_length hg ha hb)
  cases i <;> simp only [primitiveFn, Option.some.injEq, reduceCtorEq] at h <;> subst h
  case unpk8Next | unpk16Next | unpk32Next | unpk64Next => exact unpk .next _ (by simp [Granule])
  case unpk8Skip | unpk16Skip | unpk32Skip | unpk64Skip => exact unpk .skip _ (by simp [Granule])
  all_goals
    obtain rfl : l = .l32 := by cases l <;> simp_all [Instr.legalFor, Instr.cls]
  case perm128Next =>
    exact pairs .next _ _ (fun _ _ ha hb => gatherLow_length ha hb) (fun _ _ ha hb => gatherHigh_length ha hb)
  case perm128Skip =>
    exact pairs .skip _ _ (fun _ _ ha hb => gatherLow_length ha hb) (fun _ _ ha hb => gatherHigh_length ha hb)
  case shufqSelf =>
    refine ⟨by simp only [shufq, List.length_append, List.length_map, List.length_take, List.length_drop]; omega, ?_⟩
    intro w hw
    rcases List.mem_append.mp hw with hw | hw
    · obtain ⟨u, hu, rfl⟩ := List.mem_map.mp hw
      exact swapMiddle_length (hv u (List.mem_of_mem_take hu))
    · exact hv w (List.mem_of_mem_drop hw)

/-- What a plan loads is registers of the unit's length, at most 8 of them. -/
def LaneEffect.fits (e : LaneEffect) (hw : Hardware) : Prop :=
  match e with
  | .keep => True
  | .load vs => vs.length ≤ numLanes ∧ ∀ v ∈ vs, v.length = hw.lane.bytes
  | .free => True

/-- A command that ends keeps 8 registers of `L` bytes. -/
theorem LaneEffect.done_lanes {e : LaneEffect} {hw : Hardware} (he : e.fits hw) (c : Nat) {v : List Lane}
    (hlen : v.length = numLanes) (hv : ∀ w ∈ v, w.length = hw.lane.bytes) :
    (e.done hw c v).length = numLanes ∧ ∀ w ∈ e.done hw c v, w.length = hw.lane.bytes := by
  cases e with
  | keep => exact ⟨hlen, hv⟩
  | load vs =>
    refine ⟨by simp only [LaneEffect.done, List.length_append, List.length_drop]; have := he.1; omega, ?_⟩
    intro w hw'
    rcases List.mem_append.mp hw' with h | h
    · exact he.2 w h
    · exact hv w (List.mem_of_mem_drop h)
  | free => exact ⟨by rw [LaneEffect.done, scrambleLanes_length hlen.ge, hlen], scrambleLanes_lengths hv⟩

/-- A command cut short keeps 8 registers of `L` bytes. -/
theorem LaneEffect.cut_lanes {e : LaneEffect} {hw : Hardware} (he : e.fits hw) (c : Nat) {v : List Lane}
    (hlen : v.length = numLanes) (hv : ∀ w ∈ v, w.length = hw.lane.bytes) :
    (e.cut hw c v).length = numLanes ∧ ∀ w ∈ e.cut hw c v, w.length = hw.lane.bytes := by
  cases e with
  | keep => exact ⟨hlen, hv⟩
  | load vs =>
    exact ⟨by rw [LaneEffect.cut, scrambleLanes_length (he.1.trans hlen.ge), hlen], scrambleLanes_lengths hv⟩
  | free => exact ⟨by rw [LaneEffect.cut, scrambleLanes_length hlen.ge, hlen], scrambleLanes_lengths hv⟩

/-- A stopped command that does not leave its lane registers unspecified takes the fault and changes nothing else. -/
theorem checkFault_eq_takeFault {k : UnitFault} {w : Byte} {p : Plan} {s : State} (h : p.lanes ≠ .free) :
    checkFault k w p s = takeFault k w 0 s := by
  unfold checkFault stopLanes
  split
  · rfl
  · rfl
  · next hf => exact absurd hf h

/-- A stopped command takes the fault and changes at most the lane registers and the draw they take. -/
theorem checkFault_eq (k : UnitFault) (w : Byte) (p : Plan) (s : State) : checkFault k w p s =
    { takeFault k w 0 s with lanes := (checkFault k w p s).lanes, freeCtr := (checkFault k w p s).freeCtr } := by
  unfold checkFault stopLanes
  split <;> rfl

/-- A stopped command keeps 8 registers of `L` bytes. -/
theorem checkFault_lanes {k : UnitFault} {w : Byte} {p : Plan} {s : State} (hlen : s.lanes.length = numLanes)
    (hv : ∀ v ∈ s.lanes, v.length = s.hw.lane.bytes) :
    (checkFault k w p s).lanes.length = numLanes ∧ ∀ v ∈ (checkFault k w p s).lanes, v.length = s.hw.lane.bytes := by
  unfold checkFault stopLanes
  split
  · exact ⟨hlen, hv⟩
  · exact ⟨hlen, hv⟩
  · exact ⟨by rw [takeFault_lanes, scrambleLanes_length hlen.ge, hlen], scrambleLanes_lengths hv⟩

/-- Only `ENC` and `DEC` leave the lane registers unspecified when they end (42_codec R128). -/
theorem memoryPlan_free {i : Instr} {need : IndexNeed} {plan : State → Plan} (hp : memoryPlan i = some (need, plan))
    (s : State) : (plan s).lanes = .free ↔ i = .enc ∨ i = .dec := by
  cases i <;> simp only [memoryPlan, Option.some.injEq, reduceCtorEq, Prod.mk.injEq] at hp <;>
    obtain ⟨-, rfl⟩ := hp <;>
    simp [ldePlan, stpPlan, ldpPlan, stePlan, scePlan, scdPlan, encPlan, decPlan, loadPlan, storePlan, copyPlan, codecPlan]

theorem loadPlan_fits {at_ : Nat → Nat} {s : State} (h : widthLegal s = true) : (loadPlan at_ s).lanes.fits s.hw := by
  have := widthLegal_iff.mp h
  refine ⟨by simp only [List.length_map, List.length_range, State.size, numLanes]; omega, ?_⟩
  intro v hv
  obtain ⟨r, -, rfl⟩ := List.mem_map.mp hv
  simp [State.laneBytes]

/-- What a memory command that passes its checks does to the lane registers fits them. -/
theorem memoryPlan_fits {i : Instr} {need : IndexNeed} {plan : State → Plan} (hp : memoryPlan i = some (need, plan))
    {s : State} (h : widthLegal s = true) : (plan s).lanes.fits s.hw := by
  cases i <;> simp only [memoryPlan, Option.some.injEq, reduceCtorEq, Prod.mk.injEq] at hp <;>
    obtain ⟨-, rfl⟩ := hp
  case lde | ldp => exact loadPlan_fits h
  all_goals exact trivial

end Sys2Proof.Machine
end

