-- ==== Sys2Proof/Laws/Step.lean ====
section
/-! SUPPORT. What one step, one host event and one reset can do, said once. -/

namespace Sys2Proof.Machine

/-- The step takes the next event, or gives the unit its turn when none is left. -/
theorem step_cons {s : State} {e : HostEvent} {rest : List HostEvent} (h : s.host = e :: rest) :
    step s = takeEvent e { s with host := rest } := by
  simp [step, h]

theorem step_nil {s : State} (h : s.host = []) : step s = unitTurn s := by
  simp [step, h]

theorem unitTurn_busy {s : State} {w : Byte} (h : s.seq = .busy w) (hr : memoryBusy s = false ∨ s.raced = []) :
    unitTurn s = runWord w s := by
  rcases hr with hr | hr <;> simp [unitTurn, h, hr]

theorem unitTurn_raced {s : State} {w : Byte} (h : s.seq = .busy w) (hb : memoryBusy s = true) (hr : s.raced ≠ []) :
    unitTurn s = runRaced w s := by
  simp [unitTurn, h, hb, hr]

theorem unitTurn_idle {s : State} (h : s.seq = .idle) : unitTurn s = .next s := by
  simp [unitTurn, h]

theorem unitTurn_fault {s : State} (h : s.seq = .fault) : unitTurn s = .next s := by
  simp [unitTurn, h]

theorem runWord_next (w : Byte) (s : State) : ∃ t, runWord w s = .next t := by
  unfold runWord
  split
  · exact exec_next _ _
  · exact ⟨_, rfl⟩

/-- The unit's turn always ends in a next state (70_reset R178). -/
theorem unitTurn_next (s : State) : ∃ t, unitTurn s = .next t := by
  unfold unitTurn
  split
  · next w _ =>
    split
    · obtain ⟨u, hu⟩ := runWord_next w (raceView s)
      exact ⟨settleRaces s u, by simp [runRaced, hu]⟩
    · exact runWord_next w s
  · exact ⟨s, rfl⟩
  · exact ⟨s, rfl⟩

/-- The host writes memory only inside the address space; a write that races a running command is remembered. -/
theorem hostPoke_next {addr : Nat} {b : Byte} {s t : State} (h : hostPoke addr b s = .next t) :
    addr < s.hw.top ∧ ∃ r, t = { s with mem := s.mem.write addr b, raced := r } ∧
      (r = s.raced ∨ (memoryBusy s = true ∧ r = (addr, s.mem.read addr) :: s.raced)) := by
  unfold hostPoke at h
  split at h
  · simp at h
  · next ha =>
    split at h
    · next hr =>
      exact ⟨by omega, _, (Host.Outcome.next.inj h).symm, .inr ⟨by simp_all, rfl⟩⟩
    · exact ⟨by omega, _, (Host.Outcome.next.inj h).symm, .inl rfl⟩

/-- The host reads memory only inside the address space, and changes nothing but what it has seen and the draw. -/
theorem hostPeek_next {addr : Nat} {s t : State} (h : hostPeek addr s = .next t) :
    addr < s.hw.top ∧ ∃ n c, t = { s with seen := s.seen ++ [n], freeCtr := c } := by
  unfold hostPeek at h
  split at h
  · simp at h
  · next ha =>
    split at h <;> exact ⟨by omega, _, _, (Host.Outcome.next.inj h).symm⟩

/-- What one step can do. -/
theorem step_cases {s t : State} (h : step s = .next t) :
    (s.host = [] ∧ unitTurn s = .next t) ∨
    ∃ e rest, s.host = e :: rest ∧ takeEvent e { s with host := rest } = .next t := by
  cases hh : s.host with
  | nil => exact .inl ⟨rfl, by rwa [step_nil hh] at h⟩
  | cons e rest => exact .inr ⟨e, rest, rfl, by rwa [step_cons hh] at h⟩

/-! ### A word placed where the next step takes it -/

/-- The step after `withFetchWord` runs exactly the word placed. -/
theorem step_withFetchWord (s : State) (nbits w : Nat) :
    step (s.withFetchWord nbits w) = runWord (commandWord w) { s with seq := .busy (commandWord w), raced := [] } := by
  rw [step_cons (s := s.withFetchWord nbits w) rfl]
  exact unitTurn_busy (s := { s with seq := .busy (commandWord w), raced := [] }) rfl (.inr rfl)

/-! ### The hardware reset -/

@[simp] theorem hardReset_hw (s : State) : (hardReset s).hw = s.hw := rfl
@[simp] theorem hardReset_mem (s : State) :
    (hardReset s).mem = cutMemory s.hw s.freeCtr (pendingWrites (raceView s)) s.mem := rfl
@[simp] theorem hardReset_lanes (s : State) :
    (hardReset s).lanes = scrambleLanes s.hw s.freeCtr numLanes s.lanes := rfl
@[simp] theorem hardReset_host (s : State) : (hardReset s).host = s.host := rfl
@[simp] theorem hardReset_seen (s : State) : (hardReset s).seen = s.seen := rfl
@[simp] theorem hardReset_raced (s : State) : (hardReset s).raced = [] := rfl

/-- With nothing running, a hardware reset leaves memory alone. -/
theorem hardReset_mem_not_busy {s : State} (h : ∀ w, s.seq ≠ .busy w) : (hardReset s).mem = s.mem := by
  have : pendingWrites (raceView s) = [] := by
    unfold pendingWrites
    split
    · next w hw => exact absurd hw (h w)
    · rfl
    · rfl
  simp [this, cutMemory]

end Sys2Proof.Machine
end

