-- ==== Sys2Proof/Laws/Accesses.lean ====
section
/-! SUPPORT. The checks and accesses of the memory commands are those of the rules, and what follows for how they end. -/

namespace Sys2Proof.Machine

/-- The range check is 60_exceptions R144 as written. -/
theorem regionsFit_iff {s : State} : regionsFit s = true ↔
    s.src + s.nelem * s.width ≤ 2 ^ s.hw.alen ∧ s.dst + s.nelem * s.width ≤ 2 ^ s.hw.alen := by
  simp only [regionsFit, Bool.and_eq_true, decide_eq_true_eq]
  rfl

/-- The overlap check is 60_exceptions R145 as written. -/
theorem regionsOverlap_iff {s : State} : regionsOverlap s = true ↔ overlap s := by
  simp only [regionsOverlap, Bool.and_eq_true, decide_eq_true_eq, and_assoc]
  rfl

/-- The `IDX` check is 60_exceptions R144 as written. -/
theorem indexLegal_iff {i need plan} (hp : memoryPlan i = some (need, plan)) {s : State} :
    indexLegal need s = true ↔ indexOk i s := by
  cases i <;> simp only [memoryPlan, Option.some.injEq, reduceCtorEq, Prod.mk.injEq] at hp <;>
    obtain ⟨rfl, rfl⟩ := hp <;> simp only [indexLegal, decide_eq_true_eq] <;> simp [indexOk, State.block]

/-- No operand fault exactly when the rules' conditions hold. -/
theorem checksPass_iff {i need plan} (hp : memoryPlan i = some (need, plan)) (s : State) :
    checksPass i s ↔ operandFault need s = none := by
  rw [operandFault_none_iff, widthLegal_iff, regionsFit_iff, indexLegal_iff hp, ← Bool.not_eq_true,
    regionsOverlap_iff]
  unfold checksPass rangeOk widthOk
  tauto

/-- The plan reads exactly the bytes the command's rule says it reads. -/
theorem readsByte_iff {i need plan} (hp : memoryPlan i = some (need, plan)) (s : State) (a : Nat) :
    readsByte i s a ↔ a ∈ (plan s).reads := by
  cases i <;> simp only [memoryPlan, Option.some.injEq, reduceCtorEq, Prod.mk.injEq] at hp <;>
    obtain ⟨rfl, rfl⟩ := hp <;>
    simp only [readsByte, ldePlan, stpPlan, ldpPlan, stePlan, scePlan, scdPlan, encPlan, decPlan, loadPlan, storePlan,
      copyPlan, codecPlan, List.mem_flatMap, List.mem_map, List.mem_range, addrsFrom, State.size, State.blockElemAddr,
      State.blockPlaneAddr, elemAddr, planeAddr, List.not_mem_nil, Nat.add_zero]
  case lde | ldp =>
    constructor
    · rintro ⟨r, hr, j, hj, rfl⟩; exact ⟨r, hr, j, hj, rfl⟩
    · rintro ⟨r, hr, j, hj, rfl⟩; exact ⟨r, hr, j, hj, rfl⟩
  case sce | scd =>
    constructor
    · rintro ⟨k, hk, rfl⟩; exact ⟨k, hk, rfl⟩
    · rintro ⟨k, hk, rfl⟩; exact ⟨k, hk, rfl⟩
  case enc | dec =>
    constructor
    · rintro ⟨e, he, k, hk, rfl⟩; exact ⟨k, hk, e, he, rfl⟩
    · rintro ⟨k, hk, e, he, rfl⟩; exact ⟨e, he, k, hk, rfl⟩

/-- The plan writes exactly the bytes the command's rule says it writes. -/
theorem storesByte_iff {i need plan} (hp : memoryPlan i = some (need, plan)) (s : State) (a : Nat) (b : Byte) :
    storesByte i s a b ↔ (a, b) ∈ (plan s).writes := by
  cases i <;> simp only [memoryPlan, Option.some.injEq, reduceCtorEq, Prod.mk.injEq] at hp <;>
    obtain ⟨rfl, rfl⟩ := hp <;>
    simp only [storesByte, ldePlan, stpPlan, ldpPlan, stePlan, scePlan, scdPlan, encPlan, decPlan, loadPlan, storePlan,
      copyPlan, codecPlan, List.mem_flatMap, List.mem_map, List.mem_range, mem_bytesAt, State.size, State.blockElemAddr,
      State.blockPlaneAddr, elemAddr, planeAddr, List.not_mem_nil, Nat.add_zero, Prod.mk.injEq, State.laneByte]
  case sce | scd =>
    constructor
    · rintro ⟨k, hk, rfl, rfl⟩; exact ⟨k, hk, rfl, rfl⟩
    · rintro ⟨k, hk, rfl, rfl⟩; exact ⟨k, hk, rfl, rfl⟩
  case enc | dec =>
    constructor
    · rintro ⟨e, he, k, hk, rfl, rfl⟩; exact ⟨k, hk, e, he, rfl, rfl⟩
    · rintro ⟨k, hk, e, he, rfl, rfl⟩; exact ⟨e, he, k, hk, rfl, rfl⟩

/-- The addresses a plan writes. -/
theorem stores_exists_iff {i need plan} (hp : memoryPlan i = some (need, plan)) (s : State) (a : Nat) :
    (∃ b, storesByte i s a b) ↔ a ∈ (plan s).writes.map Prod.fst := by
  simp [storesByte_iff hp]

/-- The refused addresses of a plan are those of the rule. -/
theorem refusedByte_iff {i need plan} (hp : memoryPlan i = some (need, plan)) (s : State) (a : Nat) :
    refusedByte i s a ↔ a ∈ refusedAddrs s.hw (plan s) := by
  rw [mem_refusedAddrs, refusedByte, readsByte_iff hp, stores_exists_iff hp]

/-- Quotient and remainder by `w` are unique. -/
theorem mul_add_inj {w a b c d : Nat} (hb : b < w) (hd : d < w) (h : a * w + b = c * w + d) : a = c ∧ b = d := by
  have hw : 0 < w := by omega
  have h1 : (a * w + b) / w = a := by
    rw [Nat.mul_comm, Nat.mul_add_div hw, Nat.div_eq_of_lt hb]; omega
  have h2 : (c * w + d) / w = c := by
    rw [Nat.mul_comm, Nat.mul_add_div hw, Nat.div_eq_of_lt hd]; omega
  have : a = c := by rw [← h1, ← h2, h]
  subst this
  exact ⟨rfl, by omega⟩

/-- A command that passes its checks writes only the destination region. -/
theorem stores_bound {i : Instr} {s : State} (h : checksPass i s) {a b} (hs : storesByte i s a b) :
    s.dst ≤ a ∧ a < s.dst + s.nelem * s.width := by
  obtain ⟨hw, ⟨h1, h2, h3⟩, h4⟩ := h
  cases i <;> simp only [storesByte, indexOk] at hs h3
  case stp =>
    obtain ⟨k, hk, j, hj, rfl, -⟩ := hs
    have : (k + 1) * s.nelem ≤ s.width * s.nelem := Nat.mul_le_mul_right _ hk
    rw [Nat.mul_comm s.nelem]
    rw [Nat.add_mul] at this; omega
  case ste =>
    obtain ⟨k, hk, j, hj, rfl, -⟩ := hs
    have : (k + 1) * s.laneBytes ≤ s.width * s.laneBytes := Nat.mul_le_mul_right _ hk
    have h5 : (s.idx + s.laneBytes) * s.width ≤ s.nelem * s.width := Nat.mul_le_mul_right _ h3
    rw [Nat.add_mul] at this h5
    rw [Nat.mul_comm s.laneBytes] at h5
    omega
  case sce =>
    obtain ⟨k, hk, rfl, -⟩ := hs
    have : (k + 1) * s.nelem ≤ s.width * s.nelem := Nat.mul_le_mul_right _ hk
    rw [Nat.mul_comm s.nelem]
    rw [Nat.add_mul] at this; omega
  case scd =>
    obtain ⟨k, hk, rfl, -⟩ := hs
    have : (s.idx + 1) * s.width ≤ s.nelem * s.width := Nat.mul_le_mul_right _ h3
    rw [Nat.add_mul] at this; omega
  case enc =>
    obtain ⟨e, he, k, hk, rfl, -⟩ := hs
    have : (k + 1) * s.nelem ≤ s.width * s.nelem := Nat.mul_le_mul_right _ hk
    rw [Nat.mul_comm s.nelem]
    rw [Nat.add_mul] at this; omega
  case dec =>
    obtain ⟨e, he, k, hk, rfl, -⟩ := hs
    have : (e + 1) * s.width ≤ s.nelem * s.width := Nat.mul_le_mul_right _ he
    rw [Nat.add_mul] at this; omega

/-- A command that passes its checks reads only the source region. -/
theorem reads_bound {i : Instr} {s : State} (h : checksPass i s) {a} (hs : readsByte i s a) :
    s.src ≤ a ∧ a < s.src + s.nelem * s.width := by
  obtain ⟨hw, ⟨h1, h2, h3⟩, h4⟩ := h
  cases i <;> simp only [readsByte, indexOk] at hs h3
  case ldp =>
    obtain ⟨k, hk, j, hj, rfl⟩ := hs
    have : (k + 1) * s.nelem ≤ s.width * s.nelem := Nat.mul_le_mul_right _ hk
    rw [Nat.mul_comm s.nelem]
    rw [Nat.add_mul] at this; omega
  case lde =>
    obtain ⟨k, hk, j, hj, rfl⟩ := hs
    have : (k + 1) * s.laneBytes ≤ s.width * s.laneBytes := Nat.mul_le_mul_right _ hk
    have h5 : (s.idx + s.laneBytes) * s.width ≤ s.nelem * s.width := Nat.mul_le_mul_right _ h3
    rw [Nat.add_mul] at this h5
    rw [Nat.mul_comm s.laneBytes] at h5
    omega
  case scd =>
    obtain ⟨k, hk, rfl⟩ := hs
    have : (k + 1) * s.nelem ≤ s.width * s.nelem := Nat.mul_le_mul_right _ hk
    rw [Nat.mul_comm s.nelem]
    rw [Nat.add_mul] at this; omega
  case sce =>
    obtain ⟨k, hk, rfl⟩ := hs
    have : (s.idx + 1) * s.width ≤ s.nelem * s.width := Nat.mul_le_mul_right _ h3
    rw [Nat.add_mul] at this; omega
  case dec =>
    obtain ⟨e, he, k, hk, rfl⟩ := hs
    have : (k + 1) * s.nelem ≤ s.width * s.nelem := Nat.mul_le_mul_right _ hk
    rw [Nat.mul_comm s.nelem]
    rw [Nat.add_mul] at this; omega
  case enc =>
    obtain ⟨e, he, k, hk, rfl⟩ := hs
    have : (e + 1) * s.width ≤ s.nelem * s.width := Nat.mul_le_mul_right _ he
    rw [Nat.add_mul] at this; omega

/-- A concatenation of pieces without repeats that do not meet has no repeats. -/
theorem flatMap_nodup {α} (f : Nat → List α) (n : Nat) (h1 : ∀ k < n, (f k).Nodup)
    (h2 : ∀ k < n, ∀ l < n, ∀ x, x ∈ f k → x ∈ f l → k = l) : ((List.range n).flatMap f).Nodup := by
  rw [List.nodup_flatMap]
  refine ⟨fun k hk => h1 k (List.mem_range.mp hk), ?_⟩
  have : (List.range n).Pairwise fun a b => a ≠ b := List.nodup_range
  refine this.imp_of_mem fun {a b} ha hb hne => ?_
  intro x hx hy
  exact hne (h2 a (List.mem_range.mp ha) b (List.mem_range.mp hb) x hx hy)

/-- The image of a range under an injective map has no repeats. -/
theorem map_range_nodup {α} (f : Nat → α) (n : Nat) (h : ∀ a < n, ∀ b < n, f a = f b → a = b) :
    ((List.range n).map f).Nodup := by
  rw [List.nodup_map_iff_inj_on List.nodup_range]
  intro a ha b hb; exact h a (List.mem_range.mp ha) b (List.mem_range.mp hb)

/-- A command that passes its checks writes each byte at most once. -/
theorem writes_nodup {i need plan} (hp : memoryPlan i = some (need, plan)) {s : State} (h : checksPass i s) :
    ((plan s).writes.map Prod.fst).Nodup := by
  obtain ⟨hw, ⟨h1, h2, h3⟩, h4⟩ := h
  cases i <;> simp only [memoryPlan, Option.some.injEq, reduceCtorEq, Prod.mk.injEq] at hp <;>
    obtain ⟨rfl, rfl⟩ := hp <;>
    simp only [ldePlan, stpPlan, ldpPlan, stePlan, scePlan, scdPlan, encPlan, decPlan, loadPlan, storePlan,
      copyPlan, codecPlan, indexOk, List.map_flatMap, List.map_map, bytesAt, List.map_nil, List.nodup_nil,
      State.blockElemAddr, State.blockPlaneAddr, elemAddr, planeAddr, State.size] at h3 ⊢
  case stp =>
    refine flatMap_nodup _ _ (fun k hk => map_range_nodup _ _ (by simp)) ?_
    intro k hk l hl x hx hy
    simp only [List.mem_map, List.mem_range, Function.comp] at hx hy
    obtain ⟨j, hj, rfl⟩ := hx
    obtain ⟨j', hj', e⟩ := hy
    exact (mul_add_inj (w := s.nelem) (a := k) (b := s.idx + j) (c := l) (d := s.idx + j')
      (by omega) (by omega) (by omega)).1
  case ste =>
    refine flatMap_nodup _ _ (fun k hk => map_range_nodup _ _ (by simp)) ?_
    intro k hk l hl x hx hy
    simp only [List.mem_map, List.mem_range, Function.comp] at hx hy
    obtain ⟨j, hj, rfl⟩ := hx
    obtain ⟨j', hj', e⟩ := hy
    exact (mul_add_inj hj hj' (by omega : k * s.laneBytes + j = l * s.laneBytes + j')).1
  case sce =>
    refine map_range_nodup _ _ ?_
    intro k hk l hl e
    simp only [Function.comp] at e
    exact (mul_add_inj h3 h3 (by omega : k * s.nelem + s.idx = l * s.nelem + s.idx)).1
  case scd => exact map_range_nodup _ _ (by simp)
  case enc =>
    refine flatMap_nodup _ _ (fun k hk => map_range_nodup _ _ (by simp)) ?_
    intro k hk l hl x hx hy
    simp only [List.mem_map, List.mem_range, Function.comp] at hx hy
    obtain ⟨j, hj, rfl⟩ := hx
    obtain ⟨j', hj', e⟩ := hy
    exact (mul_add_inj hj hj' (by omega : k * s.nelem + j = l * s.nelem + j')).1
  case dec =>
    refine flatMap_nodup _ _ (fun k hk => map_range_nodup _ _ ?_) ?_
    · intro a ha b hb e
      simp only [Function.comp] at e
      exact (mul_add_inj hk hk (by omega : a * s.width + k = b * s.width + k)).1
    · intro k hk l hl x hx hy
      simp only [List.mem_map, List.mem_range, Function.comp] at hx hy
      obtain ⟨j, hj, rfl⟩ := hx
      obtain ⟨j', hj', e⟩ := hy
      exact (mul_add_inj hk hl (by omega : j * s.width + k = j' * s.width + l)).2

/-- A memory command that passes its checks and meets no refused address finishes its plan. -/
theorem exec_finish {i need plan} (hp : memoryPlan i = some (need, plan)) {s : State} (h : checksPass i s)
    (hr : ¬∃ a, refusedByte i s a) : exec i s = .next (finishPlan (plan s) s) := by
  rw [exec_of_memoryPlan hp, runMemory, (checksPass_iff hp s).mp h]
  have : refusedAddrs s.hw (plan s) = [] := by
    apply List.eq_nil_iff_forall_not_mem.mpr
    intro a ha
    exact hr ⟨a, (refusedByte_iff hp s a).mpr ha⟩
  simp [this]

/-- A byte the command writes has its new value after the command. -/
theorem finish_read {i need plan} (hp : memoryPlan i = some (need, plan)) {s : State} (h : checksPass i s)
    {a b} (hs : storesByte i s a b) : (finishPlan (plan s) s).mem.read a = b :=
  Memory.read_writeAll_mem _ _ _ _ (writes_nodup hp h) ((storesByte_iff hp s a b).mp hs)

/-- A byte the command does not write is as before. -/
theorem finish_read_other {i need plan} (hp : memoryPlan i = some (need, plan)) {s : State}
    {a} (hs : ¬∃ b, storesByte i s a b) : (finishPlan (plan s) s).mem.read a = s.mem.read a :=
  Memory.read_writeAll_other _ _ _ (fun hm => hs ((stores_exists_iff hp s a).mpr hm))

/-- A finished plan ends without fault and changes only lane registers, memory, `STATUS` and `CMDCNT`. -/
theorem finish_completed (p : Plan) (s : State) : completed s (finishPlan p s) :=
  ⟨rfl, rfl, ⟨rfl, rfl, rfl, rfl, rfl, rfl⟩, ⟨rfl, rfl, rfl, rfl⟩, ⟨rfl, rfl⟩⟩

/-- What a memory command can do, in the terms of the rules. -/
theorem exec_memory_cases {i need plan} (hp : memoryPlan i = some (need, plan)) {s t : State} (h : exec i s = .next t) :
    (∃ k, operandFault need s = some k ∧ t = checkFault k (encode i) (plan s) s) ∨
    (checksPass i s ∧ (¬∃ a, refusedByte i s a) ∧ t = finishPlan (plan s) s) ∨
    (checksPass i s ∧ (∃ a, refusedByte i s a) ∧ t = accessFault (encode i) (plan s) s) := by
  rw [exec_of_memoryPlan hp] at h
  rcases runMemory_cases h with h | ⟨h, h2, h3⟩ | ⟨h, h2, h3⟩
  · exact .inl h
  · refine .inr (.inl ⟨(checksPass_iff hp s).mpr h, ?_, h3⟩)
    rintro ⟨a, ha⟩
    rw [refusedByte_iff hp, h2] at ha
    simp at ha
  · refine .inr (.inr ⟨(checksPass_iff hp s).mpr h, ?_, h3⟩)
    obtain ⟨a, ha⟩ := List.exists_mem_of_ne_nil _ h2
    exact ⟨a, (refusedByte_iff hp s a).mpr ha⟩

/-- A memory command whose check fails is stopped by it. -/
theorem checkFault_stoppedBy {i need plan} (hp : memoryPlan i = some (need, plan)) (k : UnitFault) (s : State) :
    stoppedBy k.code i s (checkFault k (encode i) (plan s) s) := by
  refine ⟨checkFault_eq _ _ _ _, fun he hd => checkFault_eq_takeFault fun hf => ?_⟩
  rcases (memoryPlan_free hp s).mp hf with h | h
  · exact he h
  · exact hd h

/-- A memory command that passes its checks and meets a refused address ends in `AccessFault`. -/
theorem exec_access {i need plan} (hp : memoryPlan i = some (need, plan)) {s : State} (h : checksPass i s)
    (hr : ∃ a, refusedByte i s a) : exec i s = .next (accessFault (encode i) (plan s) s) := by
  rw [exec_of_memoryPlan hp, runMemory, (checksPass_iff hp s).mp h]
  have : refusedAddrs s.hw (plan s) ≠ [] := by
    obtain ⟨a, ha⟩ := hr
    rw [refusedByte_iff hp] at ha
    exact List.ne_nil_of_mem ha
  simp [this]

/-- Where the platform grants both regions no address is refused. -/
theorem no_refused_of_granted {i : Instr} {s : State} (h : checksPass i s) (hg : regionsGranted s) :
    ¬∃ a, refusedByte i s a := by
  rintro ⟨a, ⟨h1, h2⟩ | ⟨⟨b, h1⟩, h2⟩⟩
  · have := reads_bound h h1
    have := hg.1 (a - s.src) (by omega)
    rw [show s.src + (a - s.src) = a by omega, h2] at this
    simp at this
  · have := stores_bound h h1
    have := hg.2 (a - s.dst) (by omega)
    rw [show s.dst + (a - s.dst) = a by omega, h2] at this
    simp at this

/-- Every command keeps 8 lane registers of `L` bytes. -/
theorem exec_lanesWf {i : Instr} {s t : State} (hl : lanesWf s) (h : exec i s = .next t) : lanesWf t := by
  rcases primitive_or_memory i with ⟨f, hf, -⟩ | ⟨need, plan, hp, -⟩
  · rw [exec_of_primitiveFn hf] at h
    rcases runPrimitive_cases h with ⟨-, rfl⟩ | ⟨-, -, rfl⟩ | ⟨hle, hwd, rfl⟩
    · exact hl
    · exact hl
    · exact primitiveFn_lanes hf hle (widthLegal_iff.mp hwd) hl.1 hl.2
  · rcases exec_memory_cases hp h with ⟨k, hk, rfl⟩ | ⟨hck, -, rfl⟩ | ⟨hck, hre, rfl⟩
    · unfold lanesWf State.laneBytes
      rw [checkFault_hw]
      exact checkFault_lanes hl.1 hl.2
    · exact LaneEffect.done_lanes (memoryPlan_fits hp (widthLegal_iff.mpr hck.1)) _ hl.1 hl.2
    · exact LaneEffect.cut_lanes (memoryPlan_fits hp (widthLegal_iff.mpr hck.1)) _ hl.1 hl.2

end Sys2Proof.Machine
end

