-- ==== Sys2Proof/Laws/PerInstr.lean ====
section
/-! SUPPORT. Facts about every command as syntax, one lemma per constructor. -/

namespace Sys2Proof.Laws.EncodingFields

/-- The word of a command has `ZERO` = 0 and the class of the command in `CLS` (30_encoding R60, R61). -/
def Statement (i : Instr) : Prop := zeroField (encode i) = 0 ∧ clsField (encode i) = i.cls.bits

theorem unpk8Next : Statement .unpk8Next := by unfold Statement; decide
theorem unpk16Next : Statement .unpk16Next := by unfold Statement; decide
theorem unpk32Next : Statement .unpk32Next := by unfold Statement; decide
theorem unpk64Next : Statement .unpk64Next := by unfold Statement; decide
theorem unpk8Skip : Statement .unpk8Skip := by unfold Statement; decide
theorem unpk16Skip : Statement .unpk16Skip := by unfold Statement; decide
theorem unpk32Skip : Statement .unpk32Skip := by unfold Statement; decide
theorem unpk64Skip : Statement .unpk64Skip := by unfold Statement; decide
theorem perm128Next : Statement .perm128Next := by unfold Statement; decide
theorem perm128Skip : Statement .perm128Skip := by unfold Statement; decide
theorem shufqSelf : Statement .shufqSelf := by unfold Statement; decide
theorem lde : Statement .lde := by unfold Statement; decide
theorem stp : Statement .stp := by unfold Statement; decide
theorem ldp : Statement .ldp := by unfold Statement; decide
theorem ste : Statement .ste := by unfold Statement; decide
theorem sce : Statement .sce := by unfold Statement; decide
theorem scd : Statement .scd := by unfold Statement; decide
theorem enc : Statement .enc := by unfold Statement; decide
theorem dec : Statement .dec := by unfold Statement; decide

end Sys2Proof.Laws.EncodingFields
end

