-- ==== Sys2Proof/Laws/Races.lean ====
section
/-! SUPPORT. What a host that races a running command can bring about: the bytes the command may read, the writes that
stand, and the unit's turn with and without races (20_memory R53). -/

namespace Sys2Proof.Machine

/-! ### `raceView` and `settleRaces`, field by field -/

@[simp] theorem raceView_hw (s : State) : (raceView s).hw = s.hw := rfl
@[simp] theorem raceView_lanes (s : State) : (raceView s).lanes = s.lanes := rfl
@[simp] theorem raceView_seq (s : State) : (raceView s).seq = s.seq := rfl
@[simp] theorem raceView_host (s : State) : (raceView s).host = s.host := rfl
@[simp] theorem raceView_raced (s : State) : (raceView s).raced = s.raced := rfl
@[simp] theorem settleRaces_mem (s u : State) : (settleRaces s u).mem = s.mem.writeAll (raceWrites s u) := rfl
@[simp] theorem settleRaces_lanes (s u : State) : (settleRaces s u).lanes = u.lanes := rfl
@[simp] theorem settleRaces_seq (s u : State) : (settleRaces s u).seq = u.seq := rfl
@[simp] theorem settleRaces_raced (s u : State) : (settleRaces s u).raced = [] := rfl

/-! ### Free choices -/

/-- The byte picked is one of those offered. -/
theorem pickByte_mem {c a : Nat} {bs : List Byte} (h : bs ≠ []) : pickByte c a bs ∈ bs := by
  have hlt : Config.freePick c a % bs.length < bs.length := Nat.mod_lt _ (List.length_pos_iff.mpr h)
  simp [pickByte, List.getD, hlt]

theorem mem_heldBytes {s : State} {a : Nat} {b : Byte} : b ∈ heldBytes s a ↔ b = s.mem.read a ∨ (a, b) ∈ s.raced := by
  simp [heldBytes]

/-- The command reads old or new bytes. -/
theorem raceView_raceMemory (s : State) : raceMemory s (raceView s).mem := by
  intro a
  rcases Memory.read_writeAll_cases (s.raced.map fun e => (e.1, pickByte s.freeCtr e.1 (heldBytes s e.1))) s.mem a with h | h
  · exact .inl h
  · obtain ⟨e, -, he⟩ := List.mem_map.mp h
    obtain ⟨rfl, he⟩ := Prod.mk.inj he
    have := pickByte_mem (c := s.freeCtr) (a := e.1) (bs := heldBytes s e.1) (by simp [heldBytes])
    rw [he] at this
    exact mem_heldBytes.mp this

theorem raceMemory_self (s : State) : raceMemory s s.mem := fun _ => .inl rfl

/-- A racing read returns a byte the address has held, or one the running command writes there. -/
theorem racingRead_cases (s : State) (a : Nat) :
    racingRead s a = s.mem.read a ∨ (a, racingRead s a) ∈ s.raced ∨ (a, racingRead s a) ∈ pendingWrites (raceView s) := by
  have := pickByte_mem (c := s.freeCtr) (a := a)
    (bs := heldBytes s a ++ ((pendingWrites (raceView s)).filter fun w => w.1 == a).map Prod.snd) (by simp [heldBytes])
  change racingRead s a ∈ _ at this
  rcases List.mem_append.mp this with h | h
  · exact (mem_heldBytes.mp h).imp_right .inl
  · obtain ⟨w, hw, e⟩ := List.mem_map.mp h
    obtain ⟨hm, h1⟩ := List.mem_filter.mp hw
    obtain rfl := eq_of_beq h1
    exact .inr (.inr (by rw [← e]; exact hm))

/-! ### The writes of a command -/

/-- What a command would write does not depend on the schedule, the host's results, the draw or the races. -/
theorem wouldWrite_outer (i : Instr) (s : State) (q : Sequencer) (ho : List HostEvent) (se : List Nat) (c : Nat)
    (r : List (Nat × Byte)) :
    wouldWrite i { s with seq := q, host := ho, seen := se, freeCtr := c, raced := r } = wouldWrite i s := by
  cases i <;> rfl

/-- What a command would write, it writes by its rule and with its checks passed. -/
theorem wouldWrite_stores {i : Instr} {s : State} {a : Nat} {b : Byte} (h : (a, b) ∈ wouldWrite i s) :
    checksPass i s ∧ storesByte i s a b := by
  unfold wouldWrite at h
  split at h
  · simp at h
  · next need plan hp =>
    split at h
    · next ho => exact ⟨(checksPass_iff hp s).mpr ho, (storesByte_iff hp s a b).mpr h⟩
    · simp at h

/-- Memory after a command: some of the writes it would make, over memory before. -/
theorem exec_mem {i : Instr} {s t : State} (h : exec i s = .next t) :
    ∃ ws, t.mem = s.mem.writeAll ws ∧ ∀ w ∈ ws, w ∈ wouldWrite i s := by
  rcases primitive_or_memory i with ⟨f, hf, -⟩ | ⟨need, plan, hp, -⟩
  · rw [exec_of_primitiveFn hf] at h
    rcases runPrimitive_cases h with ⟨-, rfl⟩ | ⟨-, -, rfl⟩ | ⟨-, -, rfl⟩ <;> exact ⟨[], rfl, by simp⟩
  · rcases exec_memory_cases hp h with ⟨k, -, rfl⟩ | ⟨hc, -, rfl⟩ | ⟨hc, -, rfl⟩
    · exact ⟨[], by simp, by simp⟩
    all_goals
      have e : wouldWrite i s = (plan s).writes := by simp [wouldWrite, hp, (checksPass_iff hp s).mp hc]
      rw [e]
    · exact ⟨_, rfl, fun _ h => h⟩
    · exact ⟨_, rfl, fun _ h => List.mem_of_mem_filter h⟩

/-- No command looks at or changes what has raced it. -/
theorem exec_raced {i : Instr} {s t : State} (h : exec i s = .next t) : t.raced = s.raced := by
  rcases primitive_or_memory i with ⟨f, hf, -⟩ | ⟨need, plan, hp, -⟩
  · rw [exec_of_primitiveFn hf] at h
    rcases runPrimitive_cases h with ⟨-, rfl⟩ | ⟨-, -, rfl⟩ | ⟨-, -, rfl⟩ <;> rfl
  · rcases exec_memory_cases hp h with ⟨k, -, rfl⟩ | ⟨-, -, rfl⟩ | ⟨-, -, rfl⟩ <;> simp

/-! ### The unit's turn -/

/-- The command `i` ran in the unit's turn from `s` to `t`: it read from a memory `m` of old or new bytes and ended in `u`;
some of its writes went to memory as the host has left it. -/
structure Ran (i : Instr) (s t : State) (m : Memory) (u : State) : Prop where
  reads : raceMemory s m
  ran : ∃ c, exec i { s with mem := m, freeCtr := c } = .next u
  ends : t = { u with mem := t.mem, raced := t.raced }
  writes : ∃ ws, t.mem = s.mem.writeAll ws ∧ ∀ w ∈ ws, w ∈ wouldWrite i { s with mem := m }
  raced : t.raced = [] ∨ (t.raced = s.raced ∧ i.isMemory = false)

theorem memoryBusy_eq {s : State} {w : Byte} {i : Instr} (h : s.seq = .busy w) (hd : decode w = some i) :
    memoryBusy s = i.isMemory := by simp [memoryBusy, h, hd]

theorem pendingWrites_eq {s : State} {w : Byte} {i : Instr} (h : s.seq = .busy w) (hd : decode w = some i) :
    pendingWrites s = wouldWrite i s := by simp [pendingWrites, h, hd]

/-- What a unit's turn can do: wait, run the command its word selects, or refuse the word. -/
theorem unitTurn_cases {s t : State} (h : unitTurn s = .next t) :
    (t = s ∧ (s.seq = .idle ∨ s.seq = .fault)) ∨
    (∃ w i m u, s.seq = .busy w ∧ decode w = some i ∧ Ran i s t m u) ∨
    (∃ w, s.seq = .busy w ∧ decode w = none ∧ t = takeFault .illegalCmd w 0 s) := by
  unfold unitTurn at h
  split at h
  · next w hw =>
    cases hd : decode w with
    | none =>
      have : memoryBusy s = false := by simp [memoryBusy, hw, hd]
      simp only [this, Bool.false_and, Bool.false_eq_true, if_false, runWord, hd] at h
      exact .inr (.inr ⟨w, hw, hd, (Host.Outcome.next.inj h).symm⟩)
    | some i =>
      refine .inr (.inl ?_)
      split at h
      · simp only [runRaced, runWord, hd] at h
        obtain ⟨u, hu⟩ := exec_next i (raceView s)
        rw [hu] at h
        obtain rfl := Host.Outcome.next.inj h
        refine ⟨w, i, (raceView s).mem, u, hw, hd, raceView_raceMemory s, ⟨_, hu⟩, rfl, ⟨_, rfl, ?_⟩, .inl rfl⟩
        intro x hx
        have := List.mem_of_mem_filter hx
        rw [pendingWrites_eq (s := raceView s) hw hd] at this
        have e := wouldWrite_outer i { s with mem := (raceView s).mem } s.seq s.host s.seen (s.freeCtr + 1) s.raced
        rw [← e]; exact this
      · next hr =>
        simp only [runWord, hd] at h
        obtain ⟨ws, h1, h2⟩ := exec_mem h
        refine ⟨w, i, s.mem, t, hw, hd, raceMemory_self s, ⟨s.freeCtr, h⟩, rfl, ⟨ws, h1, h2⟩, ?_⟩
        rw [exec_raced h]
        rw [memoryBusy_eq hw hd] at hr
        cases hm : i.isMemory
        · exact .inr ⟨rfl, rfl⟩
        · exact .inl (by simpa [hm] using hr)
  · next hs => exact .inl ⟨(Host.Outcome.next.inj h).symm, .inl hs⟩
  · next hs => exact .inl ⟨(Host.Outcome.next.inj h).symm, .inr hs⟩

end Sys2Proof.Machine
end

