-- ==== Sys2Proof/Laws/Runs.lean ====
section
/-! SUPPORT. What one step can do, case by case, and runs of a schedule built from runs of its pieces. -/

namespace Sys2Proof.Machine

/-- Everything a step that answers a next state can be. -/
inductive StepCase (s t : State) : Prop where
  | wait : unitsTurn s → (∀ w, s.seq ≠ .busy w) → t = { s with host := s.host.tail } → StepCase s t
  | run (w i m u) : unitsTurn s → s.seq = .busy w → decode w = some i →
      Ran i { s with host := s.host.tail } t m u → StepCase s t
  | illegal (w) : unitsTurn s → s.seq = .busy w → decode w = none →
      t = faultEntry 1 w { s with host := s.host.tail } → StepCase s t
  | write (p v rest) : s.host = .write p v :: rest → t = portWrite p v { s with host := rest } → StepCase s t
  | read (p rest) : s.host = .read p :: rest →
      t = { s with host := rest, seen := s.seen ++ [portRead p s] } → StepCase s t
  | hardReset (rest) : s.host = .hardReset :: rest → t = hardReset { s with host := rest } → StepCase s t
  | poke (a b rest) : s.host = .poke a b :: rest → a < s.hw.top →
      (∃ r, t = { s with host := rest, mem := s.mem.write a b, raced := r } ∧
        (r = s.raced ∨ (memoryBusy s = true ∧ r = (a, s.mem.read a) :: s.raced))) → StepCase s t
  | peek (a rest) : s.host = .peek a :: rest →
      (∃ n c, t = { s with host := rest, seen := s.seen ++ [n], freeCtr := c }) → StepCase s t

/-- A step is one of the cases. -/
theorem step_case {s t : State} (h : step s = .next t) : StepCase s t := by
  have turn : unitsTurn s → unitTurn { s with host := s.host.tail } = .next t → StepCase s t := by
    intro hu h
    rcases unitTurn_cases h with ⟨h1, h2⟩ | ⟨w, i, m, u, h1, h2, h3⟩ | ⟨w, h1, h2, h3⟩
    · exact .wait hu (by intro w hw; change s.seq = _ ∨ s.seq = _ at h2; simp [hw] at h2) h1
    · exact .run w i m u hu h1 h2 h3
    · exact .illegal w hu h1 h2 h3
  rcases step_cases h with ⟨h1, h2⟩ | ⟨e, rest, h1, h2⟩
  · refine turn (.inl h1) ?_
    have : ({ s with host := s.host.tail } : State) = s := by cases s; simp_all
    rw [this]; exact h2
  · cases e with
    | unit => refine turn (.inr ⟨rest, h1⟩) ?_; rw [h1]; exact h2
    | write p v => exact .write p v rest h1 (Host.Outcome.next.inj h2).symm
    | read p => exact .read p rest h1 (Host.Outcome.next.inj h2).symm
    | hardReset => exact .hardReset rest h1 (Host.Outcome.next.inj h2).symm
    | poke a b => obtain ⟨h3, h4⟩ := hostPoke_next h2; exact .poke a b rest h1 h3 h4
    | peek a => obtain ⟨h3, h4⟩ := hostPeek_next h2; exact .peek a rest h1 h4

/-- A step that takes a port write. -/
theorem step_write {s : State} {p v rest} (h : s.host = .write p v :: rest) :
    step s = .next (portWrite p v { s with host := rest }) := by rw [step_cons h]; rfl

/-- `RESET` is port 11 and no other (10_state R16). -/
theorem portReg_reset {p : Nat} : portReg p = .reset ↔ p = 11 := by
  unfold portReg; split <;> simp_all

/-- Ports from 12 on are reserved (10_state R29). -/
theorem portReg_reserved {p : Nat} (h : 12 ≤ p) : portReg p = .reserved := by
  unfold portReg; split <;> first | omega | rfl

/-- A command neither looks at nor changes the schedule, the host's results and what has raced it, and overwrites
`STATE`. -/
theorem exec_outer {i : Instr} {s t : State} (h : exec i s = .next t) (ho : List HostEvent) (se : List Nat) (q : Sequencer)
    (r : List (Nat × Byte)) :
    exec i { s with host := ho, seen := se, seq := q, raced := r } = .next { t with host := ho, seen := se, raced := r } := by
  rcases primitive_or_memory i with ⟨f, hf, -⟩ | ⟨need, plan, hp, -⟩
  · rw [exec_of_primitiveFn hf] at h ⊢
    unfold runPrimitive at *
    have e : widthLegal { s with host := ho, seen := se, seq := q, raced := r } = widthLegal s := rfl
    rw [e]
    simp only at *
    split at h
    · next x => cases h; rw [if_pos x]; rfl
    · next x =>
      rw [if_neg x]
      split at h
      · next y => cases h; rw [if_pos y]; rfl
      · next y => cases h; rw [if_neg y]; rfl
  · rw [exec_of_memoryPlan hp] at h ⊢
    have e : plan { s with host := ho, seen := se, seq := q, raced := r } = plan s := by
      cases i <;> simp only [memoryPlan, Option.some.injEq, reduceCtorEq, Prod.mk.injEq] at hp <;>
        obtain ⟨-, rfl⟩ := hp <;> rfl
    have e2 : operandFault need { s with host := ho, seen := se, seq := q, raced := r } = operandFault need s := by cases need <;> rfl
    unfold runMemory at *
    rw [e, e2]
    simp only at *
    split at h
    · next x => cases h; unfold checkFault stopLanes; cases (plan s).lanes <;> rfl
    · next x =>
      split at h
      · next y => cases h; rw [if_pos y]; rfl
      · next y => cases h; rw [if_neg y]; rfl

/-- A run of `m + n` steps is a run of `m` and then of `n`. -/
theorem run_add (m n : Nat) : ∀ {s t : State}, Host.Core.run Sys2Proof.core m s = .next t →
    Host.Core.run Sys2Proof.core (m + n) s = Host.Core.run Sys2Proof.core n t := by
  induction m with
  | zero => intro s t h; simp only [Host.Core.run] at h; cases h; simp
  | succ m ih =>
    intro s t h
    rw [show m + 1 + n = (m + n) + 1 by omega]
    simp only [Host.Core.run] at h ⊢
    split at h
    · exact ih h
    · simp at h
    · simp at h

/-- The events, at the head of any schedule, lead from `s` to `t`. -/
def Runs (es : List HostEvent) (s t : State) : Prop :=
  ∀ rest, Host.Core.run Sys2Proof.core es.length { s with host := es ++ rest } = .next { t with host := rest }

theorem Runs.append {a b : List HostEvent} {s t u : State} (h : Runs a s t) (g : Runs b t u) : Runs (a ++ b) s u := by
  intro rest
  rw [List.length_append, List.append_assoc, run_add _ _ (h (b ++ rest))]
  exact g rest

theorem Runs.nil (s : State) : Runs [] s s := fun _ => rfl

theorem Runs.one {e : HostEvent} {s t : State} (h : ∀ rest, takeEvent e { s with host := rest } = .next { t with host := rest }) : Runs [e] s t := by
  intro rest
  have : Sys2Proof.core.step { s with host := [e] ++ rest } = .next { t with host := rest } := h rest
  simp only [List.length_singleton, Host.Core.run, this]

/-- A loop of a script: an invariant kept by each piece holds after all of them. -/
theorem Runs.loop (f : Nat → List HostEvent) (P : Nat → State → Prop) (n : Nat)
    (h : ∀ b < n, ∀ s, P b s → ∃ t, Runs (f b) s t ∧ P (b + 1) t) : ∀ m ≤ n, ∀ s, P 0 s → ∃ t, Runs ((List.range m).flatMap f) s t ∧ P m t := by
  intro m
  induction m with
  | zero => intro _ s hs; exact ⟨s, Runs.nil s, hs⟩
  | succ m ih =>
    intro hm s hs
    obtain ⟨t, h1, h2⟩ := ih (by omega) s hs
    obtain ⟨u, h3, h4⟩ := h m (by omega) t h2
    refine ⟨u, ?_, h4⟩
    rw [List.range_succ, List.flatMap_append]
    simpa using h1.append h3

/-- A run of exactly the events of a schedule. -/
theorem Runs.all {es : List HostEvent} {s t : State} (h : Runs es s t) :
    Host.Core.run Sys2Proof.core es.length { s with host := es } = .next { t with host := [] } := by
  have := h []; rwa [List.append_nil] at this

end Sys2Proof.Machine
end

