-- ==== Sys2Proof/Tests/Slice0.lean ====
section
/-! SUPPORT. Tests against values printed in spec/ (the section is named in each comment), and for each statement with
hypotheses a state that meets them. -/

namespace Sys2Proof.Machine.Tests

/-! ### Small states -/

/-- Lane registers with `V[r][j] = L·r + j` (95_test_vectors sections 2.1, 2.2). -/
def ramp (l : LaneLen) : List Lane :=
  (List.range 8).map fun r => (List.range l.bytes).map fun j => BitVec.ofNat 8 (l.bytes * r + j)

/-- A reset unit of lane length `l` with `CFG.W = w` and those lane registers. -/
def rampUnit (l : LaneLen) (w : BitVec 4) : State :=
  { State.resetOf { Hardware.baseline with lane := l } with cfgW := w, lanes := ramp l }

/-- Memory whose byte at `a + o` is `o + 1` for `o < n`. -/
def countingMemory (a n : Nat) : Memory := (List.range n).map fun o => (a + o, BitVec.ofNat 8 (o + 1))

/-- A unit with both regions of `n` elements placed and the bytes 1, 2, .. in the source region. -/
def moveUnit (l : LaneLen) (w : BitVec 4) (n i : Nat) : State :=
  { rampUnit l w with
    nelem := n, src := 0x1000, dst := 0x2000, idx := i, mem := countingMemory 0x1000 (n * w.toNat) }

/-- The unit of 95_test_vectors 2.7 with the byte at 0x2013 not writable. -/
def guardedUnit : State :=
  { moveUnit .l16 4 5 0 with hw := { Hardware.baseline with noWrite := [{ first := 0x2013, count := 1 }] } }

/-- The state an outcome answers, the reset state where it answers none. -/
def after (o : Host.Outcome State Fault Refusal) : State :=
  match o with
  | .next t => t
  | .fault _ => State.reset
  | .refused _ => State.reset

/-- The outcome is a next state. -/
def goesOn (o : Host.Outcome State Fault Refusal) : Bool :=
  match o with
  | .next _ => true
  | .fault _ => false
  | .refused _ => false

/-- `STATUS`, `CAUSE`, `FADDR` and `CMDCNT` after the unit of lane length `l`, set up as `s`, is handed the word `w`. -/
def report (s : State) (w : Nat) : List Nat :=
  [6, 7, 8, 9].map fun p => portRead p (after (step (s.withFetchWord 8 w)))

theorem next_of_goesOn {o : Host.Outcome State Fault Refusal} (h : goesOn o = true) : o = .next (after o) := by
  cases o <;> simp_all [goesOn, after]

/-! ### The encoding, bit by bit (30_encoding R60 to R68; 95_test_vectors 2.8) -/

theorem test_decode_unpk : decode 0b00000000 = some .unpk8Next ∧ decode 0b00000001 = some .unpk16Next ∧
    decode 0b00000010 = some .unpk32Next ∧ decode 0b00000011 = some .unpk64Next ∧
    decode 0b00000100 = some .unpk8Skip ∧ decode 0b00000101 = some .unpk16Skip ∧
    decode 0b00000110 = some .unpk32Skip ∧ decode 0b00000111 = some .unpk64Skip := by decide

theorem test_decode_wide : decode 0b00001000 = some .perm128Next ∧ decode 0b00001001 = some .perm128Skip ∧
    decode 0b00001010 = some .shufqSelf := by decide

theorem test_decode_move : decode 0b00010000 = some .lde ∧ decode 0b00010001 = some .stp ∧
    decode 0b00010010 = some .ldp ∧ decode 0b00010011 = some .ste ∧ decode 0b00010100 = some .sce ∧
    decode 0b00010101 = some .scd := by decide

theorem test_decode_codec : decode 0b00011000 = some .enc ∧ decode 0b00011001 = some .dec := by decide

theorem test_decode_reserved : decode 0b00001011 = none ∧ decode 0b00001111 = none ∧ decode 0b00010110 = none ∧
    decode 0b00010111 = none ∧ decode 0b00011010 = none ∧ decode 0b00011111 = none ∧ decode 0b00100000 = none ∧
    decode 0b11111111 = none := by decide

/-- 95_test_vectors 2.8: 0x06 is `ZERO 000, CLS 00, P 1, G 10`; 0x15 is `CLS 10, FN 101`; 0x19 is `CLS 11, FN 001`. -/
theorem test_fields : zeroField 0x06 = 0 ∧ clsField 0x06 = 0b00 ∧ pField 0x06 = 1 ∧ gField 0x06 = 0b10 ∧
    clsField 0x15 = 0b10 ∧ fnField 0x15 = 0b101 ∧ clsField 0x19 = 0b11 ∧ fnField 0x19 = 0b001 := by decide

/-- 95_test_vectors 2.7: bits 31:8 of the value written to `CMD` are ignored. -/
theorem test_commandWord_ignores_high_bits : decode (commandWord 0x118) = some .enc := by decide

theorem test_table_word : decodeTableWord 8 0x0A = some .shufqSelf ∧ decodeTableWord 8 0x0B = none := by decide

/-! ### WellFormed: what its checks refuse -/

theorem test_wide_refused_at_16 : Instr.perm128Next.legalFor .l16 = false ∧ Instr.perm128Skip.legalFor .l16 = false ∧
    Instr.shufqSelf.legalFor .l16 = false := by decide

theorem test_wide_allowed_at_32 : Instr.perm128Next.legalFor .l32 = true ∧ decodeFor .l32 0x08 = some .perm128Next ∧
    decodeFor .l16 0x08 = none := by decide

theorem test_zero_alen_refused : Hardware.wf { Hardware.baseline with alen := 0 } = false ∧
    Hardware.wf Hardware.baseline = true := by decide

/-! ### Interleaves (95_test_vectors 2.1, 2.2) -/

theorem test_unpk8Next : (after (exec .unpk8Next (rampUnit .l16 4))).lane 0 =
      [0x00, 0x10, 0x01, 0x11, 0x02, 0x12, 0x03, 0x13, 0x04, 0x14, 0x05, 0x15, 0x06, 0x16, 0x07, 0x17] ∧
    (after (exec .unpk8Next (rampUnit .l16 4))).lane 3 =
      [0x28, 0x38, 0x29, 0x39, 0x2A, 0x3A, 0x2B, 0x3B, 0x2C, 0x3C, 0x2D, 0x3D, 0x2E, 0x3E, 0x2F, 0x3F] := by decide

theorem test_unpk8Next_wide : (after (exec .unpk8Next (rampUnit .l32 4))).lane 1 =
    [0x08, 0x28, 0x09, 0x29, 0x0A, 0x2A, 0x0B, 0x2B, 0x0C, 0x2C, 0x0D, 0x2D, 0x0E, 0x2E, 0x0F, 0x2F,
     0x18, 0x38, 0x19, 0x39, 0x1A, 0x3A, 0x1B, 0x3B, 0x1C, 0x3C, 0x1D, 0x3D, 0x1E, 0x3E, 0x1F, 0x3F] := by decide

theorem test_unpk16Next : (after (exec .unpk16Next (rampUnit .l16 4))).lane 1 =
      [0x08, 0x09, 0x18, 0x19, 0x0A, 0x0B, 0x1A, 0x1B, 0x0C, 0x0D, 0x1C, 0x1D, 0x0E, 0x0F, 0x1E, 0x1F] ∧
    (after (exec .unpk16Next (rampUnit .l16 4))).lane 2 =
      [0x20, 0x21, 0x30, 0x31, 0x22, 0x23, 0x32, 0x33, 0x24, 0x25, 0x34, 0x35, 0x26, 0x27, 0x36, 0x37] := by decide

theorem test_unpk32Next : (after (exec .unpk32Next (rampUnit .l16 4))).lane 0 =
      [0x00, 0x01, 0x02, 0x03, 0x10, 0x11, 0x12, 0x13, 0x04, 0x05, 0x06, 0x07, 0x14, 0x15, 0x16, 0x17] ∧
    (after (exec .unpk32Next (rampUnit .l16 4))).lane 3 =
      [0x28, 0x29, 0x2A, 0x2B, 0x38, 0x39, 0x3A, 0x3B, 0x2C, 0x2D, 0x2E, 0x2F, 0x3C, 0x3D, 0x3E, 0x3F] := by decide

theorem test_unpk64Next : (after (exec .unpk64Next (rampUnit .l16 4))).lane 0 =
      [0x00, 0x01, 0x02, 0x03, 0x04, 0x05, 0x06, 0x07, 0x10, 0x11, 0x12, 0x13, 0x14, 0x15, 0x16, 0x17] ∧
    (after (exec .unpk64Next (rampUnit .l16 4))).lane 1 =
      [0x08, 0x09, 0x0A, 0x0B, 0x0C, 0x0D, 0x0E, 0x0F, 0x18, 0x19, 0x1A, 0x1B, 0x1C, 0x1D, 0x1E, 0x1F] := by decide

theorem test_unpk8Skip : (after (exec .unpk8Skip (rampUnit .l16 4))).lane 2 =
      [0x10, 0x30, 0x11, 0x31, 0x12, 0x32, 0x13, 0x33, 0x14, 0x34, 0x15, 0x35, 0x16, 0x36, 0x17, 0x37] ∧
    (after (exec .unpk8Skip (rampUnit .l16 4))).lane 4 = (rampUnit .l16 4).lane 4 := by decide

theorem test_unpk8Skip_eight : (after (exec .unpk8Skip (rampUnit .l16 8))).lane 2 =
      [0x10, 0x50, 0x11, 0x51, 0x12, 0x52, 0x13, 0x53, 0x14, 0x54, 0x15, 0x55, 0x16, 0x56, 0x17, 0x57] ∧
    (after (exec .unpk8Skip (rampUnit .l16 8))).lane 7 =
      [0x38, 0x78, 0x39, 0x79, 0x3A, 0x7A, 0x3B, 0x7B, 0x3C, 0x7C, 0x3D, 0x7D, 0x3E, 0x7E, 0x3F, 0x7F] := by decide

theorem test_unpk16Skip : (after (exec .unpk16Skip (rampUnit .l16 4))).lane 0 =
      [0x00, 0x01, 0x20, 0x21, 0x02, 0x03, 0x22, 0x23, 0x04, 0x05, 0x24, 0x25, 0x06, 0x07, 0x26, 0x27] ∧
    (after (exec .unpk16Skip (rampUnit .l16 4))).lane 3 =
      [0x18, 0x19, 0x38, 0x39, 0x1A, 0x1B, 0x3A, 0x3B, 0x1C, 0x1D, 0x3C, 0x3D, 0x1E, 0x1F, 0x3E, 0x3F] := by decide

theorem test_unpk32Skip : (after (exec .unpk32Skip (rampUnit .l16 4))).lane 1 =
      [0x08, 0x09, 0x0A, 0x0B, 0x28, 0x29, 0x2A, 0x2B, 0x0C, 0x0D, 0x0E, 0x0F, 0x2C, 0x2D, 0x2E, 0x2F] ∧
    (after (exec .unpk32Skip (rampUnit .l16 4))).lane 2 =
      [0x10, 0x11, 0x12, 0x13, 0x30, 0x31, 0x32, 0x33, 0x14, 0x15, 0x16, 0x17, 0x34, 0x35, 0x36, 0x37] := by decide

theorem test_unpk64Skip : (after (exec .unpk64Skip (rampUnit .l16 4))).lane 2 =
    [0x10, 0x11, 0x12, 0x13, 0x14, 0x15, 0x16, 0x17, 0x30, 0x31, 0x32, 0x33, 0x34, 0x35, 0x36, 0x37] := by decide

theorem test_unpk64Skip_wide : (after (exec .unpk64Skip (rampUnit .l32 4))).lane 1 =
    [0x08, 0x09, 0x0A, 0x0B, 0x0C, 0x0D, 0x0E, 0x0F, 0x48, 0x49, 0x4A, 0x4B, 0x4C, 0x4D, 0x4E, 0x4F,
     0x18, 0x19, 0x1A, 0x1B, 0x1C, 0x1D, 0x1E, 0x1F, 0x58, 0x59, 0x5A, 0x5B, 0x5C, 0x5D, 0x5E, 0x5F] := by decide

/-! ### Wide primitives (95_test_vectors 2.2) -/

theorem test_perm128Next : (after (exec .perm128Next (rampUnit .l32 4))).lane 1 =
    [0x10, 0x11, 0x12, 0x13, 0x14, 0x15, 0x16, 0x17, 0x18, 0x19, 0x1A, 0x1B, 0x1C, 0x1D, 0x1E, 0x1F,
     0x30, 0x31, 0x32, 0x33, 0x34, 0x35, 0x36, 0x37, 0x38, 0x39, 0x3A, 0x3B, 0x3C, 0x3D, 0x3E, 0x3F] := by decide

theorem test_perm128Skip : (after (exec .perm128Skip (rampUnit .l32 4))).lane 2 =
    [0x20, 0x21, 0x22, 0x23, 0x24, 0x25, 0x26, 0x27, 0x28, 0x29, 0x2A, 0x2B, 0x2C, 0x2D, 0x2E, 0x2F,
     0x60, 0x61, 0x62, 0x63, 0x64, 0x65, 0x66, 0x67, 0x68, 0x69, 0x6A, 0x6B, 0x6C, 0x6D, 0x6E, 0x6F] := by decide

theorem test_shufqSelf : (after (exec .shufqSelf (rampUnit .l32 4))).lane 3 =
    [0x60, 0x61, 0x62, 0x63, 0x64, 0x65, 0x66, 0x67, 0x70, 0x71, 0x72, 0x73, 0x74, 0x75, 0x76, 0x77,
     0x68, 0x69, 0x6A, 0x6B, 0x6C, 0x6D, 0x6E, 0x6F, 0x78, 0x79, 0x7A, 0x7B, 0x7C, 0x7D, 0x7E, 0x7F] := by decide

/-! ### Moves (95_test_vectors 2.5; there the byte at 0x1000 + o is o, here o + 1) -/

theorem test_lde : (after (exec .lde (moveUnit .l16 4 16 0))).lane 1 =
    [0x11, 0x12, 0x13, 0x14, 0x15, 0x16, 0x17, 0x18, 0x19, 0x1A, 0x1B, 0x1C, 0x1D, 0x1E, 0x1F, 0x20] := by decide

/-- `N = 20`, `IDX = 3`: `LDE` reads 0x100C to 0x104B. -/
theorem test_lde_unaligned : (ldePlan (moveUnit .l16 4 20 3)).reads = addrsFrom 0x100C 64 := by decide

set_option maxRecDepth 4000 in
theorem test_stp : (after (exec .stp (moveUnit .l16 4 16 0))).mem.readBytes 0x2010 16 =
    [0x10, 0x11, 0x12, 0x13, 0x14, 0x15, 0x16, 0x17, 0x18, 0x19, 0x1A, 0x1B, 0x1C, 0x1D, 0x1E, 0x1F] := by decide

/-- The planes are `N` bytes apart and the block starts at `IDX`. -/
theorem test_stp_offset : (stpPlan (moveUnit .l16 4 20 3)).writes.map Prod.fst =
    addrsFrom 0x2003 16 ++ addrsFrom 0x2017 16 ++ addrsFrom 0x202B 16 ++ addrsFrom 0x203F 16 := by decide

theorem test_ldp : (after (exec .ldp (moveUnit .l16 4 16 0))).lane 3 =
    [0x31, 0x32, 0x33, 0x34, 0x35, 0x36, 0x37, 0x38, 0x39, 0x3A, 0x3B, 0x3C, 0x3D, 0x3E, 0x3F, 0x40] := by decide

set_option maxRecDepth 4000 in
theorem test_ste : (after (exec .ste (moveUnit .l16 4 16 0))).mem.readBytes 0x2010 4 = [0x10, 0x11, 0x12, 0x13] ∧
    (after (exec .ste (moveUnit .l16 4 16 0))).mem.read 0x203F = 0x3F := by decide

/-- `SCE` with `IDX = 3` writes 0x2003, 0x2013, 0x2023, 0x2033. -/
theorem test_sce : (scePlan (moveUnit .l16 4 16 3)).writes =
    [(0x2003, 0x0D), (0x2013, 0x0E), (0x2023, 0x0F), (0x2033, 0x10)] := by decide

/-- `W = 4`, `N = 5`, `IDX = 4`: bytes at 0x1004, 0x1009, 0x100E, 0x1013 go to 0x2010 to 0x2013 (41_block_moves R106). -/
theorem test_scd : (scdPlan (moveUnit .l16 4 5 4)).writes =
    [(0x2010, 0x05), (0x2011, 0x0A), (0x2012, 0x0F), (0x2013, 0x14)] := by decide

/-! ### The codec (95_test_vectors 1.1, 2.6 and section 3 item 7) -/

/-- `W = 4`, `N = 2`. -/
theorem test_enc : (after (exec .enc { moveUnit .l16 4 2 0 with
      mem := [(0x1000, 0xA0), (0x1001, 0xA1), (0x1002, 0xA2), (0x1003, 0xA3),
        (0x1004, 0xB0), (0x1005, 0xB1), (0x1006, 0xB2), (0x1007, 0xB3)] })).mem.readBytes 0x2000 8 =
    [0xA0, 0xB0, 0xA1, 0xB1, 0xA2, 0xB2, 0xA3, 0xB3] := by decide

/-- `N = 0` changes no memory and counts one command, even with `SRC = DST`. -/
theorem test_enc_empty : (after (exec .enc { rampUnit .l16 4 with src := 0x1000, dst := 0x1000 })).mem = [] ∧
    (after (exec .enc { rampUnit .l16 4 with src := 0x1000, dst := 0x1000 })).cmdcnt = 1 := by decide

/-- `W = 8`, `N = 3`, the source region holding the plane buffer of the table of 2.6. -/
theorem test_dec : (after (exec .dec { moveUnit .l16 8 3 0 with mem := List.map (fun p => (0x1000 + p.2, p.1)) (List.zipIdx
      [0x10, 0x20, 0x30, 0x11, 0x21, 0x31, 0x12, 0x22, 0x32, 0x13, 0x23, 0x33,
       0x14, 0x24, 0x34, 0x15, 0x25, 0x35, 0x16, 0x26, 0x36, 0x17, 0x27, 0x37]) })).mem.readBytes 0x2000 24 =
    [0x10, 0x11, 0x12, 0x13, 0x14, 0x15, 0x16, 0x17, 0x20, 0x21, 0x22, 0x23,
     0x24, 0x25, 0x26, 0x27, 0x30, 0x31, 0x32, 0x33, 0x34, 0x35, 0x36, 0x37] := by decide

/-! ### Faults (95_test_vectors 2.7): `STATUS`, `CAUSE`, `FADDR`, `CMDCNT` -/

theorem test_illegal_words : report (rampUnit .l16 4) 0x08 = [2, 0x0801, 0, 0] ∧
    report (rampUnit .l32 4) 0x0B = [2, 0x0B01, 0, 0] ∧ report (rampUnit .l16 4) 0x20 = [2, 0x2001, 0, 0] ∧
    report (rampUnit .l16 4) 0xFF = [2, 0xFF01, 0, 0] ∧ report (rampUnit .l32 4) 0x08 = [0, 0, 0, 1] := by decide

theorem test_bad_config : report (rampUnit .l16 5) 0x04 = [2, 0x0402, 0, 0] ∧
    report (rampUnit .l16 5) 0x0B = [2, 0x0B01, 0, 0] ∧ report (rampUnit .l16 0) 0x18 = [2, 0x1802, 0, 0] := by decide

theorem test_alias : report { moveUnit .l16 4 4 0 with dst := 0x1008 } 0x18 = [2, 0x1803, 0, 0] ∧
    report { moveUnit .l16 4 4 0 with dst := 0x1010 } 0x18 = [0, 0, 0, 1] ∧
    report { moveUnit .l16 4 4 0 with dst := 0x1000 } 0x18 = [2, 0x1803, 0, 0] := by decide

/-- `ALEN = 32`, `W = 8`, `SRC = 0xFFFFFFF8`: two elements run past the top, one ends exactly there. -/
theorem test_range_top :
    report { rampUnit .l16 8 with hw := { Hardware.baseline with alen := 32 }, nelem := 2, src := 0xFFFFFFF8 } 0x18 =
      [2, 0x1804, 0, 0] ∧
    report { rampUnit .l16 8 with hw := { Hardware.baseline with alen := 32 }, nelem := 1, src := 0xFFFFFFF8 } 0x18 =
      [0, 0, 0, 1] := by decide

theorem test_range_index : report (moveUnit .l16 4 5 0) 0x10 = [2, 0x1004, 0, 0] ∧
    report (moveUnit .l16 4 16 16) 0x14 = [2, 0x1404, 0, 0] ∧ report (moveUnit .l16 4 16 15) 0x14 = [0, 0, 0, 1] ∧
    report { moveUnit .l16 4 16 1 with dst := 0x1001 } 0x10 = [2, 0x1004, 0, 0] := by decide

/-- The byte at 0x2013 is not writable: `AccessFault` there. The bytes written before it are free, so they are not tested. -/
theorem test_access_fault : (after (exec .enc guardedUnit)).causeCode = 5 ∧
    refusedAddrs guardedUnit.hw (encPlan guardedUnit) = [0x2013] := by decide

/-- 60_exceptions R143 and 42_codec R128: a check that stops `ENC` changes no memory, one that stops `LDE` no lane
register either. -/
theorem test_stopped : (after (exec .enc (moveUnit .l16 5 2 0))).mem = (moveUnit .l16 5 2 0).mem ∧
    (after (exec .lde (moveUnit .l16 4 5 0))).lanes = (moveUnit .l16 4 5 0).lanes := by decide

theorem test_fault_is_sticky :
    portRead 6 (after (step { rampUnit .l16 4 with seq := .fault, host := [.write 10 0] })) = 6 ∧
    portRead 6 (after (step { rampUnit .l16 4 with seq := .fault, ovr := true, host := [.write 11 0] })) = 0 := by decide

/-! ### The register port (95_test_vectors 2.9) -/

theorem test_reset_reads : (List.range 13).map (portRead · State.reset) =
    [0x184, 4, 0, 0, 0, 0, 0, 0, 0, 0, 0, 0, 0] ∧ portRead 0 (rampUnit .l32 4) = 0x185 := by decide

theorem test_cfg_write : portRead 1 (after (step { State.reset with host := [.write 1 0xFFFFFFF8] })) = 8 ∧
    portRead 1 (after (step { State.reset with host := [.write 1 0x14] })) = 4 := by decide

theorem test_busy_write_dropped :
    portRead 6 (after (step { State.reset with seq := .busy 0x18, host := [.write 2 7] })) = 5 ∧
    portRead 2 (after (step { State.reset with seq := .busy 0x18, host := [.write 2 7] })) = 0 := by decide

/-- 20_memory R53: the host's write to a region of a running command is made and remembered, one beside it only made, and
the command still ends; with no command running nothing is remembered. -/
theorem test_race : let s : State := { moveUnit .l16 4 5 0 with seq := .busy 0x18 }
    (after (step { s with host := [.poke 0x1000 9] })).raced = [(0x1000, 1)] ∧
    (after (step { s with host := [.poke 0x1000 9] })).mem.read 0x1000 = 9 ∧
    (after (step { s with host := [.poke 0x1014 9] })).raced = [] ∧
    (after (step { s with raced := [(0x1000, 1)] })).seq = .idle ∧
    (after (step { s with raced := [(0x1000, 1)] })).raced = [] ∧
    (after (step { s with seq := .idle, host := [.poke 0x1000 9] })).raced = [] := by decide

/-- A racing read of a byte that the running command does not write and the host has not written has one outcome. -/
theorem test_racing_read : (after (step { moveUnit .l16 4 16 0 with seq := .busy 0x10, host := [.peek 0x1000] })).seen = [1] ∧
    heldBytes { moveUnit .l16 4 16 0 with seq := .busy 0x10 } 0x2000 = [0] ∧
    pendingWrites (raceView { moveUnit .l16 4 16 0 with seq := .busy 0x10 }) = [] := by decide

theorem test_cmdcnt_wraps :
    (after (exec .unpk8Next { rampUnit .l16 4 with cmdcnt := 0xFFFFFFFF })).cmdcnt = 0 := by decide

/-- A script as its port accesses (30_encoding R70; program P2 of 95_test_vectors, in part). -/
theorem test_script : scriptEvents [.wr .idx 0, .cmd .lde, .rd .cmdcnt, .reset] =
    [.write 5 0, .write 10 0x10, .unit, .read 6, .read 9, .write 11 0] := by decide

/-! ### For each statement with hypotheses, a state that meets them -/

theorem rampUnit_lanesWf (l : LaneLen) (w : BitVec 4) : lanesWf (rampUnit l w) := by
  refine ⟨by simp [rampUnit, ramp, numLanes], fun v hv => ?_⟩
  obtain ⟨r, -, rfl⟩ := List.mem_map.mp hv
  simp [State.laneBytes, rampUnit, State.resetOf]

theorem moveUnit_lanesWf (l : LaneLen) (w : BitVec 4) (n i : Nat) : lanesWf (moveUnit l w n i) :=
  rampUnit_lanesWf l w

/-- `CmdWriteIssuesACommand`, `IdleWritesSetTheOperandRegisters`, `IdIsConstantAndIgnoresWrites`,
`WritesAreDroppedWhenNotIdle`, `StatusFieldsAndTransitions`: a write taken while idle, the largest value that fits. -/
theorem witness_idle_write : let s : State := { State.reset with host := [.write 2 (2 ^ 64 - 1)] }
    s.host = [.write 2 (2 ^ 64 - 1)] ∧ s.seq = .idle ∧ 2 ^ 64 - 1 < 2 ^ s.hw.alen ∧ goesOn (step s) = true := by decide

/-- The same statements: writes taken while `BUSY` (the last port, and `RESET`) and while `FAULT`. -/
theorem witness_dropped_writes : let s : State := { State.reset with seq := .busy 0x18, host := [.write 11 0] }
    let f : State := { State.reset with seq := .fault, host := [.write 10 0] }
    (s.host = [.write 11 0] ∧ s.seq = .busy 0x18 ∧ (after (step s)).seq = .busy 0x18 ∧ goesOn (step s) = true) ∧
    f.seq = .fault ∧ (10 : Nat) ≠ 11 ∧ f.host = [.write 10 0] := by decide

/-- `StatusFieldsAndTransitions`, `CmdWriteIssuesACommand`: an idle unit whose host writes `CMD`. -/
theorem witness_issue : let s : State := { State.reset with host := [.write 10 0x118] }
    s.seq = .idle ∧ s.host = [.write 10 0x118] ∧ goesOn (step s) = true ∧ (after (step s)).seq = .busy 0x18 := by decide

/-- `ReservedPortsAndBits`: the first reserved port. -/
theorem witness_reserved_port : let s : State := { State.reset with host := [.write 12 7] }
    12 ≤ 12 ∧ s.host = [.write 12 7] ∧ s.seq = .idle := by decide

/-- `WritesAreDroppedWhenNotIdle`: a read taken while `BUSY`. -/
theorem witness_read : let s : State := { State.reset with seq := .busy 0x18, host := [.read 6] }
    s.host = [.read 6] ∧ s.seq = .busy 0x18 ∧ (after (step s)).seen = [1] := by decide

/-- `StepRunsTheWordTheUnitHolds`, `IllegalWordRaisesIllegalCmd`: the unit's turn with a legal and with an illegal word. -/
theorem witness_unit_turn : let s : State := { State.reset with seq := .busy 0x00 }
    let u : State := { State.reset with seq := .busy 0x0B, host := [.unit] }
    (s.seq = .busy 0x00 ∧ s.host = [] ∧ decode 0x00 = some .unpk8Next ∧ s.raced = []) ∧
    u.seq = .busy 0x0B ∧ u.host = [.unit] ∧ decode 0x0B = none ∧ decodeFor u.hw.lane 0x0B = none := by decide

/-- `IllegalWordRaisesIllegalCmd`: the edges of the illegal words, and a `WIDE` word on a 16-byte unit. -/
theorem witness_illegal_words : decodeFor .l16 0x08 = none ∧ decodeFor .l16 0x0A = none ∧ decodeFor .l32 0x0B = none ∧
    decodeFor .l32 0x16 = none ∧ decodeFor .l32 0x1A = none ∧ decodeFor .l32 0xFF = none := by decide

/-- `CauseAndFaddrAreWrittenOnlyByFaultAndReset`, `CmdcntCountsCommandsThatEnd`, `StatusFieldsAndTransitions`,
`LanesAndMemoryChangeOnlyAsListed`: steps that end a command, fault, and reset. -/
theorem witness_steps : let s : State := { rampUnit .l16 4 with seq := .busy 0x00 }
    let f : State := { rampUnit .l16 5 with seq := .busy 0x00 }
    let r : State := { rampUnit .l16 4 with seq := .fault, host := [.write 11 0] }
    (s.seq = .busy 0x00 ∧ s.host = [] ∧ goesOn (step s) = true ∧ (after (step s)).seq = .idle ∧
      (after (step s)).lanes ≠ s.lanes) ∧
    (f.seq = .busy 0x00 ∧ f.host = [] ∧ goesOn (step f) = true ∧ (after (step f)).seq = .fault) ∧
    (goesOn (step r) = true ∧ (after (step r)).seq = .idle) := by decide

/-- `LanesAndMemoryChangeOnlyAsListed`: a step that changes memory. -/
theorem witness_memory_step : let s : State := { State.reset with host := [.poke 5 7] }
    goesOn (step s) = true ∧ (after (step s)).mem ≠ s.mem := by decide

/-- `LanesAndMemoryChangeOnlyAsListed`: steps that change `NELEM`, by a write to its port and by a reset. -/
theorem witness_operand_step : let s : State := { State.reset with host := [.write 2 7] }
    let r : State := { State.reset with nelem := 7, host := [.write 11 0] }
    (goesOn (step s) = true ∧ (after (step s)).nelem ≠ s.nelem) ∧
    goesOn (step r) = true ∧ (after (step r)).nelem ≠ r.nelem := by decide

/-- `LanesAndMemoryChangeOnlyAsListed`: a write to `CMDCNT` (10_state R16, read only; log 15) changes nothing. -/
theorem test_idle_write_read_only : let s : State := { State.reset with cmdcnt := 3, host := [.write 9 7] }
    step s = .next { s with host := [] } ∧ portRead 9 s = 3 := ⟨rfl, by decide⟩

/-- `AnIssuedCommandEnds`: a busy unit whose host keeps using the port. -/
theorem witness_port_traffic : let s : State := { State.reset with seq := .busy 0x18, host := [.write 2 1, .read 6, .unit] }
    s.seq = .busy 0x18 ∧ ∀ e ∈ s.host, (∃ p v, e = .write p v) ∨ (∃ p, e = .read p) ∨ e = .unit := by
  refine ⟨rfl, fun e he => ?_⟩
  simp only [List.mem_cons, List.not_mem_nil, or_false] at he
  rcases he with rfl | rfl | rfl
  · exact .inl ⟨_, _, rfl⟩
  · exact .inr (.inl ⟨_, rfl⟩)
  · exact .inr (.inr rfl)

/-- `ResetValuesAreTheTable`: all three ways to a reset state, and the first port of its last clause. -/
theorem witness_reset_states (u : State) : (∃ hw, State.reset = State.resetOf hw) ∧
    (∃ s, s = hardReset u) ∧ (∃ s, s = softReset u) ∧ 10 ≤ PortReg.cmd.number := ⟨⟨_, rfl⟩, ⟨_, rfl⟩, ⟨_, rfl⟩, le_rfl⟩

/-- `SoftResetKeepsLanesAndMemory`: a write to `RESET` while `FAULT`, and one while `BUSY`. -/
theorem witness_soft_reset : let s : State := { State.reset with seq := .fault, host := [.write 11 9] }
    let b : State := { State.reset with seq := .busy 0x18, host := [.write 11 9] }
    (s.host = [.write 11 9] ∧ ∀ w, s.seq ≠ .busy w) ∧ b.host = [.write 11 9] ∧ ∃ w, b.seq = .busy w :=
  ⟨⟨rfl, by simp⟩, rfl, ⟨_, rfl⟩⟩

/-- `HardwareResetAbandonsTheCommand`: a hardware reset while `STP` runs. -/
theorem witness_hard_reset : let s : State := { moveUnit .l16 4 16 0 with seq := .busy 0x11, host := [.hardReset] }
    s.host = [.hardReset] ∧ lanesWf s := ⟨rfl, moveUnit_lanesWf .l16 4 16 0⟩

/-- `FaultIsStickyUntilReset`: steps in `FAULT`, with and without a reset. -/
theorem witness_fault_steps : let s : State := { State.reset with seq := .fault }
    let r : State := { State.reset with seq := .fault, host := [.hardReset] }
    s.seq = .fault ∧ step s = .next s ∧ r.seq = .fault ∧ step r = .next (hardReset { r with host := [] }) :=
  ⟨rfl, rfl, rfl, rfl⟩

/-- `BadWidthRaisesBadConfig`, `PrimitivesCheckThenCannotFault`: widths next to the legal ones. -/
theorem witness_bad_width : Instr.enc.legalFor .l16 = true ∧ Instr.unpk8Skip.legalFor .l16 = true ∧
    ¬widthOk (rampUnit .l16 3) ∧ ¬widthOk (rampUnit .l16 5) ∧ ¬widthOk (rampUnit .l16 7) ∧
    ¬widthOk (rampUnit .l16 9) := by unfold widthOk; decide

/-- `OutOfRangeRaisesRangeFault`: each of the four conditions by the least amount. -/
theorem witness_out_of_range : let a : State := { rampUnit .l16 4 with nelem := 1, src := 2 ^ 64 - 3 }
    let b : State := { rampUnit .l16 4 with nelem := 1, dst := 2 ^ 64 - 3 }
    Instr.enc.isMemory = true ∧ Instr.lde.isMemory = true ∧ Instr.scd.isMemory = true ∧
    (widthOk a ∧ ¬rangeOk .enc a) ∧ (widthOk b ∧ ¬rangeOk .dec b) ∧
    (widthOk (moveUnit .l16 4 16 1) ∧ ¬rangeOk .lde (moveUnit .l16 4 16 1)) ∧
    (widthOk (moveUnit .l16 4 16 16) ∧ ¬rangeOk .scd (moveUnit .l16 4 16 16)) := by
  simp only [widthOk, rangeOk, indexOk]; decide

/-- `OverlapRaisesAliasFault`: regions that share one byte. -/
theorem witness_overlap : let s : State := { moveUnit .l16 4 16 0 with dst := 0x1000 + 63 }
    Instr.stp.isMemory = true ∧ widthOk s ∧ rangeOk .stp s ∧ overlap s := by
  simp only [widthOk, rangeOk, indexOk, overlap]; decide

theorem guardedUnit_checks : checksPass .enc guardedUnit := by
  simp only [checksPass, widthOk, rangeOk, indexOk, overlap]; decide

/-- `RefusedAccessRaisesAccessFault`: the last byte of the destination region is not writable. -/
theorem witness_refused : Instr.enc.isMemory = true ∧ checksPass .enc guardedUnit ∧ ∃ a, refusedByte .enc guardedUnit a := by
  refine ⟨rfl, guardedUnit_checks, 0x2013, .inr ⟨⟨_, 4, by decide, 3, by decide, by decide, rfl⟩, by decide⟩⟩

/-- `FaultEntryIsPrecise`, `TheFirstApplicableFaultIsReported`: a command that faults (code 5: `test_access_fault`). -/
theorem witness_faulting : exec .unpk8Next (rampUnit .l16 5) = .next (after (exec .unpk8Next (rampUnit .l16 5))) ∧
    (after (exec .unpk8Next (rampUnit .l16 5))).seq ≠ .idle := ⟨next_of_goesOn (by decide), by decide⟩

/-- `TheFirstApplicableFaultIsReported`: each branch in turn. -/
theorem witness_first_fault : Instr.perm128Next.legalFor (rampUnit .l16 4).hw.lane = false ∧
    ¬widthOk (rampUnit .l16 5) ∧ widthOk (rampUnit .l16 4) ∧ Instr.unpk8Next.isMemory = false ∧
    ¬rangeOk .lde (moveUnit .l16 4 5 0) ∧ rangeOk .lde (moveUnit .l16 4 16 0) ∧ ¬overlap (moveUnit .l16 4 16 0) := by
  simp only [widthOk, rangeOk, indexOk, overlap]; decide

/-- `InterleavesAlternateUnits`, `InterleavesInIndexForm`: the table's first and last rows, both widths, both lengths. -/
theorem witness_interleaves : (Instr.unpk8Next, false, 1) ∈ unpkTable ∧ (Instr.unpk64Skip, true, 8) ∈ unpkTable ∧
    lanesWf (rampUnit .l16 4) ∧ widthOk (rampUnit .l16 4) ∧ lanesWf (rampUnit .l32 8) ∧ widthOk (rampUnit .l32 8) ∧
    goesOn (exec .unpk64Skip (rampUnit .l32 8)) = true :=
  ⟨by decide, by decide, rampUnit_lanesWf _ _, by unfold widthOk; decide, rampUnit_lanesWf _ _,
    by unfold widthOk; decide, by decide⟩

/-- `WidePermutesGatherHalves`, `ShuffleSwapsMiddleQuarters`: units of both lengths. -/
theorem witness_wide : (rampUnit .l32 4).hw.lane = .l32 ∧ lanesWf (rampUnit .l32 4) ∧ widthOk (rampUnit .l32 4) ∧
    (rampUnit .l16 4).hw.lane = .l16 := ⟨rfl, rampUnit_lanesWf _ _, by unfold widthOk; decide, rfl⟩

/-- `PrimitivesCheckThenCannotFault`, `PrimitivesPermutePositions`, `PrimitivesRotatePositionBits`. -/
theorem witness_primitive : Instr.shufqSelf.isMemory = false ∧ Instr.shufqSelf.legalFor (rampUnit .l32 8).hw.lane = true ∧
    Instr.shufqSelf.legalFor (rampUnit .l16 8).hw.lane = false ∧ widthOk (rampUnit .l32 8) ∧ lanesWf (rampUnit .l32 8) ∧
    (rampUnit .l32 8).width = 8 ∧ goesOn (exec .shufqSelf (rampUnit .l32 8)) = true :=
  ⟨by decide, by decide, by decide, by unfold widthOk; decide, rampUnit_lanesWf _ _, by decide, by decide⟩

theorem baseline_readable (a : Nat) : Hardware.baseline.readable a = true := rfl

theorem moveUnit_granted (l : LaneLen) (w : BitVec 4) (n i : Nat) : regionsGranted (moveUnit l w n i) :=
  ⟨fun _ _ => rfl, fun _ _ => rfl⟩

/-- `LdeLoadsABlockOfElements`, `LdpLoadsRegistersFromPlanes`: the last full block, `IDX + L = N`. -/
theorem witness_loads : checksPass .lde (moveUnit .l16 4 17 1) ∧ checksPass .ldp (moveUnit .l32 8 32 0) ∧
    (∀ a, readsByte .lde (moveUnit .l16 4 17 1) a → (moveUnit .l16 4 17 1).hw.readable a = true) ∧
    ∀ a, readsByte .ldp (moveUnit .l32 8 32 0) a → (moveUnit .l32 8 32 0).hw.readable a = true := by
  refine ⟨?_, ?_, fun _ _ => rfl, fun _ _ => rfl⟩ <;>
    (simp only [checksPass, widthOk, rangeOk, indexOk, overlap]; decide)

/-- `StpStoresRegistersToPlanes`, `SteStoresABlockOfElements`: likewise. -/
theorem witness_stores : checksPass .stp (moveUnit .l16 4 17 1) ∧ checksPass .ste (moveUnit .l32 8 32 0) ∧
    (∀ a b, storesByte .stp (moveUnit .l16 4 17 1) a b → (moveUnit .l16 4 17 1).hw.writable a = true) ∧
    ∀ a b, storesByte .ste (moveUnit .l32 8 32 0) a b → (moveUnit .l32 8 32 0).hw.writable a = true := by
  refine ⟨?_, ?_, fun _ _ _ => rfl, fun _ _ _ => rfl⟩ <;>
    (simp only [checksPass, widthOk, rangeOk, indexOk, overlap]; decide)

theorem moveUnit_no_refused (i : Instr) (l : LaneLen) (w : BitVec 4) (n x : Nat) :
    ¬∃ a, refusedByte i (moveUnit l w n x) a := by
  rintro ⟨a, ⟨-, h⟩ | ⟨-, h⟩⟩ <;> exact absurd h (by simp [moveUnit, rampUnit, State.resetOf, Hardware.readable,
    Hardware.writable, Hardware.baseline])

/-- `SceCopiesOneElementToPlanes`, `ScdCopiesOneElementFromPlanes`: the last element, `IDX = N - 1`. -/
theorem witness_scalar : checksPass .sce (moveUnit .l16 4 5 4) ∧ checksPass .scd (moveUnit .l16 8 1 0) ∧
    (¬∃ a, refusedByte .sce (moveUnit .l16 4 5 4) a) ∧ ¬∃ a, refusedByte .scd (moveUnit .l16 8 1 0) a := by
  refine ⟨?_, ?_, moveUnit_no_refused _ _ _ _ _, moveUnit_no_refused _ _ _ _ _⟩ <;>
    (simp only [checksPass, widthOk, rangeOk, indexOk, overlap]; decide)

/-- `EncTransposesToPlanes`, `DecTransposesToElements`: no element, and regions that touch. -/
theorem witness_codec : checksPass .enc (moveUnit .l16 4 0 0) ∧
    checksPass .dec { moveUnit .l16 4 4 0 with dst := 0x1010 } ∧ regionsGranted (moveUnit .l16 4 0 0) ∧
    regionsGranted { moveUnit .l16 4 4 0 with dst := 0x1010 } := by
  refine ⟨?_, ?_, moveUnit_granted _ _ _ _, fun _ _ => rfl, fun _ _ => rfl⟩ <;>
    (simp only [checksPass, widthOk, rangeOk, indexOk, overlap]; decide)

/-- `CodecRoundTrip`: `ENC` from 0x1000 to 0x2000, the host points the unit back, `DEC` to 0x1000. -/
theorem witness_round_trip : let s := moveUnit .l16 4 2 0
    let t := after (exec .enc s)
    let u : State := { t with src := 0x2000, dst := 0x1000 }
    exec .enc s = .next t ∧ t.seq = .idle ∧ sameMemory t u ∧ u.cfgW = s.cfgW ∧ u.nelem = s.nelem ∧ u.src = s.dst ∧
      ∃ v, exec .dec u = .next v ∧ v.seq = .idle :=
  ⟨next_of_goesOn (by decide), by decide, fun _ => rfl, rfl, rfl, rfl, _, next_of_goesOn (by decide), by decide⟩

/-- `UpperLanesAreUntouchedAtWidthFour`: lane registers that differ only from `V[4]` on. -/
theorem witness_upper_lanes : let s := rampUnit .l16 4
    let v := (ramp .l16).take 4 ++ List.replicate 4 (List.replicate 16 0x5A)
    Instr.unpk8Skip ≠ .enc ∧ Instr.unpk8Skip ≠ .dec ∧ s.width = 4 ∧ lanesWf s ∧ lanesWf { s with lanes := v } ∧
      (∀ r < 4, v.getD r [] = s.lane r) ∧ v ≠ s.lanes := by
  refine ⟨by decide, by decide, by decide, rampUnit_lanesWf _ _, ?_, by decide, by decide⟩
  unfold lanesWf; decide

/-- `AccessesStayInRegionsInAnyOrder`: a memory command that passes its checks, and one by one element that does not. -/
theorem witness_accesses : memoryPlan .sce = some (.element, scePlan) ∧ checksPass .sce (moveUnit .l16 4 5 4) ∧
    ¬checksPass .sce (moveUnit .l16 4 5 5) ∧
    (after (exec .sce (moveUnit .l16 4 5 4))).seq = .idle ∧
    (wouldWrite .sce (moveUnit .l16 4 5 4)).reverse.Perm (wouldWrite .sce (moveUnit .l16 4 5 4)) := by
  refine ⟨rfl, witness_scalar.1, fun h => absurd h.2.1.2.2 ?_, by decide, List.reverse_perm _⟩
  simp only [indexOk]; decide

/-- `LaneRegistersAreReadOnlyByPrimitivesAndStores`: loads and the codec from lane registers that differ. -/
theorem witness_loads_end : goesOn (exec .lde (moveUnit .l16 4 17 1)) = true ∧
    goesOn (exec .enc (moveUnit .l16 4 2 0)) = true ∧
    (after (exec .lde { moveUnit .l16 4 17 1 with lanes := [] })).lane 3 = (after (exec .lde (moveUnit .l16 4 17 1))).lane 3 := by
  decide

/-- `LaneRegistersAreReadOnlyByPrimitivesAndStores` (its clause on loads: `witness_loads`), `MemoryCommandsAreIdempotent`. -/
theorem witness_memory_commands : Instr.sce ∈ ([.lde, .ldp, .sce, .scd, .enc, .dec] : List Instr) ∧
    Instr.sce ∈ ([.stp, .ste, .sce, .scd] : List Instr) ∧ Instr.sce.isMemory = true ∧
    goesOn (exec .sce (moveUnit .l16 4 5 4)) = true ∧ (after (exec .sce (moveUnit .l16 4 5 4))).seq = .idle ∧
    goesOn (exec .sce { moveUnit .l16 4 5 4 with mem := (after (exec .sce (moveUnit .l16 4 5 4))).mem }) = true :=
  ⟨by decide, by decide, by decide, by decide, by decide, by decide⟩

/-- `LayoutsAreBijections`, `MemReadReturnsWhatMemWriteWrote`: the last offset of a region, and a canonical memory. -/
theorem witness_layout : 19 < 5 * 4 ∧ Memory.wf (countingMemory 0x1000 8) ∧ 7 < (countingMemory 0x1000 8).length := by decide

/-- `HostAccessesWhileBusyAreRaces`: the first byte of the source region, the last of the destination region, and bytes
beside them, while `ENC` runs; and the unit's turn after a host write that raced it. -/
theorem witness_races : let s : State := { moveUnit .l16 4 5 0 with seq := .busy 0x18, host := [.poke 0x1000 9] }
    let r : State := { moveUnit .l16 4 5 0 with seq := .busy 0x18, host := [.peek 0x2013] }
    let u : State := { moveUnit .l16 4 5 0 with seq := .busy 0x18, raced := [(0x1000, 1), (0x2000, 0)] }
    s.seq = .busy 0x18 ∧ decode 0x18 = some .enc ∧ Instr.enc.isMemory = true ∧ 0x2013 < 2 ^ s.hw.alen ∧
    s.host = [.poke 0x1000 9] ∧ r.host = [.peek 0x2013] ∧ u.host = [] ∧ goesOn (step u) = true ∧
    (s.src ≤ 0x1000 ∧ 0x1000 < s.src + s.nelem * s.width) ∧ (s.dst ≤ 0x2013 ∧ 0x2013 < s.dst + s.nelem * s.width) ∧
    ¬(s.src ≤ 0x1014 ∧ 0x1014 < s.src + s.nelem * s.width) ∧ ¬(s.dst ≤ 0x2014 ∧ 0x2014 < s.dst + s.nelem * s.width) := by
  decide

/-- `HostAccessesWhileBusyAreRaces`: with no memory command running (a primitive, an illegal word, `IDLE`, `FAULT`), the last
address of the space and the first beyond it. -/
theorem witness_plain_accesses : let s : State := { moveUnit .l16 4 5 0 with seq := .busy 0x00, host := [.poke (2 ^ 64 - 1) 9] }
    let r : State := { moveUnit .l16 4 5 0 with seq := .busy 0x0B, host := [.peek 0x1000] }
    let b : State := { State.reset with host := [.peek (2 ^ 64)] }
    let f : State := { State.reset with seq := .fault, host := [.poke 5 7] }
    (2 ^ 64 - 1 < 2 ^ s.hw.alen ∧ decode 0x00 = some .unpk8Next ∧ Instr.unpk8Next.isMemory = false ∧
      (after (step s)).mem.read (2 ^ 64 - 1) = 9) ∧
    (decode 0x0B = none ∧ (after (step r)).seen = [1]) ∧
    (2 ^ b.hw.alen ≤ 2 ^ 64 ∧ step b = .fault (.hostAddressOutside (2 ^ 64))) ∧
    (after (step f)).mem = [(5, 7)] :=
  ⟨by decide, by decide, ⟨by decide, rfl⟩, by decide⟩

/-- `ReferenceNetworksTranspose`, `ReferenceNetworksAreInverse`, and the three about minimal networks: units of each length
and width, and networks of primitives of both. -/
theorem witness_networks : (rampUnit .l32 8).hw.lane = .l32 ∧ (rampUnit .l32 8).width = 8 ∧
    (rampUnit .l32 8).lanes.length = numLanes ∧ lanesWf (rampUnit .l32 8) ∧ widthOk (rampUnit .l32 8) ∧
    (∀ i ∈ netEnc .l32, i.isMemory = false) ∧ (∀ i ∈ netEnc .l16, i.cls = .unpk) ∧ (netEnc .l16).length ≤ 4 ∧
    isNetwork .l32 [.unpk8Next, .perm128Next, .shufqSelf, .unpk16Skip] ∧
    { lane := .l32, width := 4, encodeLength := 5, encodeCount := 15, decodeLength := 4, decodeCount := 14 } ∈ networkTable :=
  ⟨rfl, by decide, by decide, rampUnit_lanesWf _ _, by unfold widthOk; decide, by decide, by decide, by decide,
    by unfold isNetwork; decide, by decide⟩

/-- `BlockPathEqualsScalarPath`, `EncExpansionEqualsEnc`, `DecExpansionEqualsDec`, `ScalarLoopEqualsCodec`: one block and
one element over. -/
theorem witness_expansion : let s := moveUnit .l16 4 17 1
    s.seq = .idle ∧ lanesWf s ∧ checksPass .lde s ∧ checksPass .enc s ∧ checksPass .dec s ∧ regionsGranted s ∧
      isNetwork s.hw.lane (netEnc s.hw.lane) := by
  refine ⟨rfl, moveUnit_lanesWf _ _ _ _, ?_, ?_, ?_, moveUnit_granted _ _ _ _, by unfold isNetwork; decide⟩ <;>
    (simp only [checksPass, widthOk, rangeOk, indexOk, overlap]; decide)

/-- `EveryStepKeepsTheInvariant`: a busy unit that meets the invariant and steps. -/
theorem witness_invariant : let s : State := { rampUnit .l16 4 with seq := .busy 0x04, host := [.unit] }
    Inv s ∧ goesOn (step s) = true := by
  intro s
  refine ⟨⟨rampUnit_lanesWf .l16 4, ?_, ⟨by decide, by decide⟩, ?_, ⟨fun h => absurd rfl h, by decide⟩⟩, by decide⟩
  · unfold registersFit; decide
  · exact ⟨fun h => absurd h (by decide), fun _ => ⟨rfl, rfl⟩, fun _ => rfl⟩

end Sys2Proof.Machine.Tests
end

section
/-! SUPPORT. What a command, a port write and a whole step do to the control registers, said once. -/

namespace Sys2Proof.Machine

/-! ### The word of a command -/

/-- A legal word is the word of the command it selects (30_encoding R60, R67). -/
theorem encode_of_decode {w : Byte} {i : Instr} (h : decode w = some i) : encode i = w := by
  have all : ∀ w : Byte, (decode w).all (fun i => encode i == w) = true := by decide
  simpa [h] using all w

/-! ### How a command ends -/

/-- The unit's fault entry on word `w`, from `s` to `t`: what is recorded, and the control state it keeps
(60_exceptions R143). -/
structure Faulted (w : Byte) (s t : State) : Prop where
  seq : t.seq = .fault
  cmdcnt : t.cmdcnt = s.cmdcnt
  control : sameControl s t
  ovr : t.ovr = s.ovr
  host : sameHost s t
  word : t.causeFcmd = w
  code : ∃ k : UnitFault, t.causeCode = k.code
  addr : t.causeCode ≠ UnitFault.accessFault.code → t.faddr = 0
  addr_lt : t.faddr < s.hw.top

theorem top_pos (hw : Hardware) : 0 < hw.top := Nat.two_pow_pos _

theorem UnitFault.code_ne_zero (k : UnitFault) : k.code ≠ 0 := by cases k <;> decide

theorem Faulted.takeFault (k : UnitFault) (w : Byte) (s : State) : Faulted w s (takeFault k w 0 s) :=
  ⟨rfl, rfl, ⟨rfl, rfl, rfl, rfl, rfl, rfl⟩, rfl, ⟨rfl, rfl⟩, rfl, ⟨k, rfl⟩, fun _ => rfl, top_pos s.hw⟩

theorem Faulted.checkFault (k : UnitFault) (w : Byte) (p : Plan) (s : State) : Faulted w s (checkFault k w p s) := by
  rw [checkFault_eq]
  exact ⟨rfl, rfl, ⟨rfl, rfl, rfl, rfl, rfl, rfl⟩, rfl, ⟨rfl, rfl⟩, rfl, ⟨k, rfl⟩, fun _ => rfl, top_pos s.hw⟩

/-- An address the platform refuses a command whose checks pass is inside the address space (60_exceptions R144). -/
theorem refusedByte_lt_top {i : Instr} {s : State} (h : checksPass i s) {a : Nat} (ha : refusedByte i s a) :
    a < s.hw.top := by
  obtain ⟨-, ⟨hsrc, hdst, -⟩, -⟩ := id h
  rcases ha with ⟨hr, -⟩ | ⟨⟨b, hs⟩, -⟩
  · exact lt_of_lt_of_le (reads_bound h hr).2 hsrc
  · exact lt_of_lt_of_le (stores_bound h hs).2 hdst

/-- Every command ends without fault, or in fault entry on its own word (10_state R22; 60_exceptions R143). -/
theorem exec_ends {i : Instr} {s t : State} (h : exec i s = .next t) :
    completed s t ∨ Faulted (encode i) s t := by
  rcases primitive_or_memory i with ⟨f, hf, -⟩ | ⟨need, plan, hp, -⟩
  · rw [exec_of_primitiveFn hf] at h
    rcases runPrimitive_cases h with ⟨-, rfl⟩ | ⟨-, -, rfl⟩ | ⟨-, -, rfl⟩
    · exact .inr (.takeFault _ _ s)
    · exact .inr (.takeFault _ _ s)
    · exact .inl ⟨rfl, rfl, ⟨rfl, rfl, rfl, rfl, rfl, rfl⟩, ⟨rfl, rfl, rfl, rfl⟩, ⟨rfl, rfl⟩⟩
  · rcases exec_memory_cases hp h with ⟨k, -, rfl⟩ | ⟨-, -, rfl⟩ | ⟨hc, ⟨a, ha⟩, rfl⟩
    · exact .inr (.checkFault _ _ _ s)
    · exact .inl (finish_completed _ s)
    · have picked : (accessFault (encode i) (plan s) s).faddr < s.hw.top :=
        refusedByte_lt_top hc ((refusedByte_iff hp s _).mpr
          (pickRefused_mem (List.ne_nil_of_mem ((refusedByte_iff hp s a).mp ha))))
      exact .inr ⟨rfl, rfl, ⟨rfl, rfl, rfl, rfl, rfl, rfl⟩, rfl, ⟨rfl, rfl⟩, rfl, ⟨.accessFault, rfl⟩,
        fun hn => absurd rfl hn, picked⟩

/-- How a turn of the unit that ran the command `i` ends. -/
theorem Ran.ends_or_faults {i : Instr} {s t u : State} {m : Memory} (h : Ran i s t m u) :
    completed s t ∨ Faulted (encode i) s t := by
  obtain ⟨c, hx⟩ := h.ran
  rw [h.ends]
  rcases exec_ends hx with hd | hf
  · exact .inl hd
  · exact .inr ⟨hf.seq, hf.cmdcnt, hf.control, hf.ovr, hf.host, hf.word, hf.code, hf.addr, hf.addr_lt⟩

/-! ### What a port write does -/

/-- Each operand register of `t` is as in `s`, or is the register of port `p` and fits it (10_state R16, R18 to R21). -/
structure OperandsOfPort (p : Nat) (s t : State) : Prop where
  cfgW : t.cfgW = s.cfgW ∨ p = 1
  nelem : t.nelem = s.nelem ∨ p = 2 ∧ t.nelem < s.hw.top
  src : t.src = s.src ∨ p = 3 ∧ t.src < s.hw.top
  dst : t.dst = s.dst ∨ p = 4 ∧ t.dst < s.hw.top
  idx : t.idx = s.idx ∨ p = 5 ∧ t.idx < s.hw.top

/-- Everything a port write can do (10_state R16 to R29, R34). -/
inductive WriteCase (p v : Nat) (s t : State) : Prop where
  | reset : p = 11 → (∀ w, s.seq ≠ .busy w) → t = softReset s → WriteCase p v s t
  | dropped : s.seq ≠ .idle → (p = 11 → ∃ w, s.seq = .busy w) → t = setOvr s → WriteCase p v s t
  | issue : p = 10 → s.seq = .idle → t = issue v s → WriteCase p v s t
  | operands : p ≠ 10 → p ≠ 11 → s.seq = .idle →
      t = { s with cfgW := t.cfgW, nelem := t.nelem, src := t.src, dst := t.dst, idx := t.idx } →
      OperandsOfPort p s t → WriteCase p v s t

theorem keepAlen_lt_top (v : Nat) (s : State) : keepAlen v s < s.hw.top := Nat.mod_lt _ (top_pos s.hw)

theorem portWrite_idle {s : State} (h : s.seq = .idle) (p v : Nat) :
    portWrite p v s = idleWrite (portReg p) v s := by
  simp [portWrite, h]

/-- A write is dropped while `BUSY`, and while `FAULT` but for one to `RESET` (10_state R34). -/
theorem portWrite_dropped {s : State} {p : Nat} (h : s.seq ≠ .idle) (hp : p = 11 → ∃ w, s.seq = .busy w) (v : Nat) :
    portWrite p v s = setOvr s := by
  unfold portWrite
  split
  · next hs => exact absurd hs h
  · rfl
  · next hs => rw [if_neg fun hr => by simp [hs] at hp; exact hp (portReg_reset.mp hr)]

/-- A write to `RESET` resets unless the unit is `BUSY` (10_state R28). -/
theorem portWrite_reset {s : State} (h : ∀ w, s.seq ≠ .busy w) (v : Nat) : portWrite 11 v s = softReset s := by
  unfold portWrite
  split
  · rfl
  · next w hs => exact absurd hs (h w)
  · rfl

theorem portWrite_case (p v : Nat) (s : State) : WriteCase p v s (portWrite p v s) := by
  cases hs : s.seq with
  | busy w => exact .dropped (by simp [hs]) (fun _ => ⟨w, hs⟩) (portWrite_dropped (by simp [hs]) (fun _ => ⟨w, hs⟩) v)
  | fault =>
    by_cases hp : p = 11
    · subst hp
      exact .reset rfl (by simp [hs]) (portWrite_reset (by simp [hs]) v)
    · exact .dropped (by simp [hs]) (absurd · hp) (portWrite_dropped (by simp [hs]) (absurd · hp) v)
  | idle =>
    rw [portWrite_idle hs]
    have fits := keepAlen_lt_top v s
    match p with
    | 1 => exact .operands (by decide) (by decide) hs rfl ⟨.inr rfl, .inl rfl, .inl rfl, .inl rfl, .inl rfl⟩
    | 2 => exact .operands (by decide) (by decide) hs rfl ⟨.inl rfl, .inr ⟨rfl, fits⟩, .inl rfl, .inl rfl, .inl rfl⟩
    | 3 => exact .operands (by decide) (by decide) hs rfl ⟨.inl rfl, .inl rfl, .inr ⟨rfl, fits⟩, .inl rfl, .inl rfl⟩
    | 4 => exact .operands (by decide) (by decide) hs rfl ⟨.inl rfl, .inl rfl, .inl rfl, .inr ⟨rfl, fits⟩, .inl rfl⟩
    | 5 => exact .operands (by decide) (by decide) hs rfl ⟨.inl rfl, .inl rfl, .inl rfl, .inl rfl, .inr ⟨rfl, fits⟩⟩
    | 10 => exact .issue rfl hs rfl
    | 11 => exact .reset rfl (by simp [hs]) rfl
    | 0 | 6 | 7 | 8 | 9 =>
      exact .operands (by decide) (by decide) hs rfl ⟨.inl rfl, .inl rfl, .inl rfl, .inl rfl, .inl rfl⟩
    | q + 12 =>
      rw [portReg_reserved (by omega)]
      exact .operands (by omega) (by omega) hs rfl ⟨.inl rfl, .inl rfl, .inl rfl, .inl rfl, .inl rfl⟩

section
variable (p v : Nat) (s : State)

@[simp] theorem portWrite_hw : (portWrite p v s).hw = s.hw := by
  rcases portWrite_case p v s with ⟨-, -, e⟩ | ⟨-, -, e⟩ | ⟨-, -, e⟩ | ⟨-, -, -, e, -⟩ <;> rw [e] <;> rfl

@[simp] theorem portWrite_lanes : (portWrite p v s).lanes = s.lanes := by
  rcases portWrite_case p v s with ⟨-, -, e⟩ | ⟨-, -, e⟩ | ⟨-, -, e⟩ | ⟨-, -, -, e, -⟩ <;> rw [e] <;> rfl

@[simp] theorem portWrite_mem : (portWrite p v s).mem = s.mem := by
  rcases portWrite_case p v s with ⟨-, -, e⟩ | ⟨-, -, e⟩ | ⟨-, -, e⟩ | ⟨-, -, -, e, -⟩ <;> rw [e] <;> rfl

end

/-! ### What a step does to the control registers -/

/-- The step from `s` takes a port write (10_state R16). -/
def takesWrite (s : State) : Prop := ∃ p v rest, s.host = .write p v :: rest

/-- Everything a step that answers a next state can do to the control registers, `STATUS` and the fault record. -/
inductive ControlCase (s t : State) : Prop where
  | reset : takesReset s →
      t = resetControl { s with
        lanes := t.lanes, mem := t.mem, host := t.host, freeCtr := t.freeCtr, raced := t.raced } → ControlCase s t
  | turn (w) : unitsTurn s → s.seq = .busy w →
      completed { s with host := s.host.tail } t ∨ Faulted w { s with host := s.host.tail } t → ControlCase s t
  | dropped : ¬takesReset s → takesWrite s → s.seq ≠ .idle → t = { s with host := s.host.tail, ovr := true } →
      ControlCase s t
  | issue (v rest) : s.host = .write 10 v :: rest → s.seq = .idle → t = issue v { s with host := rest } →
      ControlCase s t
  | operands (p v rest) : s.host = .write p v :: rest → p ≠ 10 → p ≠ 11 → s.seq = .idle →
      t = { s with host := rest, cfgW := t.cfgW, nelem := t.nelem, src := t.src, dst := t.dst, idx := t.idx } →
      OperandsOfPort p s t → ControlCase s t
  | quiet : ¬takesReset s → ¬takesWrite s → (unitsTurn s → ∀ w, s.seq ≠ .busy w) →
      t = { s with mem := t.mem, host := t.host, seen := t.seen, freeCtr := t.freeCtr, raced := t.raced } →
      ControlCase s t

/-- The unit's turn takes neither a reset nor a port write. -/
theorem unitsTurn.not_reset {s : State} (h : unitsTurn s) : ¬takesReset s := by
  rcases h with h | ⟨rest, h⟩ <;> simp [takesReset, h]

theorem unitsTurn.not_write {s : State} (h : unitsTurn s) : ¬takesWrite s := by
  rcases h with h | ⟨rest, h⟩ <;> simp [takesWrite, h]

/-- A step falls under one of the control cases. -/
theorem step_controlCase {s t : State} (h : step s = .next t) : ControlCase s t := by
  rcases step_case h with ⟨hu, hs, ht⟩ | ⟨w, i, m, u, hu, hs, hd, hr⟩ | ⟨w, hu, hs, -, ht⟩ | ⟨p, v, rest, hh, ht⟩ |
    ⟨p, rest, hh, ht⟩ | ⟨rest, hh, ht⟩ | ⟨a, b, rest, hh, -, r, ht, -⟩ | ⟨a, rest, hh, n, c, ht⟩
  case wait => exact .quiet hu.not_reset hu.not_write (fun _ => hs) (by rw [ht])
  case run => exact .turn w hu hs (encode_of_decode hd ▸ hr.ends_or_faults)
  case illegal => exact .turn w hu hs (.inr (ht ▸ .takeFault .illegalCmd w { s with host := s.host.tail }))
  case write =>
    rcases ht ▸ portWrite_case p v { s with host := rest } with ⟨hp, hs, ht⟩ | ⟨hs, hp, ht⟩ | ⟨hp, hs, ht⟩ |
      ⟨h10, h11, hs, ht, ho⟩
    case reset => exact .reset (.inr ⟨v, rest, hp ▸ hh, hs⟩) (by rw [ht]; rfl)
    case dropped =>
      refine .dropped ?_ ⟨p, v, rest, hh⟩ hs (by rw [ht, hh]; rfl)
      rintro (⟨_, hr⟩ | ⟨_, _, hr, hb⟩)
      · simp [hh] at hr
      · simp only [hh, List.cons.injEq, HostEvent.write.injEq] at hr
        obtain ⟨w, hw⟩ := hp hr.1.1
        exact hb w hw
    case issue => exact .issue v rest (hp ▸ hh) hs ht
    case operands => exact .operands p v rest hh h10 h11 hs ht ⟨ho.cfgW, ho.nelem, ho.src, ho.dst, ho.idx⟩
  case hardReset => exact .reset (.inl ⟨rest, hh⟩) (by rw [ht]; rfl)
  all_goals exact .quiet (by simp [takesReset, hh]) (by simp [takesWrite, hh]) (by simp [unitsTurn, hh]) (by rw [ht])

end Sys2Proof.Machine
end

section
/-! The register port and the sequencer (10_state R17 to R34). -/

namespace Sys2Proof.Machine

/-! ### The status words as numbers -/

theorem toNat_append_eq_add {m n : Nat} (x : BitVec m) (y : BitVec n) :
    (x ++ y).toNat = x.toNat * 2 ^ n + y.toNat := by
  rw [BitVec.toNat_append, ← Nat.shiftLeft_add_eq_or_of_lt y.isLt, Nat.shiftLeft_eq]

theorem idWord_toNat (hw : Hardware) : (idWord hw).toNat = if hw.lane = .l16 then 0x184 else 0x185 := by
  unfold idWord
  cases hw.lane <;> rfl

theorem cfgWord_toNat (s : State) : (cfgWord s).toNat = s.cfgW.toNat := by
  simp only [cfgWord, toNat_append_eq_add, BitVec.ofNat_eq_ofNat, BitVec.toNat_ofNat]
  omega

theorem statusWord_toNat (s : State) :
    (statusWord s).toNat = s.seq.code.toNat + if s.ovr then 4 else 0 := by
  simp only [statusWord, toNat_append_eq_add, BitVec.ofNat_eq_ofNat, BitVec.toNat_ofNat]
  cases s.ovr with
  | false => simp
  | true => simp; omega

theorem causeWord_toNat (s : State) : (causeWord s).toNat = s.causeCode.toNat + 256 * s.causeFcmd.toNat := by
  simp only [causeWord, toNat_append_eq_add, BitVec.ofNat_eq_ofNat, BitVec.toNat_ofNat]
  omega

theorem portRead_id (s : State) : portRead 0 s = if s.hw.lane = .l16 then 0x184 else 0x185 := idWord_toNat s.hw

theorem portRead_cfg (s : State) : portRead 1 s = s.cfgW.toNat := cfgWord_toNat s

theorem portRead_status (s : State) : portRead 6 s = s.seq.code.toNat + if s.ovr then 4 else 0 := statusWord_toNat s

theorem portRead_cause (s : State) : portRead 7 s = s.causeCode.toNat + 256 * s.causeFcmd.toNat := causeWord_toNat s

/-- `CMD`, `RESET` and the reserved ports read 0 (10_state R27 to R29). -/
theorem portRead_of_ten_le {p : Nat} (h : 10 ≤ p) (s : State) : portRead p s = 0 := by
  rcases (by omega : p = 10 ∨ p = 11 ∨ 12 ≤ p) with rfl | rfl | hp
  · rfl
  · rfl
  · simp [portRead, portReg_reserved hp]

/-- What the ports but `STATUS` read is fixed by the parameters, the operand registers, the fault record and
`CMDCNT`. -/
theorem portRead_congr {s t : State} (hc : sameControl s t) (hcode : t.causeCode = s.causeCode)
    (hword : t.causeFcmd = s.causeFcmd) (haddr : t.faddr = s.faddr) (hcnt : t.cmdcnt = s.cmdcnt) {p : Nat}
    (hp : p ≠ 6) : portRead p t = portRead p s := by
  obtain ⟨hhw, hw, hn, hs, hd, hx⟩ := hc
  unfold portRead
  cases hr : portReg p with
  | status => exact absurd (by unfold portReg at hr; split at hr <;> simp_all) hp
  | _ => simp only [cfgWord, causeWord, hhw, hw, hn, hs, hd, hx, hcode, hword, haddr, hcnt]

/-! ### Steps that take a port write -/

/-- A dropped write changes nothing but `OVR` (10_state R34). -/
theorem step_write_dropped {s : State} {p v : Nat} {rest : List HostEvent} (h : s.host = .write p v :: rest)
    (hs : s.seq ≠ .idle) (hp : p = 11 → ∃ w, s.seq = .busy w) :
    step s = .next { s with host := rest, ovr := true } := by
  rw [step_write h, portWrite_dropped (s := { s with host := rest }) hs hp v]
  rfl

theorem step_write_idle {s : State} {p v : Nat} {rest : List HostEvent} (h : s.host = .write p v :: rest)
    (hs : s.seq = .idle) : step s = .next (idleWrite (portReg p) v { s with host := rest }) := by
  rw [step_write h, portWrite_idle (s := { s with host := rest }) hs]

/-- A port whose register ignores writes (10_state R17, R29). -/
theorem step_write_ignored {s : State} {p v : Nat} {rest : List HostEvent} (h : s.host = .write p v :: rest)
    (hp : portReg p = .id ∨ portReg p = .reserved) :
    (s.seq = .idle → step s = .next { s with host := rest }) ∧
    (s.seq ≠ .idle → step s = .next { s with host := rest, ovr := true }) := by
  constructor
  · intro hs
    rw [step_write_idle h hs]
    rcases hp with hp | hp <;> rw [hp] <;> rfl
  · intro hs
    refine step_write_dropped h hs ?_
    rintro rfl
    simp [portReg] at hp

/-- A unit that is and stays `BUSY` on a word changes nothing a port but `STATUS` shows (10_state R27, R34). -/
theorem step_busy_keeps {s t : State} {w : Byte} (hs : s.seq = .busy w) (h : step s = .next t) (ht : t.seq = .busy w) :
    sameControl s t ∧ t.causeCode = s.causeCode ∧ t.causeFcmd = s.causeFcmd ∧ t.faddr = s.faddr ∧
      t.cmdcnt = s.cmdcnt := by
  rcases step_controlCase h with ⟨-, e⟩ | ⟨w', -, -, hc | hf⟩ | ⟨-, -, -, e⟩ | ⟨v, rest, -, hi, -⟩ |
    ⟨p, v, rest, -, -, -, hi, -⟩ | ⟨-, -, -, e⟩
  case reset => rw [e] at ht; simp at ht
  case turn.inl => simp [hc.1] at ht
  case turn.inr => simp [hf.seq] at ht
  case dropped => rw [e]; exact ⟨⟨rfl, rfl, rfl, rfl, rfl, rfl⟩, rfl, rfl, rfl, rfl⟩
  case issue => simp [hi] at hs
  case operands => simp [hi] at hs
  case quiet => rw [e]; exact ⟨⟨rfl, rfl, rfl, rfl, rfl, rfl⟩, rfl, rfl, rfl, rfl⟩

/-! ### The statements about the port -/

/-- Settles O5: the write is `issue`, or `setOvr`, and a busy unit keeps its operands by the cases of a step. -/
theorem cmdWriteIssuesACommand : Obligations.CmdWriteIssuesACommand := by
  unfold Obligations.CmdWriteIssuesACommand
  refine ⟨fun s v rest h => ⟨fun hs => step_write_idle h hs, fun hs => step_write_dropped h hs (by simp)⟩, ?_,
    portRead_of_ten_le le_rfl⟩
  intro s t w hs h ht
  exact (step_busy_keeps hs h ht).1

/-- Settles O6: each write is its arm of `idleWrite`, and a value below `2^ALEN` is kept whole. -/
theorem idleWritesSetTheOperandRegisters : Obligations.IdleWritesSetTheOperandRegisters := by
  unfold Obligations.IdleWritesSetTheOperandRegisters
  intro s v rest hs
  constructor
  · intro h
    have hstep := step_write_idle h hs
    refine ⟨hstep, fun t ht => ?_⟩
    obtain rfl := Host.Outcome.next.inj (hstep.symm.trans ht)
    exact (portRead_cfg _).trans (BitVec.toNat_ofNat v 4)
  · intro hv
    have keeps : keepAlen v { s with host := rest } = v := Nat.mod_eq_of_lt hv
    have reads : ∀ {p : Nat} {u : State}, step s = .next u → portRead p u = v →
        step s = .next u ∧ ∀ t, step s = .next t → portRead p t = v := by
      intro p u hu hr
      refine ⟨hu, fun t ht => ?_⟩
      obtain rfl := Host.Outcome.next.inj (hu.symm.trans ht)
      exact hr
    refine ⟨fun h => reads ?_ rfl, fun h => reads ?_ rfl, fun h => reads ?_ rfl, fun h => reads ?_ rfl⟩ <;>
      rw [step_write_idle h hs] <;> simp only [portReg, idleWrite, keeps]

/-- Settles O7. -/
theorem idIsConstantAndIgnoresWrites : Obligations.IdIsConstantAndIgnoresWrites := by
  unfold Obligations.IdIsConstantAndIgnoresWrites
  exact fun s => ⟨portRead_id s, fun v rest h => step_write_ignored h (.inl rfl)⟩

/-- Settles O9: a reserved port's register is `reserved`, and each word's reserved bits are literal zeros. -/
theorem reservedPortsAndBits : Obligations.ReservedPortsAndBits := by
  unfold Obligations.ReservedPortsAndBits
  refine ⟨fun s p v rest hp => ⟨portRead_of_ten_le (by omega) s, fun h =>
    step_write_ignored h (.inr (portReg_reserved hp))⟩, fun s => ?_⟩
  rw [portRead_id, portRead_cfg, portRead_status, portRead_cause]
  have hcode := s.causeCode.isLt
  have hword := s.causeFcmd.isLt
  have hstate := s.seq.code.isLt
  refine ⟨by split <;> decide, s.cfgW.isLt, by split <;> omega, by omega, by omega, fun v => ?_⟩
  have hcfg : BitVec.ofNat 4 (v % 2 ^ 4) = BitVec.ofNat 4 v := BitVec.eq_of_toNat_eq (by simp)
  have hcmd : commandWord (v % 2 ^ 8) = commandWord v := BitVec.eq_of_toNat_eq (by simp [commandWord])
  cases hs : s.seq with
  | idle => simp only [portWrite_idle hs, portReg, idleWrite, issue, hcfg, hcmd, and_self]
  | busy w => simp [portWrite, hs]
  | fault => simp [portWrite, hs, portReg]

/-- Settles O10: the dropped write is `setOvr`; a busy unit keeps its readings by the cases of a step. -/
theorem writesAreDroppedWhenNotIdle : Obligations.WritesAreDroppedWhenNotIdle := by
  unfold Obligations.WritesAreDroppedWhenNotIdle
  refine ⟨fun s p v rest h => ⟨?_, fun hs t ht hovr => ?_⟩, fun s p rest h => ?_,
    fun s t w hs => ⟨?_, fun h ht p hp => ?_⟩⟩
  · rintro (⟨w, hs⟩ | ⟨hs, hp⟩)
    · exact step_write_dropped h (by simp [hs]) fun _ => ⟨w, hs⟩
    · exact step_write_dropped h (by simp [hs]) (absurd · hp)
  · rw [step_write h] at ht
    obtain rfl := Host.Outcome.next.inj ht
    rcases portWrite_case p v { s with host := rest } with ⟨-, -, e⟩ | ⟨hi, -⟩ | ⟨-, -, e⟩ |
      ⟨-, -, -, e, -⟩
    · rw [e] at hovr; simp at hovr
    · exact absurd hs hi
    · rw [e] at hovr; exact hovr
    · rw [e] at hovr; exact hovr
  · rw [step_cons h]; rfl
  · rw [portRead_status, hs, Sequencer.code]; split <;> rfl
  · obtain ⟨hc, hcode, hword, haddr, hcnt⟩ := step_busy_keeps hs h ht
    exact portRead_congr hc hcode hword haddr hcnt hp

/-- Settles O15: the write is `softReset`, or dropped. -/
theorem softResetKeepsLanesAndMemory : Obligations.SoftResetKeepsLanesAndMemory := by
  unfold Obligations.SoftResetKeepsLanesAndMemory
  refine ⟨fun s v rest h => ⟨fun hs => ?_, fun ⟨w, hs⟩ => step_write_dropped h (by simp [hs]) fun _ => ⟨w, hs⟩⟩,
    portRead_of_ten_le (by decide)⟩
  rw [step_write h, portWrite_reset (s := { s with host := rest }) hs v]
  rfl

/-- What the ports read of a state whose control registers hold their reset values (10_state R33). -/
theorem portRead_resetControl (s : State) :
    portRead 1 (resetControl s) = 4 ∧ portRead 2 (resetControl s) = 0 ∧ portRead 3 (resetControl s) = 0 ∧
    portRead 4 (resetControl s) = 0 ∧ portRead 5 (resetControl s) = 0 ∧ portRead 6 (resetControl s) = 0 ∧
    portRead 7 (resetControl s) = 0 ∧ portRead 8 (resetControl s) = 0 ∧ portRead 9 (resetControl s) = 0 ∧
    portRead 0 (resetControl s) = (if (resetControl s).hw.lane = .l16 then 0x184 else 0x185) ∧
    ∀ p, 10 ≤ p → portRead p (resetControl s) = 0 :=
  ⟨portRead_cfg _, rfl, rfl, rfl, rfl, portRead_status _, portRead_cause _, rfl, rfl, portRead_id _,
    fun _ hp => portRead_of_ten_le hp _⟩

/-- The state at launch is its own reset. -/
theorem resetControl_resetOf (hw : Hardware) : resetControl (State.resetOf hw) = State.resetOf hw := rfl

/-- Settles O14: every reset leaves the control registers as `resetControl` does. -/
theorem resetValuesAreTheTable : Obligations.ResetValuesAreTheTable := by
  unfold Obligations.ResetValuesAreTheTable
  rintro s u (⟨hw, rfl⟩ | rfl | rfl)
  · rw [← resetControl_resetOf]; exact portRead_resetControl _
  · exact portRead_resetControl _
  · exact portRead_resetControl _

end Sys2Proof.Machine
end

section
/-! The sequencer, the fault record and `CMDCNT` over a step (10_state R22 to R26). -/

namespace Sys2Proof.Machine

/-! ### Resets and port writes, read off the schedule -/

/-- A step that takes a port write takes a reset exactly when the write is to `RESET` of a unit not `BUSY`. -/
theorem takesReset_of_write {s : State} {p v : Nat} {rest : List HostEvent} (h : s.host = .write p v :: rest) :
    takesReset s ↔ p = 11 ∧ ∀ w, s.seq ≠ .busy w := by
  simp only [takesReset, h, List.cons.injEq, reduceCtorEq, false_and, exists_false, false_or, HostEvent.write.injEq]
  exact ⟨fun ⟨_, _, ⟨⟨hp, _⟩, _⟩, hs⟩ => ⟨hp, hs⟩, fun ⟨hp, hs⟩ => ⟨v, rest, ⟨⟨hp, rfl⟩, rfl⟩, hs⟩⟩

theorem not_takesReset_of_write {s : State} {p v : Nat} {rest : List HostEvent} (h : s.host = .write p v :: rest)
    (hp : p ≠ 11) : ¬takesReset s := fun hr => hp ((takesReset_of_write h).mp hr).1

/-! ### The control cases, by what the step takes -/

/-- A reset gives every control register its reset value (10_state R33). -/
theorem step_resets {s t : State} (h : step s = .next t) (hr : takesReset s) : t = resetControl { s with
    lanes := t.lanes, mem := t.mem, host := t.host, freeCtr := t.freeCtr, raced := t.raced } := by
  rcases step_controlCase h with ⟨-, e⟩ | ⟨w, hu, -⟩ | ⟨hn, -⟩ | ⟨v, rest, hh, -⟩ |
    ⟨p, v, rest, hh, -, hp, -⟩ | ⟨hn, -⟩
  case reset => exact e
  case turn => exact absurd hr hu.not_reset
  case dropped => exact absurd hr hn
  case issue => exact absurd hr (not_takesReset_of_write hh (by decide))
  case operands => exact absurd hr (not_takesReset_of_write hh hp)
  case quiet => exact absurd hr hn

/-- The turn of a busy unit ends its command (10_state R22). -/
theorem step_turn_busy {s t : State} {w : Byte} (h : step s = .next t) (hu : unitsTurn s) (hs : s.seq = .busy w) :
    completed { s with host := s.host.tail } t ∨ Faulted w { s with host := s.host.tail } t := by
  rcases step_controlCase h with ⟨hr, -⟩ | ⟨w', -, hw, he⟩ | ⟨-, hw, -⟩ | ⟨v, rest, -, hi, -⟩ |
    ⟨p, v, rest, -, -, -, hi, -⟩ | ⟨-, -, hw, -⟩
  case reset => exact absurd hr hu.not_reset
  case turn => obtain rfl := Sequencer.busy.inj (hs.symm.trans hw); exact he
  case dropped => exact absurd hw hu.not_write
  case issue => simp [hi] at hs
  case operands => simp [hi] at hs
  case quiet => exact absurd hs (hw hu w)

/-- With no reset and no turn of a busy unit, `STATE` changes by the issue of a command only (10_state R22, R27). -/
theorem step_seq {s t : State} (h : step s = .next t) (hr : ¬takesReset s) (hb : unitsTurn s → ∀ w, s.seq ≠ .busy w) :
    (t.seq = s.seq ∧ (s.seq = .idle → ∀ v rest, s.host ≠ .write 10 v :: rest)) ∨
    ∃ v rest, s.host = .write 10 v :: rest ∧ s.seq = .idle ∧ t.seq = .busy (commandWord v) := by
  rcases step_controlCase h with ⟨hr', -⟩ | ⟨w, hu, hw, -⟩ | ⟨-, -, hs, e⟩ | ⟨v, rest, hh, hi, e⟩ |
    ⟨p, v, rest, hh, hp, -, -, e, -⟩ | ⟨-, hw, -, e⟩
  case reset => exact absurd hr' hr
  case turn => exact absurd hw (hb hu w)
  case dropped => exact .inl ⟨by rw [e], (absurd · hs)⟩
  case issue => exact .inr ⟨v, rest, hh, hi, by rw [e]; rfl⟩
  case operands => exact .inl ⟨by rw [e], fun _ v' rest' hh' =>
    hp (HostEvent.write.inj (List.cons.inj (hh.symm.trans hh')).1).1⟩
  case quiet => exact .inl ⟨by rw [e], fun _ v rest hh => hw ⟨10, v, rest, hh⟩⟩

/-- With no reset, `OVR` is set by a write while not `IDLE`, and by nothing else (10_state R34). -/
theorem step_ovr {s t : State} (h : step s = .next t) (hr : ¬takesReset s) :
    t.ovr = true ↔ s.ovr = true ∨ (s.seq ≠ .idle ∧ takesWrite s) := by
  rcases step_controlCase h with ⟨hr', -⟩ | ⟨w, hu, -, ⟨-, -, -, ⟨ho, -⟩, -⟩ | hf⟩ | ⟨-, hw, hs, e⟩ |
    ⟨v, rest, -, hi, e⟩ | ⟨p, v, rest, -, -, -, hi, e, -⟩ | ⟨-, hw, -, e⟩
  case reset => exact absurd hr' hr
  case turn.inl => simp [ho, hu.not_write]
  case turn.inr => simp [hf.ovr, hu.not_write]
  case dropped => rw [e]; simp [hs, hw]
  case issue => rw [e]; simp [hi]
  case operands => rw [e]; simp [hi]
  case quiet => rw [e]; simp [hw]

/-! ### The transitions of `STATE` (10_state R22) -/

theorem step_reset_seq {s t : State} (h : step s = .next t) (hr : takesReset s) : t.seq = .idle := by
  rw [step_resets h hr]; rfl

/-- `IDLE` is left by a write to `CMD` only. -/
theorem step_from_idle {s t : State} (h : step s = .next t) (hs : s.seq = .idle) :
    t.seq = .idle ∨ ∃ v rest, s.host = .write 10 v :: rest ∧ t.seq = .busy (commandWord v) := by
  by_cases hr : takesReset s
  · exact .inl (step_reset_seq h hr)
  · rcases step_seq h hr (by simp [hs]) with ⟨e, -⟩ | ⟨v, rest, hh, -, e⟩
    · exact .inl (e.trans hs)
    · exact .inr ⟨v, rest, hh, e⟩

/-- `BUSY` is left by the end of the command or a reset only. -/
theorem step_from_busy {s t : State} {w : Byte} (h : step s = .next t) (hs : s.seq = .busy w) :
    t.seq = .busy w ∨ (unitsTurn s ∧ (t.seq = .idle ∨ t.seq = .fault)) ∨ (takesReset s ∧ t.seq = .idle) := by
  by_cases hr : takesReset s
  · exact .inr (.inr ⟨hr, step_reset_seq h hr⟩)
  by_cases hu : unitsTurn s
  · exact .inr (.inl ⟨hu, (step_turn_busy h hu hs).imp (·.1) (·.seq)⟩)
  · rcases step_seq h hr (absurd · hu) with ⟨e, -⟩ | ⟨-, -, -, hi, -⟩
    · exact .inl (e.trans hs)
    · simp [hi] at hs

/-- `FAULT` is left by a reset only (60_exceptions R148). -/
theorem step_from_fault {s t : State} (h : step s = .next t) (hs : s.seq = .fault) :
    t.seq = .fault ∨ (takesReset s ∧ t.seq = .idle) := by
  by_cases hr : takesReset s
  · exact .inr ⟨hr, step_reset_seq h hr⟩
  · rcases step_seq h hr (by simp [hs]) with ⟨e, -⟩ | ⟨-, -, -, hi, -⟩
    · exact .inl (e.trans hs)
    · simp [hi] at hs

/-! ### The statements -/

/-- Settles O11, from what a step does on a reset, in the turn of a busy unit, and otherwise. -/
theorem statusFieldsAndTransitions : Obligations.StatusFieldsAndTransitions := by
  unfold Obligations.StatusFieldsAndTransitions
  refine ⟨fun s => ?_, fun s t h => ⟨step_from_idle h, fun w => step_from_busy h, step_from_fault h,
    fun hs v rest hh => ?_, fun w hs hu => ?_, fun hr => ⟨step_reset_seq h hr, ?_⟩, step_ovr h⟩⟩
  · rw [portRead_status]
    cases s.seq <;> rfl
  · rcases step_seq h (not_takesReset_of_write hh (by decide)) (by simp [hs]) with ⟨-, hn⟩ | ⟨v', rest', hh', -, e⟩
    · exact absurd hh (hn hs v rest)
    · obtain ⟨rfl, -⟩ : v = v' ∧ rest = rest' := by simpa using hh.symm.trans hh'
      exact e
  · rcases step_turn_busy h hu hs with ⟨hi, -, -, ⟨-, hcode, -⟩, -⟩ | hf
    · exact .inl ⟨hi, hcode⟩
    · obtain ⟨k, hk⟩ := hf.code
      exact .inr ⟨hf.seq, hk ▸ k.code_ne_zero, hf.word⟩
  · rw [step_resets h hr]; rfl

/-- Settles O8: fault entry and the resets are the only cases of a step that write the record. -/
theorem causeAndFaddrAreWrittenOnlyByFaultAndReset : Obligations.CauseAndFaddrAreWrittenOnlyByFaultAndReset := by
  unfold Obligations.CauseAndFaddrAreWrittenOnlyByFaultAndReset
  refine ⟨fun s => ⟨portRead_cause s, rfl⟩, fun s t h => ?_⟩
  rcases step_controlCase h with ⟨hr, e⟩ | ⟨w, hu, hs, ⟨-, -, -, ⟨-, hrec⟩, -⟩ | hf⟩ | ⟨-, -, -, e⟩ |
    ⟨v, rest, -, -, e⟩ | ⟨p, v, rest, -, -, -, -, e, -⟩ | ⟨-, -, -, e⟩
  case reset => exact .inr (.inl ⟨hr, by rw [e]; exact ⟨rfl, rfl, rfl⟩⟩)
  case turn.inl => exact .inl hrec
  case turn.inr => exact .inr (.inr ⟨hu, w, hs, hf.seq, hf.word, hf.addr⟩)
  all_goals exact .inl (by rw [e]; exact ⟨rfl, rfl, rfl⟩)

/-- Settles O12: only `complete` counts, and only a reset clears. -/
theorem cmdcntCountsCommandsThatEnd : Obligations.CmdcntCountsCommandsThatEnd := by
  unfold Obligations.CmdcntCountsCommandsThatEnd
  refine ⟨fun s => rfl, fun s t h => ?_⟩
  rcases step_controlCase h with ⟨hr, e⟩ | ⟨w, hu, hs, ⟨hi, hcnt, -⟩ | hf⟩ | ⟨hr, -, hs, e⟩ | ⟨v, rest, hh, hs, e⟩ |
    ⟨p, v, rest, hh, -, hp, hs, e, -⟩ | ⟨hr, -, hu, e⟩
  case reset => exact ⟨fun _ => by rw [e]; rfl, (absurd hr ·), (absurd hr ·)⟩
  case turn.inl =>
    refine ⟨fun hr => absurd hr hu.not_reset, fun _ _ _ => ?_, fun _ hn => ?_⟩
    · rw [hcnt]; exact BitVec.toNat_add _ _
    · simp [hs, hi] at hn
  case turn.inr => exact ⟨fun hr => absurd hr hu.not_reset, fun _ _ ht => by simp [hf.seq] at ht, fun _ _ => hf.cmdcnt⟩
  case dropped =>
    refine ⟨(absurd · hr), fun _ ⟨w, hb⟩ ht => ?_, fun _ _ => by rw [e]⟩
    rw [e] at ht; simp [hb] at ht
  case issue =>
    exact ⟨(absurd · (not_takesReset_of_write hh (by decide))), fun _ ⟨w, hb⟩ => by simp [hs] at hb,
      fun _ _ => by rw [e]; rfl⟩
  case operands =>
    exact ⟨(absurd · (not_takesReset_of_write hh hp)), fun _ ⟨w, hb⟩ => by simp [hs] at hb, fun _ _ => by rw [e]⟩
  case quiet =>
    refine ⟨(absurd · hr), fun _ ⟨w, hb⟩ ht => ?_, fun _ _ => by rw [e]⟩
    rw [e] at ht; simp [hb] at ht

end Sys2Proof.Machine
end

section
/-! What a step changes in lane registers and memory, and the invariant (10_state R13, R15, R31; 60_exceptions R148). -/

namespace Sys2Proof.Machine

/-! ### Commands that write no memory, and commands that write no lane register -/

/-- What a command would write is inside the address space, and the command is one of those that store. -/
theorem wouldWrite_bound {i : Instr} {s : State} {e : Nat × Byte} (h : e ∈ wouldWrite i s) :
    e.1 < s.hw.top ∧ i ∈ ([.stp, .ste, .sce, .scd, .enc, .dec] : List Instr) := by
  obtain ⟨hc, hs⟩ := wouldWrite_stores h
  obtain ⟨-, ⟨-, hdst, -⟩, -⟩ := id hc
  refine ⟨lt_of_lt_of_le (stores_bound hc hs).2 hdst, ?_⟩
  cases i
  case stp | ste | sce | scd | enc | dec => decide
  all_goals exact hs.elim

theorem pendingWrites_mem {s : State} {e : Nat × Byte} (h : e ∈ pendingWrites s) :
    ∃ w i, s.seq = .busy w ∧ decode w = some i ∧ e ∈ wouldWrite i s := by
  unfold pendingWrites at h
  split at h
  · next w hs =>
    cases hd : decode w with
    | none => simp [hd] at h
    | some i => exact ⟨w, i, hs, hd, by simpa [hd] using h⟩
  · simp at h
  · simp at h

/-- Block stores and scalar moves write no lane register (10_state R13). -/
theorem memoryPlan_keep {i : Instr} {need : IndexNeed} {plan : State → Plan} (hp : memoryPlan i = some (need, plan))
    (hi : i ∈ ([.stp, .ste, .sce, .scd] : List Instr)) (s : State) : (plan s).lanes = .keep := by
  cases i
  case stp | ste | sce | scd => cases hp; rfl
  all_goals exact absurd hi (by decide)

theorem exec_keeps_lanes {i : Instr} (hi : i ∈ ([.stp, .ste, .sce, .scd] : List Instr)) {s t : State}
    (h : exec i s = .next t) : t.lanes = s.lanes := by
  rcases primitive_or_memory i with ⟨f, -, hp, -⟩ | ⟨need, plan, hp, -⟩
  · cases i <;> simp [memoryPlan] at hi hp
  · have keep := memoryPlan_keep hp hi s
    rcases exec_memory_cases hp h with ⟨k, -, rfl⟩ | ⟨-, -, rfl⟩ | ⟨-, -, rfl⟩
    · rw [checkFault_eq_takeFault (by simp [keep]), takeFault_lanes]
    · rw [finishPlan_lanes, keep]; rfl
    · rw [accessFault_lanes, keep]; rfl

/-! ### Lane registers and memory over a step -/

/-- Only a hardware reset and a command that runs can change the lane registers. -/
theorem step_lanes {s t : State} (h : step s = .next t) : t.lanes = s.lanes ∨
    ((∃ rest, s.host = .hardReset :: rest) ∧ t.lanes = scrambleLanes s.hw s.freeCtr numLanes s.lanes) ∨
    (unitsTurn s ∧ ∃ w i r u, s.seq = .busy w ∧ decode w = some i ∧ r.hw = s.hw ∧ r.lanes = s.lanes ∧
      exec i r = .next u ∧ t.lanes = u.lanes) := by
  rcases step_case h with ⟨-, -, ht⟩ | ⟨w, i, m, u, hu, hs, hd, hr⟩ | ⟨w, -, -, -, ht⟩ | ⟨p, v, rest, -, ht⟩ |
    ⟨p, rest, -, ht⟩ | ⟨rest, hh, ht⟩ | ⟨a, b, rest, -, -, r, ht, -⟩ | ⟨a, rest, -, n, c, ht⟩
  case run =>
    obtain ⟨c, hx⟩ := hr.ran
    exact .inr (.inr ⟨hu, w, i, _, u, hs, hd, by rfl, by rfl, hx, by rw [hr.ends]⟩)
  case write => exact .inl ((congrArg State.lanes ht).trans (portWrite_lanes p v _))
  case hardReset => exact .inr (.inl ⟨⟨rest, hh⟩, congrArg State.lanes ht⟩)
  all_goals exact .inl (congrArg State.lanes ht :)

/-- The step from `s` may write the byte `e.2` at `e.1`: the host does, or the running command would. -/
def mayWrite (s : State) (e : Nat × Byte) : Prop :=
  (e.1 < s.hw.top ∧ ∃ rest, s.host = .poke e.1 e.2 :: rest) ∨
  (unitsTurn s ∨ ∃ rest, s.host = .hardReset :: rest) ∧
    ∃ w i r, s.seq = .busy w ∧ decode w = some i ∧ r.hw = s.hw ∧ e ∈ wouldWrite i r

theorem mayWrite.lt_top {s : State} {e : Nat × Byte} (h : mayWrite s e) : e.1 < s.hw.top := by
  rcases h with ⟨ha, -⟩ | ⟨-, w, i, r, -, -, hr, he⟩
  · exact ha
  · exact hr ▸ (wouldWrite_bound he).1

/-- Memory after a step: memory before, with some of the bytes the step may write. -/
theorem step_mem {s t : State} (h : step s = .next t) :
    ∃ ws, t.mem = s.mem.writeAll ws ∧ ∀ e ∈ ws, mayWrite s e := by
  rcases step_case h with ⟨-, -, ht⟩ | ⟨w, i, m, u, hu, hs, hd, hr⟩ | ⟨w, -, -, -, ht⟩ | ⟨p, v, rest, -, ht⟩ |
    ⟨p, rest, -, ht⟩ | ⟨rest, hh, ht⟩ | ⟨a, b, rest, hh, ha, r, ht, -⟩ | ⟨a, rest, -, n, c, ht⟩
  case run =>
    obtain ⟨ws, hm, hws⟩ := hr.writes
    exact ⟨ws, hm, fun e he => .inr ⟨.inl hu, w, i, _, hs, hd, by rfl, hws e he⟩⟩
  case write => exact ⟨[], (congrArg State.mem ht).trans (portWrite_mem p v _), by simp⟩
  case hardReset =>
    refine ⟨_, congrArg State.mem ht, fun e he => .inr ⟨.inr ⟨rest, hh⟩, ?_⟩⟩
    obtain ⟨w, i, hs, hd, hw⟩ := pendingWrites_mem (List.mem_of_mem_filter he)
    exact ⟨w, i, _, hs, hd, by rfl, hw⟩
  case poke =>
    refine ⟨[(a, b)], congrArg State.mem ht, fun e he => .inl ?_⟩
    obtain rfl := List.mem_singleton.mp he
    exact ⟨ha, rest, hh⟩
  all_goals exact ⟨[], (congrArg State.mem ht :), by simp⟩

/-- No step changes the parameters (00_scope R5). -/
theorem step_hw {s t : State} (h : step s = .next t) : t.hw = s.hw := by
  rcases step_controlCase h with ⟨-, e⟩ | ⟨w, -, -, ⟨-, -, ⟨hc, -⟩, -⟩ | hf⟩ | ⟨-, -, -, e⟩ | ⟨v, rest, -, -, e⟩ |
    ⟨p, v, rest, -, -, -, -, e, -⟩ | ⟨-, -, -, e⟩
  case turn.inl => exact hc
  case turn.inr => exact hf.control.1
  all_goals exact (congrArg State.hw e :)

/-- Each operand register of `t` is as in `s`, or an idle write to its own port gave it a value that fits it. -/
structure OperandsFollow (s t : State) : Prop where
  cfgW : t.cfgW = s.cfgW ∨ idleWriteTo 1 s
  nelem : t.nelem = s.nelem ∨ idleWriteTo 2 s ∧ t.nelem < s.hw.top
  src : t.src = s.src ∨ idleWriteTo 3 s ∧ t.src < s.hw.top
  dst : t.dst = s.dst ∨ idleWriteTo 4 s ∧ t.dst < s.hw.top
  idx : t.idx = s.idx ∨ idleWriteTo 5 s ∧ t.idx < s.hw.top

theorem OperandsFollow.of_sameControl {s t : State} (h : sameControl s t) : OperandsFollow s t :=
  have ⟨_, hw, hn, hs, hd, hx⟩ := h
  ⟨.inl hw, .inl hn, .inl hs, .inl hd, .inl hx⟩

/-- With no reset, an operand register changes only by an idle write to its own port (10_state R16, R18 to R21). -/
theorem step_operands {s t : State} (h : step s = .next t) (hr : ¬takesReset s) :
    OperandsFollow s t := by
  rcases step_controlCase h with ⟨hr', -⟩ | ⟨w, -, -, ⟨-, -, hc, -⟩ | hf⟩ | ⟨-, -, -, e⟩ | ⟨v, rest, -, -, e⟩ |
    ⟨p, v, rest, hh, -, -, hi, -, ho⟩ | ⟨-, -, -, e⟩
  case reset => exact absurd hr' hr
  case turn.inl => exact .of_sameControl hc
  case turn.inr => exact .of_sameControl hf.control
  case operands =>
    have own : ∀ {q : Nat}, p = q → idleWriteTo q s := fun hq => ⟨hi, v, rest, hq ▸ hh⟩
    exact ⟨ho.cfgW.imp_right own, ho.nelem.imp_right (.imp_left own), ho.src.imp_right (.imp_left own),
      ho.dst.imp_right (.imp_left own), ho.idx.imp_right (.imp_left own)⟩
  all_goals exact .of_sameControl (by rw [e]; exact ⟨rfl, rfl, rfl, rfl, rfl, rfl⟩)

/-- Settles O44, from what a step does to lane registers, to memory and to the operand registers. -/
theorem lanesAndMemoryChangeOnlyAsListed : Obligations.LanesAndMemoryChangeOnlyAsListed := by
  unfold Obligations.LanesAndMemoryChangeOnlyAsListed
  intro s t h
  have changed : ∀ {same own P : Prop}, (¬takesReset s → same ∨ own) → (own → P) → ¬same → takesReset s ∨ P :=
    fun hown hP hne => or_iff_not_imp_left.mpr fun hr => hP ((hown hr).resolve_left hne)
  have ops := step_operands h
  refine ⟨step_hw h, changed (ops · |>.cfgW) id, changed (ops · |>.nelem) And.left, changed (ops · |>.src) And.left,
    changed (ops · |>.dst) And.left, changed (ops · |>.idx) And.left, fun hl => ?_, fun hm => ?_⟩
  · rcases step_lanes h with e | ⟨hh, -⟩ | ⟨hu, w, i, r, u, hs, hd, -, hrl, hx, e⟩
    · exact absurd e hl
    · exact .inl hh
    · refine .inr ⟨hu, w, i, hs, hd, fun hi => hl ?_⟩
      rw [e, exec_keeps_lanes hi hx, hrl]
  · obtain ⟨ws, e, hws⟩ := step_mem h
    have hne : ws ≠ [] := by rintro rfl; exact hm e
    obtain ⟨w, hw⟩ := List.exists_mem_of_ne_nil ws hne
    rcases hws w hw with ⟨-, rest, hh⟩ | ⟨ht, w, i, r, hs, hd, -, he⟩
    · exact .inl ⟨_, _, rest, hh⟩
    · exact .inr ⟨w, i, hs, hd, (wouldWrite_bound he).2, ht⟩

/-! ### The invariant -/

/-- A memory command that a host write may race is running exactly where the model says so. -/
theorem memoryBusy_iff {s : State} :
    memoryBusy s = true ↔ ∃ w i, s.seq = .busy w ∧ decode w = some i ∧ i.isMemory = true := by
  cases hs : s.seq with
  | busy w => cases hd : decode w <;> simp [memoryBusy, hs, hd]
  | idle => simp [memoryBusy, hs]
  | fault => simp [memoryBusy, hs]

theorem racesWf_of_nil {s : State} (h : s.raced = []) : racesWf s := by simp [racesWf, h]

theorem racesWf.nil_of_not_running {s : State} (h : racesWf s)
    (hn : ∀ w i, s.seq = .busy w → decode w = some i → i.isMemory = false) : s.raced = [] := by
  by_contra hr
  obtain ⟨w, i, hs, hd, hm⟩ := h.1 hr
  simp [hn w i hs hd] at hm

theorem exec_hw {i : Instr} {s t : State} (h : exec i s = .next t) : t.hw = s.hw := by
  rcases exec_ends h with ⟨-, -, ⟨hc, -⟩, -⟩ | hf
  · exact hc
  · exact hf.control.1

/-- Every step keeps 8 lane registers of `L` bytes (10_state R10). -/
theorem step_lanesWf {s t : State} (hl : lanesWf s) (h : step s = .next t) : lanesWf t := by
  unfold lanesWf State.laneBytes
  rw [step_hw h]
  rcases step_lanes h with e | ⟨-, e⟩ | ⟨-, w, i, r, u, -, -, hhw, hlanes, hx, e⟩
  · rw [e]; exact hl
  · rw [e]; exact ⟨by rw [scrambleLanes_length hl.1.ge, hl.1], scrambleLanes_lengths hl.2⟩
  · have hr : lanesWf r := by unfold lanesWf State.laneBytes; rw [hhw, hlanes]; exact hl
    have hu := exec_lanesWf hr hx
    rw [lanesWf, State.laneBytes, exec_hw hx, hhw] at hu
    rw [e]; exact hu

/-- Every step keeps `FADDR` below `2^ALEN` (10_state R26). -/
theorem step_faddr_lt {s t : State} (h : step s = .next t) (ha : s.faddr < s.hw.top) : t.faddr < s.hw.top := by
  rcases step_controlCase h with ⟨-, e⟩ | ⟨w, -, -, ⟨-, -, -, ⟨-, -, -, hd⟩, -⟩ | hf⟩ | ⟨-, -, -, e⟩ |
    ⟨v, rest, -, -, e⟩ | ⟨p, v, rest, -, -, -, -, e, -⟩ | ⟨-, -, -, e⟩
  case reset => rw [e]; exact top_pos s.hw
  case turn.inl => rw [hd]; exact ha
  case turn.inr => exact hf.addr_lt
  all_goals rw [e]; exact ha

/-- Every step keeps the `ALEN`-bit registers below `2^ALEN` (10_state R16). -/
theorem step_registersFit {s t : State} (hf : registersFit s) (h : step s = .next t) : registersFit t := by
  obtain ⟨hn, hs, hd, hx, ha⟩ := hf
  unfold registersFit
  rw [step_hw h]
  by_cases hr : takesReset s
  · have top := top_pos s.hw
    rw [step_resets h hr]
    exact ⟨top, top, top, top, top⟩
  · have ops := step_operands h hr
    refine ⟨?_, ?_, ?_, ?_, step_faddr_lt h ha⟩
    · exact ops.nelem.elim (fun e => e ▸ hn) And.right
    · exact ops.src.elim (fun e => e ▸ hs) And.right
    · exact ops.dst.elim (fun e => e ▸ hd) And.right
    · exact ops.idx.elim (fun e => e ▸ hx) And.right

/-- Every step keeps memory canonical and inside the address space (20_memory R40). -/
theorem step_memoryWf {s t : State} (hm : memoryWf s) (h : step s = .next t) : memoryWf t := by
  obtain ⟨ws, e, hws⟩ := step_mem h
  rw [memoryWf, e, step_hw h]
  refine ⟨Memory.wf_writeAll hm.1 ws, fun c hc => ?_⟩
  rcases Memory.mem_writeAll hc with hc | hc
  · exact (hws c hc).lt_top
  · exact hm.2 c hc

/-- A state that keeps the fault record, and is in `FAULT` exactly when `s` is, describes the same fault. -/
theorem causeWf.of_sameRecord {s t : State} (hc : causeWf s) (hseq : t.seq = .fault ↔ s.seq = .fault)
    (hcode : t.causeCode = s.causeCode) (hword : t.causeFcmd = s.causeFcmd) (haddr : t.faddr = s.faddr) :
    causeWf t := by
  unfold causeWf
  rw [ne_eq, hseq, hcode, hword, haddr]
  exact hc

/-- Every step keeps the fault record true of the one fault since reset (10_state R25, R26; 60_exceptions R148). -/
theorem step_causeWf {s t : State} (hc : causeWf s) (h : step s = .next t) : causeWf t := by
  rcases step_controlCase h with ⟨-, e⟩ | ⟨w, -, hs, ⟨hi, -, -, ⟨-, hcode, hword, haddr⟩, -⟩ | hf⟩ | ⟨-, -, -, e⟩ |
    ⟨v, rest, -, hi, e⟩ | ⟨p, v, rest, -, -, -, -, e, -⟩ | ⟨-, -, -, e⟩
  case reset =>
    rw [e]
    exact ⟨fun hf => by simp at hf, fun _ => ⟨rfl, rfl⟩, fun _ => rfl⟩
  case turn.inl => exact hc.of_sameRecord (by simp [hi, hs]) hcode hword haddr
  case turn.inr => exact ⟨fun _ => hf.code, (absurd hf.seq ·), hf.addr⟩
  case issue => rw [e]; exact hc.of_sameRecord (by simp [hi]) rfl rfl rfl
  all_goals rw [e]; exact hc

/-- Every step keeps races to a running memory command and to the address space (20_memory R40, R53; log 14). -/
theorem step_racesWf {s t : State} (hw : racesWf s) (h : step s = .next t) : racesWf t := by
  rcases step_case h with ⟨-, -, ht⟩ | ⟨w, i, m, u, hu, hs, hd, hr⟩ | ⟨w, -, hs, hd, ht⟩ | ⟨p, v, rest, -, ht⟩ |
    ⟨p, rest, -, ht⟩ | ⟨rest, -, ht⟩ | ⟨a, b, rest, -, ha, r, ht, hr⟩ | ⟨a, rest, -, n, c, ht⟩
  case run =>
    refine racesWf_of_nil (hr.raced.elim id fun ⟨e, hi⟩ => e.trans (hw.nil_of_not_running fun w' i' hs' hd' => ?_))
    obtain rfl := Sequencer.busy.inj (hs.symm.trans hs')
    exact Option.some.inj (hd.symm.trans hd') ▸ hi
  case illegal =>
    refine racesWf_of_nil ((congrArg State.raced ht).trans (hw.nil_of_not_running fun w' i' hs' hd' => ?_))
    obtain rfl := Sequencer.busy.inj (hs.symm.trans hs')
    simp [hd] at hd'
  case write =>
    have quiet : (∀ w, s.seq ≠ .busy w) → s.raced = [] := fun hn => hw.nil_of_not_running fun w _ hs => absurd hs (hn w)
    rcases ht ▸ portWrite_case p v { s with host := rest } with ⟨-, hn, e⟩ | ⟨-, -, e⟩ | ⟨-, -, e⟩ |
      ⟨-, -, -, e, -⟩
    case reset => exact racesWf_of_nil ((congrArg State.raced e).trans (quiet hn))
    case dropped => rw [e]; exact hw
    case issue => exact racesWf_of_nil (congrArg State.raced e)
    case operands => rw [e]; exact hw
  case hardReset => exact racesWf_of_nil (congrArg State.raced ht)
  case poke =>
    rw [ht]
    rcases hr with rfl | ⟨hb, rfl⟩
    · exact hw
    · exact ⟨fun _ => memoryBusy_iff.mp hb, List.forall_mem_cons.mpr ⟨ha, hw.2⟩⟩
  all_goals rw [ht]; exact hw

/-- Settles O59, part by part of the invariant. -/
theorem everyStepKeepsTheInvariant : Obligations.EveryStepKeepsTheInvariant := by
  unfold Obligations.EveryStepKeepsTheInvariant
  intro s t hi h
  exact ⟨step_lanesWf hi.lanes h, step_registersFit hi.registers h, step_memoryWf hi.memory h, step_causeWf hi.cause h,
    step_racesWf hi.races h⟩

/-- Settles O58: eight registers of `L` zeros, an empty memory and no race, and every other field 0. -/
theorem resetMeetsTheInvariant : Obligations.ResetMeetsTheInvariant := by
  unfold Obligations.ResetMeetsTheInvariant
  intro hw
  have top := top_pos hw
  refine ⟨⟨List.length_replicate, fun v hv => ?_⟩, ⟨top, top, top, top, top⟩, ⟨Memory.wf_nil, by simp [State.resetOf]⟩,
    ⟨fun hf => by simp [State.resetOf] at hf, fun _ => ⟨rfl, rfl⟩, fun _ => rfl⟩, racesWf_of_nil rfl⟩
  rw [List.eq_of_mem_replicate hv]
  exact List.length_replicate

end Sys2Proof.Machine
end

section
/-! What a command reads and writes, and what it leaves alone (10_state R12, R13, R21; 20_memory R47, R51;
42_codec R130). -/

namespace Sys2Proof.Machine

/-! ### The unit's turn, and how a command ends -/

theorem step_unitsTurn {s : State} (h : unitsTurn s) : step s = unitTurn { s with host := s.host.tail } := by
  rcases h with h | ⟨rest, h⟩
  · have same : ({ s with host := s.host.tail } : State) = s := by rw [h, List.tail_nil, ← h]
    rw [step_nil h, same]
  · rw [step_cons h, h]; rfl

/-- Settles O4: an unraced turn is `runWord`, which is `exec` of the decoded word or `IllegalCmd`. -/
theorem stepRunsTheWordTheUnitHolds : Obligations.StepRunsTheWordTheUnitHolds := by
  unfold Obligations.StepRunsTheWordTheUnitHolds
  refine ⟨fun s w hs hu => ⟨fun i hd hr => ?_, fun hd => ?_⟩, fun s w i hd => ?_⟩
  · rw [step_unitsTurn hu, unitTurn_busy (s := { s with host := s.host.tail }) hs
      (hr.imp_left (memoryBusy_eq (s := { s with host := s.host.tail }) hs hd).trans), runWord, hd]
  · have idle : memoryBusy { s with host := s.host.tail } = false := by simp [memoryBusy, hs, hd]
    rw [step_unitsTurn hu, unitTurn_busy (s := { s with host := s.host.tail }) hs (.inl idle), runWord, hd]
    rfl
  · have word : commandWord w.toNat = w := BitVec.eq_of_toNat_eq (by simp [commandWord])
    rw [step_withFetchWord, word, runWord, hd]

/-- Settles O41, from the two ways a command ends. -/
theorem commandsLeaveOperandsAlone : Obligations.CommandsLeaveOperandsAlone := by
  unfold Obligations.CommandsLeaveOperandsAlone
  intro i s
  obtain ⟨t, h⟩ := exec_next i s
  refine ⟨t, h, ?_⟩
  rcases exec_ends h with ⟨hseq, -, hc, ⟨hovr, -⟩, hh⟩ | hf
  · exact ⟨hc, hovr, hh, .inl hseq⟩
  · exact ⟨hf.control, hf.ovr, hf.host, .inr hf.seq⟩

/-! ### A plan reads memory only where it says -/

section
variable {s : State} {m : Memory}

theorem loadPlan_congr_mem {at_ : Nat → Nat} (h : ∀ a ∈ (loadPlan at_ s).reads, m.read a = s.mem.read a) :
    loadPlan at_ { s with mem := m } = loadPlan at_ s := by
  have piece : ∀ r ∈ List.range s.size, m.readBytes (at_ r) s.laneBytes = s.mem.readBytes (at_ r) s.laneBytes :=
    fun r hr => List.map_congr_left fun a ha => h a (List.mem_flatMap.mpr ⟨r, hr, ha⟩)
  exact congrArg (fun vs => Plan.mk (loadPlan at_ s).reads [] (.load vs)) (List.map_congr_left piece)

theorem copyPlan_congr_mem {from_ to_ : Nat → Nat} (h : ∀ a ∈ (copyPlan from_ to_ s).reads, m.read a = s.mem.read a) :
    copyPlan from_ to_ { s with mem := m } = copyPlan from_ to_ s := by
  have byte : ∀ k ∈ List.range s.width, (to_ k, m.read (from_ k)) = (to_ k, s.mem.read (from_ k)) :=
    fun k hk => congrArg (Prod.mk _) (h _ (List.mem_map_of_mem hk))
  exact congrArg (fun ws => Plan.mk (copyPlan from_ to_ s).reads ws .keep) (List.map_congr_left byte)

theorem codecPlan_congr_mem {from_ to_ : Nat → Nat → Nat}
    (h : ∀ a ∈ (codecPlan from_ to_ s).reads, m.read a = s.mem.read a) :
    codecPlan from_ to_ { s with mem := m } = codecPlan from_ to_ s := by
  have byte : ∀ k ∈ List.range s.width,
      (List.range s.nelem).map (fun i => (to_ i k, m.read (from_ i k))) =
        (List.range s.nelem).map fun i => (to_ i k, s.mem.read (from_ i k)) := fun k hk =>
    List.map_congr_left fun i hi =>
      congrArg (Prod.mk _) (h _ (List.mem_flatMap.mpr ⟨k, hk, List.mem_map_of_mem hi⟩))
  exact congrArg (fun ws => Plan.mk (codecPlan from_ to_ s).reads ws .free) (List.flatMap_congr byte)

/-- A memory command's plan depends on no byte it does not read. -/
theorem memoryPlan_congr_mem {i : Instr} {need : IndexNeed} {plan : State → Plan}
    (hp : memoryPlan i = some (need, plan)) (h : ∀ a ∈ (plan s).reads, m.read a = s.mem.read a) :
    plan { s with mem := m } = plan s := by
  cases i <;> cases hp
  case lde | ldp => exact loadPlan_congr_mem h
  case stp | ste => rfl
  case sce | scd => exact copyPlan_congr_mem h
  case enc | dec => exact codecPlan_congr_mem h

end

/-- Settles O46: the plans are the rules' accesses, which the checks confine to the regions. -/
theorem accessesStayInRegionsInAnyOrder : Obligations.AccessesStayInRegionsInAnyOrder := by
  unfold Obligations.AccessesStayInRegionsInAnyOrder
  intro i need plan hp s
  refine ⟨exec_of_memoryPlan hp s, fun a => (readsByte_iff hp s a).symm, fun a b => (storesByte_iff hp s a b).symm, ?_,
    fun hc => ?_⟩
  · intro hc
    simp [wouldWrite, hp, mt (checksPass_iff hp s).mpr hc]
  have writes : wouldWrite i s = (plan s).writes := by simp [wouldWrite, hp, (checksPass_iff hp s).mp hc]
  obtain ⟨-, ⟨hsrc, -, -⟩, -⟩ := id hc
  have reads : ∀ a ∈ (plan s).reads, s.src ≤ a ∧ a < s.src + s.nelem * s.width := fun a ha =>
    reads_bound hc ((readsByte_iff hp s a).mpr ha)
  refine ⟨writes, fun a ha => ⟨(reads a ha).1, (reads a ha).2, (reads a ha).2.trans_le hsrc⟩, fun e he => ?_, ?_, ?_,
    ?_⟩
  · obtain ⟨hlo, hhi⟩ := stores_bound hc (wouldWrite_stores he).2
    exact ⟨hlo, hhi, (wouldWrite_bound he).1⟩
  · rw [writes]; exact writes_nodup hp hc
  · exact fun m hm => memoryPlan_congr_mem hp fun a ha => hm a (reads a ha).1 (reads a ha).2
  · intro t h hi ws hperm a
    rcases exec_memory_cases hp h with ⟨k, -, rfl⟩ | ⟨-, -, rfl⟩ | ⟨-, -, rfl⟩
    · simp at hi
    · rw [writes] at hperm
      exact Memory.read_writeAll_perm hperm.symm s.mem (writes_nodup hp hc) a
    · simp at hi

/-! ### What a command does to the lane registers -/

/-- `g` replaces the first `n` lane registers, whatever they held, and keeps the others. -/
def replacesFirst (n : Nat) (g : List Lane → List Lane) : Prop :=
  ∀ v w r, (r < n → (g v).getD r [] = (g w).getD r []) ∧ (n ≤ r → (g v).getD r [] = v.getD r [])

theorem replacesFirst_id : replacesFirst 0 id := fun _ _ _ => ⟨fun h => absurd h (Nat.not_lt_zero _), fun _ => rfl⟩

/-- Entry `r` of a list whose first `n` entries were replaced. -/
theorem getD_append_drop {front v : List Lane} {n : Nat} (hn : front.length = n) (r : Nat) :
    (front ++ v.drop n).getD r [] = if r < n then front.getD r [] else v.getD r [] := by
  split
  · exact List.getD_append _ _ _ _ (by omega)
  · rw [List.getD_append_right _ _ _ _ (by omega), List.getD, List.getElem?_drop, ← List.getD]
    congr 1
    omega

theorem replacesFirst_append_drop {front : List Lane} {n : Nat} (hn : front.length = n) :
    replacesFirst n fun v => front ++ v.drop n := by
  intro v w r
  simp only [getD_append_drop hn]
  exact ⟨fun h => by rw [if_pos h, if_pos h], fun h => if_neg (by omega)⟩

theorem replacesFirst_scrambleLanes (hw : Hardware) (c n : Nat) : replacesFirst n (scrambleLanes hw c n) :=
  replacesFirst_append_drop (by simp)

/-- How many lane registers a memory command writes that gets past its checks. -/
def LaneEffect.count : LaneEffect → Nat
  | .keep => 0
  | .load vs => vs.length
  | .free => numLanes

theorem LaneEffect.done_replaces (e : LaneEffect) (hw : Hardware) (c : Nat) : replacesFirst e.count (e.done hw c) := by
  cases e with
  | keep => exact replacesFirst_id
  | load vs => exact replacesFirst_append_drop rfl
  | free => exact replacesFirst_scrambleLanes hw c numLanes

theorem LaneEffect.cut_replaces (e : LaneEffect) (hw : Hardware) (c : Nat) : replacesFirst e.count (e.cut hw c) := by
  cases e with
  | keep => exact replacesFirst_id
  | load vs => exact replacesFirst_scrambleLanes hw c vs.length
  | free => exact replacesFirst_scrambleLanes hw c numLanes

/-- A memory command whose plan is the same for other lane registers ends in the same state but for them, of which it
replaces the first few and keeps the rest: `t.lanes` is what it makes of `s.lanes`, and `g v` of `v`. -/
theorem exec_memory_lanes {i : Instr} {need : IndexNeed} {plan : State → Plan} (hp : memoryPlan i = some (need, plan))
    {s t : State} {v : List Lane} (hv : plan { s with lanes := v } = plan s) (h : exec i s = .next t) :
    ∃ n g, replacesFirst n g ∧ t.lanes = g s.lanes ∧ exec i { s with lanes := v } = .next { t with lanes := g v } ∧
      (n = (plan s).lanes.count ∨ n = 0 ∧ ¬checksPass i s ∧ (plan s).lanes ≠ .free) := by
  have checks : operandFault need { s with lanes := v } = operandFault need s := by cases need <;> rfl
  rw [exec_of_memoryPlan hp] at h ⊢
  rw [runMemory, checks, hv]
  rcases runMemory_cases h with ⟨k, hk, rfl⟩ | ⟨hk, hr, rfl⟩ | ⟨hk, hr, rfl⟩
  · rw [hk]
    by_cases hf : (plan s).lanes = .free
    · exact ⟨numLanes, _, replacesFirst_scrambleLanes s.hw s.freeCtr numLanes, by simp [checkFault, stopLanes, hf],
        by simp [checkFault, stopLanes, hf, takeFault], .inl (by rw [hf]; rfl)⟩
    · refine ⟨0, _, replacesFirst_id, by rw [checkFault_eq_takeFault hf]; rfl, ?_, .inr ⟨rfl, ?_, hf⟩⟩
      · simp only [checkFault_eq_takeFault hf]; rfl
      · rw [checksPass_iff hp, hk]; simp
  · rw [hk]
    exact ⟨_, _, (plan s).lanes.done_replaces s.hw s.freeCtr, rfl, if_pos hr, .inl rfl⟩
  · rw [hk]
    exact ⟨_, _, (plan s).lanes.cut_replaces s.hw s.freeCtr, rfl, if_neg hr, .inl rfl⟩

/-- Loads, scalar moves, `ENC` and `DEC` plan without looking at the lane registers (10_state R13). -/
theorem memoryPlan_of_not_store {i : Instr} (hi : i ∈ ([.lde, .ldp, .sce, .scd, .enc, .dec] : List Instr)) :
    ∃ need plan, memoryPlan i = some (need, plan) ∧ ∀ s v, plan { s with lanes := v } = plan s := by
  cases i
  case lde | ldp | sce | scd | enc | dec => exact ⟨_, _, rfl, fun _ _ => rfl⟩
  all_goals exact absurd hi (by decide)

/-- A block load writes `SIZE` lane registers. -/
theorem memoryPlan_load_count {i : Instr} {need : IndexNeed} {plan : State → Plan}
    (hp : memoryPlan i = some (need, plan)) (hi : i = .lde ∨ i = .ldp) (s : State) :
    (plan s).lanes.count = s.width := by
  rcases hi with rfl | rfl <;> cases hp <;> simp [ldePlan, ldpPlan, loadPlan, LaneEffect.count, State.size]

/-- Settles O43: the plan does not look at the lane registers, and its effect replaces those it writes. -/
theorem laneRegistersAreReadOnlyByPrimitivesAndStores : Obligations.LaneRegistersAreReadOnlyByPrimitivesAndStores := by
  unfold Obligations.LaneRegistersAreReadOnlyByPrimitivesAndStores
  refine ⟨fun i s t v hi h => ?_, fun i s t hi h => exec_keeps_lanes hi h⟩
  obtain ⟨need, plan, hp, hplan⟩ := memoryPlan_of_not_store hi
  obtain ⟨n, g, hg, ht, hx, hn⟩ := exec_memory_lanes hp (hplan s v) h
  refine ⟨g v, hx, fun hl hc => ?_, fun hcodec r hr => ?_⟩
  · obtain rfl : n = s.width :=
      (hn.resolve_right fun ⟨_, hc', _⟩ => hc' hc).trans (memoryPlan_load_count hp hl s)
    simp only [State.lane, ht]
    exact ⟨fun r hr => (hg v s.lanes r).1 hr, fun r hr => (hg v s.lanes r).2 hr⟩
  · have free := (memoryPlan_free hp s).mpr hcodec
    obtain rfl : n = numLanes := (hn.resolve_right fun ⟨_, _, hf⟩ => hf free).trans (by rw [free]; rfl)
    rw [State.lane, ht]
    exact (hg v s.lanes r).1 hr

/-- With `W = 4` a memory command but `ENC` and `DEC` plans without looking at `V[4]` to `V[7]` (10_state R12). -/
theorem memoryPlan_congr_active {i : Instr} {need : IndexNeed} {plan : State → Plan}
    (hp : memoryPlan i = some (need, plan)) {s : State} {v : List Lane} (h : ∀ r < s.size, v.getD r [] = s.lane r) :
    plan { s with lanes := v } = plan s := by
  have store : ∀ at_, storePlan at_ { s with lanes := v } = storePlan at_ s := fun at_ =>
    congrArg (fun ws => Plan.mk [] ws .keep) <| List.flatMap_congr fun r hr =>
      congrArg (bytesAt (at_ r) s.laneBytes) (h r (List.mem_range.mp hr))
  cases i <;> cases hp
  case stp | ste => exact store _
  all_goals rfl

/-- A memory command but `ENC` and `DEC` writes at most the active lane registers (10_state R12). -/
theorem memoryPlan_count_le {i : Instr} {need : IndexNeed} {plan : State → Plan}
    (hp : memoryPlan i = some (need, plan)) (he : i ≠ .enc) (hd : i ≠ .dec) (s : State) :
    (plan s).lanes.count ≤ s.width := by
  by_cases hl : i = .lde ∨ i = .ldp
  · exact (memoryPlan_load_count hp hl s).le
  · have keep : (plan s).lanes = .keep := by
      refine memoryPlan_keep hp ?_ s
      cases i <;> simp_all [memoryPlan]
    rw [keep]
    exact Nat.zero_le _

/-- A primitive ends in the same state whatever the lane registers, but for what it makes of them: `t.lanes` is what it
makes of `s.lanes`, and `g v` of `v`. -/
theorem exec_primitive_lanes {i : Instr} {f : LaneLen → Nat → List Lane → List Lane} (hf : primitiveFn i = some f)
    {s t : State} (v : List Lane) (h : exec i s = .next t) :
    ∃ g, t.lanes = g s.lanes ∧ exec i { s with lanes := v } = .next { t with lanes := g v } ∧
      (g = id ∨ g = f s.hw.lane s.size) := by
  have width : widthLegal { s with lanes := v } = widthLegal s := rfl
  rw [exec_of_primitiveFn hf] at h ⊢
  rw [runPrimitive, width]
  rcases runPrimitive_cases h with ⟨hl, rfl⟩ | ⟨hl, hw, rfl⟩ | ⟨hl, hw, rfl⟩
  · exact ⟨id, rfl, by simp [hl]; rfl, .inl rfl⟩
  · exact ⟨id, rfl, by simp [hl, hw]; rfl, .inl rfl⟩
  · exact ⟨_, rfl, by simp [hl, hw]; rfl, .inr rfl⟩

/-- Every primitive is a paired one, or the shuffle. -/
theorem primitiveFn_shape {i : Instr} {f : LaneLen → Nat → List Lane → List Lane} (h : primitiveFn i = some f)
    (l : LaneLen) : (∃ p x y, f l = pairwise p x y) ∨ f l = shufq l := by
  cases i <;> cases h
  case shufqSelf => exact .inr rfl
  all_goals exact .inl ⟨_, _, _, rfl⟩

/-- Lane registers that agree below `n` have the same first `n`. -/
theorem take_eq_take {v w : List Lane} {n : Nat} (hv : n ≤ v.length) (hw : n ≤ w.length)
    (h : ∀ r < n, w.getD r [] = v.getD r []) : w.take n = v.take n := by
  refine List.ext_getElem (by simp; omega) fun r hr _ => ?_
  have hrn : r < n := by simp at hr; omega
  simpa [List.getD, (by omega : r < v.length), (by omega : r < w.length)] using h r hrn

/-- A primitive reads and writes the active lane registers only (40_primitives R93). -/
theorem primitiveFn_active {i : Instr} {f : LaneLen → Nat → List Lane → List Lane} (h : primitiveFn i = some f)
    (l : LaneLen) {size : Nat} (he : 2 * (size / 2) = size) {v w : List Lane} (hv : size ≤ v.length)
    (hw : size ≤ w.length) (hvw : ∀ r < size, w.getD r [] = v.getD r []) :
    ∃ front, front.length = size ∧ f l size v = front ++ v.drop size ∧ f l size w = front ++ w.drop size := by
  rcases primitiveFn_shape h l with ⟨p, x, y, e⟩ | e
  · rw [e]
    refine ⟨_, (flatMap_range_length _ 2 _ fun _ _ => rfl).trans (by omega), rfl, ?_⟩
    refine congrArg (· ++ w.drop size) (List.flatMap_congr fun k hk => ?_)
    have hk := List.mem_range.mp hk
    simp only [hvw _ (Pairing.first_lt hk), hvw _ (Pairing.second_lt hk)]
  · rw [e]
    exact ⟨(v.take size).map swapMiddle, by simp [hv], rfl, by rw [← take_eq_take hv hw hvw]; rfl⟩

/-- Settles O42: a primitive works on the active lane registers alone, a memory command plans by and writes them
alone. -/
theorem upperLanesAreUntouchedAtWidthFour : Obligations.UpperLanesAreUntouchedAtWidthFour := by
  unfold Obligations.UpperLanesAreUntouchedAtWidthFour
  intro i s v he hd hw hs hv hlow
  obtain ⟨t, ht⟩ := exec_next i s
  rcases primitive_or_memory i with ⟨f, hf, -⟩ | ⟨need, plan, hp, -⟩
  · obtain ⟨g, hl, hx, hg⟩ := exec_primitive_lanes hf v ht
    obtain ⟨front, hfront, hgs, hgv⟩ : ∃ front : List Lane, front.length = 4 ∧ g s.lanes = front ++ s.lanes.drop 4 ∧
        g v = front ++ v.drop 4 := by
      have hs4 : 4 ≤ s.lanes.length := by rw [hs.1]; decide
      have hv4 : 4 ≤ v.length := by rw [show v.length = numLanes from hv.1]; decide
      rw [State.size, hw] at hg
      rcases hg with rfl | rfl
      · exact ⟨s.lanes.take 4, by simp [hs4], (List.take_append_drop 4 _).symm,
          by rw [← take_eq_take hs4 hv4 hlow]; exact (List.take_append_drop 4 _).symm⟩
      · exact primitiveFn_active hf s.hw.lane rfl hs4 hv4 hlow
    refine ⟨t, _, ht, hx, rfl, fun r hr => ?_, fun r hr => ?_, fun r hr => ?_⟩
    · simp only [State.lane, hl, hgs, hgv, getD_append_drop hfront, if_pos hr]
    · simp only [State.lane, hl, hgs, getD_append_drop hfront, if_neg (by omega : ¬r < 4)]
    · simp only [State.lane, hgv, getD_append_drop hfront, if_neg (by omega : ¬r < 4)]
  · have active : plan { s with lanes := v } = plan s := memoryPlan_congr_active hp (by rw [State.size, hw]; exact hlow)
    obtain ⟨n, g, hg, hl, hx, hn⟩ := exec_memory_lanes hp active ht
    have hn4 : n ≤ 4 := by
      have := memoryPlan_count_le hp he hd s
      omega
    refine ⟨t, _, ht, hx, rfl, fun r hr => ?_, fun r hr => ?_, fun r hr => (hg v v r).2 (by omega)⟩
    · rw [State.lane, State.lane, hl]
      by_cases hrn : r < n
      · exact (hg v s.lanes r).1 hrn
      · rw [(hg v v r).2 (by omega), (hg s.lanes v r).2 (by omega)]
        exact hlow r hr
    · rw [State.lane, hl]
      exact (hg s.lanes v r).2 (by omega)

end Sys2Proof.Machine
end

section
/-! Memory: the layouts of a region, byte strings, commands run twice, and the host's accesses (20_memory R41 to R53). -/

namespace Sys2Proof.Machine

/-! ### The layouts of a region -/

/-- Every number below `m·d` is `q·d + r` for one `q < m` and one `r < d`. -/
theorem exists_mul_add {m d o : Nat} (h : o < m * d) : ∃ q < m, ∃ r < d, o = q * d + r := by
  have hd : 0 < d := Nat.pos_of_lt_mul_left h
  exact ⟨o / d, Nat.div_lt_of_lt_mul (by rwa [Nat.mul_comm]), o % d, Nat.mod_lt _ hd, (Nat.div_add_mod' o d).symm⟩

/-- Settles O45: quotient and remainder by `W`, or by `N`, are the element and byte index, and the only ones. -/
theorem layoutsAreBijections : Obligations.LayoutsAreBijections := by
  unfold Obligations.LayoutsAreBijections
  intro base n width o ho
  constructor
  · obtain ⟨i, hi, k, hk, rfl⟩ := exists_mul_add ho
    refine ⟨(i, k), ⟨hi, hk, Nat.add_assoc ..⟩, fun ⟨i', k'⟩ ⟨_, hk', e⟩ => ?_⟩
    simp only [elemAddr] at e hk'
    obtain ⟨rfl, rfl⟩ := mul_add_inj hk' hk (by omega : i' * width + k' = i * width + k)
    rfl
  · obtain ⟨k, hk, i, hi, rfl⟩ := exists_mul_add (Nat.mul_comm n width ▸ ho)
    refine ⟨(i, k), ⟨hi, hk, Nat.add_assoc ..⟩, fun ⟨i', k'⟩ ⟨hi', _, e⟩ => ?_⟩
    simp only [planeAddr] at e hi'
    obtain ⟨rfl, rfl⟩ := mul_add_inj hi' hi (by omega : k' * n + i' = k * n + i)
    rfl

/-! ### Byte strings -/

theorem bytesAt_map_fst (a n : Nat) (v : List Byte) : (bytesAt a n v).map Prod.fst = addrsFrom a n := by
  simp [bytesAt, addrsFrom]

theorem addrsFrom_nodup (a n : Nat) : (addrsFrom a n).Nodup := map_range_nodup _ _ (by simp)

/-- Settles O48: the writes are to the addresses of the string, each once. -/
theorem memReadReturnsWhatMemWriteWrote : Obligations.MemReadReturnsWhatMemWriteWrote := by
  unfold Obligations.MemReadReturnsWhatMemWriteWrote
  intro m a v
  have written : ∀ j < v.length, (m.writeAll (bytesAt a v.length v)).read (a + j) = v.getD j 0 := fun j hj =>
    Memory.read_writeAll_mem _ _ _ _ (bytesAt_map_fst .. ▸ addrsFrom_nodup a v.length)
      (mem_bytesAt.mpr ⟨j, hj, rfl, rfl⟩)
  refine ⟨written, fun x hx => ?_, ?_, fun hm => Memory.wf_writeAll hm _⟩
  · exact Memory.read_writeAll_other _ _ _ (by rwa [bytesAt_map_fst, mem_addrsFrom])
  · refine List.ext_getElem (Memory.readBytes_length ..) fun j hj hv => ?_
    rw [← List.getD_eq_getElem _ 0 hj, ← List.getD_eq_getElem _ 0 hv, Memory.readBytes_getD _ hv, written j hv]

/-! ### A command run twice -/

/-- Writing the same bytes again changes nothing. -/
theorem Memory.read_writeAll_twice {ws : List (Nat × Byte)} (hnd : (ws.map Prod.fst).Nodup) (m : Memory) (a : Nat) :
    ((m.writeAll ws).writeAll ws).read a = (m.writeAll ws).read a := by
  by_cases ha : a ∈ ws.map Prod.fst
  · obtain ⟨⟨a, b⟩, hw, rfl⟩ := List.mem_map.mp ha
    rw [Memory.read_writeAll_mem ws _ a b hnd hw, Memory.read_writeAll_mem ws m a b hnd hw]
  · exact Memory.read_writeAll_other ws _ a ha

/-- A command that passes its checks writes no byte it reads: the regions share none (60_exceptions R145). -/
theorem reads_not_stored {i : Instr} {s : State} (hc : checksPass i s) {a : Nat} (hr : readsByte i s a) :
    ¬∃ b, storesByte i s a b := by
  rintro ⟨b, hs⟩
  obtain ⟨hsrc, hsrc'⟩ := reads_bound hc hr
  obtain ⟨hdst, hdst'⟩ := stores_bound hc hs
  obtain ⟨-, -, hno⟩ := hc
  exact hno ⟨Nat.pos_of_lt_mul_right (by omega : 0 < s.nelem * s.width), by omega, by omega⟩

/-- The checks look at no memory, no schedule and no draw. -/
theorem checksPass_outer (i : Instr) (s : State) (ho : List HostEvent) (m : Memory) (c : Nat) :
    checksPass i { s with host := ho, mem := m, freeCtr := c } = checksPass i s := by
  cases i <;> rfl

/-- Settles O47: the bytes the command reads are as before, so it writes the same bytes again. -/
theorem memoryCommandsAreIdempotent : Obligations.MemoryCommandsAreIdempotent := by
  unfold Obligations.MemoryCommandsAreIdempotent
  intro i s t u hi ht hidle hu
  obtain ⟨f, -, -, hn⟩ | ⟨need, plan, hp, -⟩ := primitive_or_memory i
  · simp [hn] at hi
  rcases exec_memory_cases hp ht with ⟨k, -, rfl⟩ | ⟨hc, hr, rfl⟩ | ⟨-, -, rfl⟩
  · simp at hidle
  · have same : plan { s with mem := (finishPlan (plan s) s).mem } = plan s := memoryPlan_congr_mem hp fun a ha =>
      finish_read_other hp (reads_not_stored hc ((readsByte_iff hp s a).mpr ha))
    have checks : checksPass i { s with mem := (finishPlan (plan s) s).mem } :=
      (checksPass_outer i s s.host _ s.freeCtr).mpr hc
    have again := exec_finish hp checks (by simpa only [refusedByte_iff hp, same] using hr)
    obtain rfl := Host.Outcome.next.inj (again.symm.trans hu)
    refine ⟨rfl, fun a => ?_⟩
    rw [finishPlan_mem, same]
    exact Memory.read_writeAll_twice (writes_nodup hp hc) s.mem a
  · simp at hidle

/-! ### The host's accesses to memory -/

theorem inSrc_iff {s : State} {a : Nat} : s.inSrc a = true ↔ s.src ≤ a ∧ a < s.src + s.nelem * s.width := by
  simp only [State.inSrc, Bool.and_eq_true, decide_eq_true_eq]
  rfl

theorem inDst_iff {s : State} {a : Nat} : s.inDst a = true ↔ s.dst ≤ a ∧ a < s.dst + s.nelem * s.width := by
  simp only [State.inDst, Bool.and_eq_true, decide_eq_true_eq]
  rfl

section
variable {s : State} {a : Nat} {b : Byte} {rest : List HostEvent}

/-- No address of `2^ALEN` or above exists (20_memory R40). -/
theorem step_host_outside (ha : s.hw.top ≤ a) (h : s.host = .poke a b :: rest ∨ s.host = .peek a :: rest) :
    step s = .fault (.hostAddressOutside a) := by
  rcases h with h | h <;> rw [step_cons h] <;> exact if_pos ha

/-- The host's write to a region of a running memory command is made and remembered (20_memory R53). -/
theorem step_poke_racing (ha : a < s.hw.top) (h : s.host = .poke a b :: rest) (hb : memoryBusy s = true)
    (hr : s.inSrc a = true ∨ s.inDst a = true) : step s = .next { s with
      host := rest, mem := s.mem.write a b, raced := (a, s.mem.read a) :: s.raced } := by
  rw [step_cons h]
  exact (if_neg ha.not_ge).trans (if_pos (Bool.and_eq_true_iff.mpr ⟨hb, Bool.or_eq_true_iff.mpr hr⟩))

/-- The host's write that races no command is made, and nothing more (20_memory R50). -/
theorem step_poke_plain (ha : a < s.hw.top) (h : s.host = .poke a b :: rest)
    (hn : memoryBusy s = true → ¬(s.inSrc a = true ∨ s.inDst a = true)) :
    step s = .next { s with host := rest, mem := s.mem.write a b } := by
  rw [step_cons h]
  refine (if_neg ha.not_ge).trans (if_neg fun hr => ?_)
  obtain ⟨hb, hr⟩ := Bool.and_eq_true_iff.mp hr
  exact hn hb (Bool.or_eq_true_iff.mp hr)

/-- The host's read of the destination region of a running memory command is a racing one (20_memory R53). -/
theorem step_peek_racing (ha : a < s.hw.top) (h : s.host = .peek a :: rest) (hb : memoryBusy s = true)
    (hd : s.inDst a = true) : step s = .next { s with
      host := rest, seen := s.seen ++ [(racingRead { s with host := rest } a).toNat], freeCtr := s.freeCtr + 1 } := by
  rw [step_cons h]
  exact (if_neg ha.not_ge).trans (if_pos (Bool.and_eq_true_iff.mpr ⟨hb, hd⟩))

/-- The host's read that races no command returns the byte memory holds (20_memory R50). -/
theorem step_peek_plain (ha : a < s.hw.top) (h : s.host = .peek a :: rest)
    (hn : memoryBusy s = true → ¬s.inDst a = true) :
    step s = .next { s with host := rest, seen := s.seen ++ [(s.mem.read a).toNat] } := by
  rw [step_cons h]
  refine (if_neg ha.not_ge).trans (if_neg fun hr => ?_)
  obtain ⟨hb, hd⟩ := Bool.and_eq_true_iff.mp hr
  exact hn hb hd

end

/-! ### What a raced command writes -/

/-- What a command stores does not depend on the schedule or the draw. -/
theorem storesByte_outer (i : Instr) (s : State) (ho : List HostEvent) (c a : Nat) (b : Byte) :
    storesByte i { s with host := ho, freeCtr := c } a b = storesByte i s a b := by
  cases i <;> rfl

/-- Where some write is to an address, the byte there ends as one of those written. -/
theorem Memory.read_writeAll_written {ws : List (Nat × Byte)} (m : Memory) {a : Nat} (h : a ∈ ws.map Prod.fst) :
    (a, (m.writeAll ws).read a) ∈ ws := by
  induction ws generalizing m with
  | nil => simp at h
  | cons w ws ih =>
    rw [Memory.writeAll_cons]
    by_cases ha : a ∈ ws.map Prod.fst
    · exact List.mem_cons_of_mem _ (ih _ ha)
    · obtain rfl : a = w.1 := (List.mem_cons.mp h).resolve_right ha
      simp [Memory.read_writeAll_other ws _ w.1 ha]

/-- A byte the host's writes have not raced is, for the running command, as memory holds it. -/
theorem raceMemory.read_unraced {s : State} {m : Memory} (h : raceMemory s m) {a : Nat}
    (ha : ∀ b, (a, b) ∉ s.raced) : m.read a = s.mem.read a :=
  (h a).resolve_right (ha _)

section
variable {s u : State} {w : Byte} {i : Instr} (hs : s.seq = .busy w) (hd : decode w = some i)
include hs hd

/-- What the running command would write, from what it may have read. -/
theorem pendingWrites_raceView : pendingWrites (raceView s) = wouldWrite i { s with mem := (raceView s).mem } :=
  (pendingWrites_eq (s := raceView s) hs hd).trans
    (wouldWrite_outer i { s with mem := (raceView s).mem } s.seq s.host s.seen (s.freeCtr + 1) s.raced)

theorem pendingWrites_raceView_stores {a : Nat} {b : Byte} (h : (a, b) ∈ pendingWrites (raceView s)) :
    checksPass i s ∧ storesByte i { s with mem := (raceView s).mem } a b := by
  rw [pendingWrites_raceView hs hd] at h
  exact (wouldWrite_stores h).imp_left (checksPass_outer i s s.host _ s.freeCtr).mp

/-- A raced turn leaves a byte the host has not written as the command does: the command's write to it, if any,
stands. -/
theorem settleRaces_read_unraced (hx : exec i (raceView s) = .next u) {a : Nat} (ha : ∀ b, (a, b) ∉ s.raced) :
    (settleRaces s u).mem.read a = u.mem.read a := by
  rw [settleRaces_mem]
  by_cases hw : a ∈ (raceWrites s u).map Prod.fst
  · have stands := (List.mem_filter.mp (Memory.read_writeAll_written s.mem hw)).2
    simp only [Bool.and_eq_true, beq_iff_eq] at stands
    exact stands.1.symm
  · rw [Memory.read_writeAll_other _ _ _ hw, ← (raceView_raceMemory s).read_unraced ha]
    obtain ⟨ws, hm, hws⟩ := exec_mem hx
    rw [hm]
    refine (Memory.read_writeAll_other _ _ _ fun hmem => hw ?_).symm
    have made := hws _ (Memory.read_writeAll_written (raceView s).mem hmem)
    rw [← hm, ← pendingWrites_eq (s := raceView s) hs hd] at made
    refine List.mem_map.mpr ⟨_, List.mem_filter.mpr ⟨made, ?_⟩, rfl⟩
    have unraced : s.raced.all (fun e => e.1 != a) = true := List.all_eq_true.mpr fun e he => by
      simp only [bne_iff_ne]
      rintro rfl
      exact ha e.2 he
    simp [unraced]

end

/-- A memory command ran in the unit's turn from `s` to `t`: it read `m`, old or new bytes, and ended in `u`. Memory is as
the command leaves it, but a byte the host has written holds the host's byte or the command's (20_memory R53). -/
structure RanMemory (i : Instr) (s t : State) (m : Memory) (u : State) : Prop where
  reads : raceMemory s m
  ran : ∃ c, exec i { s with mem := m, freeCtr := c } = .next u
  ends : t = { u with mem := t.mem, raced := [] }
  unraced : ∀ a, (∀ b, (a, b) ∉ s.raced) → t.mem.read a = u.mem.read a
  bytes : ∀ a, t.mem.read a = s.mem.read a ∨ (checksPass i s ∧ storesByte i { s with mem := m } a (t.mem.read a))

/-- The unit's turn with no race to settle runs the command on memory as it is. -/
theorem RanMemory.of_nil {i : Instr} {s t : State} (hr : s.raced = []) (h : exec i s = .next t) :
    RanMemory i s t s.mem t where
  reads := raceMemory_self s
  ran := ⟨s.freeCtr, h⟩
  ends := by rw [← (exec_raced h).trans hr]
  unraced _ _ := rfl
  bytes a := by
    obtain ⟨ws, hm, hws⟩ := exec_mem h
    rw [hm]
    exact (Memory.read_writeAll_cases ws s.mem a).imp_right fun hw => wouldWrite_stores (hws _ hw)

/-- The unit's turn with races runs the command on the bytes it may have read, and settles what it writes. -/
theorem RanMemory.of_raceView {i : Instr} {s u : State} {w : Byte} (hs : s.seq = .busy w) (hd : decode w = some i)
    (h : exec i (raceView s) = .next u) : RanMemory i s (settleRaces s u) (raceView s).mem u where
  reads := raceView_raceMemory s
  ran := ⟨s.freeCtr + 1, h⟩
  ends := rfl
  unraced _ ha := settleRaces_read_unraced hs hd h ha
  bytes a := (Memory.read_writeAll_cases (raceWrites s u) s.mem a).imp_right fun hw =>
    pendingWrites_raceView_stores hs hd (List.mem_of_mem_filter hw)

/-- The unit's turn runs the memory command it holds, whether the host's writes have raced it or not. -/
theorem unitTurn_memory {s : State} {w : Byte} {i : Instr} (hs : s.seq = .busy w) (hd : decode w = some i)
    (hi : i.isMemory = true) : ∃ t m u, unitTurn s = .next t ∧ RanMemory i s t m u := by
  have word : ∀ r, runWord w r = exec i r := fun r => by rw [runWord, hd]
  by_cases hr : s.raced = []
  · obtain ⟨t, ht⟩ := exec_next i s
    exact ⟨t, _, _, by rw [unitTurn_busy hs (.inr hr), word, ht], .of_nil hr ht⟩
  · obtain ⟨u, hu⟩ := exec_next i (raceView s)
    refine ⟨_, _, u, ?_, .of_raceView hs hd hu⟩
    rw [unitTurn_raced hs ((memoryBusy_eq hs hd).trans hi) hr, runRaced, word, hu]

/-- Settles O49: the host's accesses by where they fall, then the unit's turn. -/
theorem hostAccessesWhileBusyAreRaces : Obligations.HostAccessesWhileBusyAreRaces := by
  unfold Obligations.HostAccessesWhileBusyAreRaces
  refine ⟨fun s a b rest => ⟨step_host_outside, fun ha hn => ?_⟩, fun s w i hs hd hi => ⟨fun a b rest ha h => ?_,
    fun a rest ha h => ?_, fun hu => ?_⟩⟩
  · have quiet : ¬memoryBusy s = true := fun hb => by
      obtain ⟨w, i, hs, hd, hi⟩ := memoryBusy_iff.mp hb
      simp [hn w i hs hd] at hi
    exact ⟨fun h => step_poke_plain ha h (absurd · quiet), fun h => step_peek_plain ha h (absurd · quiet)⟩
  · refine ⟨fun hr => step_poke_racing ha h ((memoryBusy_eq hs hd).trans hi) ?_, fun hsrc hdst =>
      step_poke_plain ha h fun _ => ?_⟩ <;> rw [inSrc_iff, inDst_iff]
    · exact hr
    · exact not_or.mpr ⟨hsrc, hdst⟩
  · refine ⟨fun hdst => ⟨_, _, step_peek_racing ha h ((memoryBusy_eq hs hd).trans hi) (inDst_iff.mpr hdst), ?_⟩,
      fun hdst => step_peek_plain ha h fun _ => mt inDst_iff.mp hdst⟩
    refine (racingRead_cases { s with host := rest } a).imp_right (.imp_right fun hw => ?_)
    have hw := pendingWrites_raceView_stores (s := { s with host := rest }) hs hd hw
    exact ⟨_, raceView_raceMemory s, (checksPass_outer i s rest s.mem s.freeCtr).mp hw.1,
      (storesByte_outer i { s with mem := (raceView s).mem } rest s.freeCtr a _).mp hw.2⟩
  · obtain ⟨t, m, u, ht, ran⟩ := unitTurn_memory (s := { s with host := s.host.tail }) hs hd hi
    obtain ⟨c, hx⟩ := ran.ran
    refine ⟨m, c, u, t, ran.reads, hx, (step_unitsTurn hu).trans ht, ran.ends, ran.unraced, fun a => ?_⟩
    refine (ran.bytes a).imp_right fun ⟨hc, hst⟩ => ⟨(checksPass_outer i s _ s.mem s.freeCtr).mp hc, ?_⟩
    exact (storesByte_outer i { s with mem := m } s.host.tail s.freeCtr a _).mp hst

end Sys2Proof.Machine
end

section
/-! The command word: the decoder against the encoder, the opcode map and class `UNPK` (30_encoding R60 to R68). -/

namespace Sys2Proof.Machine

/-! ### The decoder on words of commands -/

/-- Every command has a word that selects it (30_encoding R67). -/
@[simp] theorem decode_encode (i : Instr) : decode (encode i) = some i := by cases i <;> rfl

/-- A unit decodes the word of a command it has, and no other command's (30_encoding R67, R69). -/
theorem decodeFor_encode (l : LaneLen) (i : Instr) :
    decodeFor l (encode i) = if i.legalFor l then some i else none := by
  simp [decodeFor, Option.filter_some]

theorem legalFor_l32 (i : Instr) : i.legalFor .l32 = true := by simp [Instr.legalFor]

theorem legalFor_of_cls_unpk {i : Instr} (h : i.cls = .unpk) (l : LaneLen) : i.legalFor l = true := by
  simp [Instr.legalFor, h]

/-- Settles O1. -/
theorem decodeAndEncodeAgree : Obligations.DecodeAndEncodeAgree :=
  ⟨decode_encode, fun _ _ => encode_of_decode⟩

/-! ### The opcode map (30_encoding R67) -/

/-- A row holds its command's word and class, and whether the command is legal at `L = 16`. -/
theorem opcodeMap_row : ∀ e ∈ opcodeMap,
    encode e.2.1 = e.1 ∧ e.2.1.cls = e.2.2.1 ∧ e.2.1.legalFor .l16 = e.2.2.2 := by decide

/-- No command is missing from the map. -/
theorem encode_mem_opcodeMap (i : Instr) : encode i ∈ opcodeMap.map (·.1) := by cases i <;> decide

theorem decode_eq_none_of_notMem_opcodeMap {w : Byte} (h : w ∉ opcodeMap.map (·.1)) : decode w = none :=
  Option.eq_none_iff_forall_ne_some.mpr fun i hd => h (encode_of_decode hd ▸ encode_mem_opcodeMap i)

/-- Settles O2: a row's word is its command's, and a legal word is the word of a command, so it is in the map. -/
theorem opcodeMapOfBothUnits : Obligations.OpcodeMapOfBothUnits := by
  unfold Obligations.OpcodeMapOfBothUnits
  refine ⟨fun e he => ?_, fun w hw => ?_, by decide⟩
  · obtain ⟨hword, hcls, hlegal⟩ := opcodeMap_row e he
    rw [← hword, ← hlegal]
    exact ⟨by simp [decodeFor_encode, legalFor_l32], hcls, decodeFor_encode .l16 e.2.1⟩
  · simp [decodeFor, decode_eq_none_of_notMem_opcodeMap hw]

/-! ### Class `UNPK` (30_encoding R62) -/

theorem zeroField_append (z : BitVec 3) (c : BitVec 2) (fn : BitVec 3) : zeroField (z ++ c ++ fn) = z :=
  (BitVec.extractLsb'_append_eq_of_le (by decide : 3 ≤ 5)).trans BitVec.extractLsb'_append_eq_left

theorem clsField_append (z : BitVec 3) (c : BitVec 2) (fn : BitVec 3) : clsField (z ++ c ++ fn) = c :=
  (BitVec.extractLsb'_append_eq_of_le (by decide : 3 ≤ 3)).trans BitVec.extractLsb'_append_eq_right

theorem decodeUnpk_cls (p : BitVec 1) (g : BitVec 2) : (decodeUnpk p g).cls = .unpk := by
  unfold decodeUnpk
  split <;> rfl

/-- A word with `ZERO` and `CLS` 0 is legal on every unit, whatever its other bits. -/
theorem decodeFor_unpk {w : Byte} (hz : zeroField w = 0) (hc : clsField w = 0) (l : LaneLen) :
    decodeFor l w = some (decodeUnpk (pField w) (gField w)) := by
  have hd : decode w = some (decodeUnpk (pField w) (gField w)) := by simp [decode, hz, hc]
  simp [decodeFor, hd, legalFor_of_cls_unpk (decodeUnpk_cls _ _)]

/-- Settles O3: the eight rows field by field, and a word of class `UNPK` decodes by its `P` and `G`. -/
theorem unpkFieldsArePairingAndGranularity : Obligations.UnpkFieldsArePairingAndGranularity := by
  unfold Obligations.UnpkFieldsArePairingAndGranularity
  refine ⟨by decide, fun l fn => ?_⟩
  rw [decodeFor_unpk (zeroField_append 0 0 fn) (clsField_append 0 0 fn), Option.isSome_some]

end Sys2Proof.Machine
end

section
/-! The primitives: how they end and which bytes they move (40_primitives R80 to R93, R95, R96). -/

namespace Sys2Proof.Machine

/-! ### How a primitive ends (40_primitives R93) -/

/-- A command that touches no memory has a function of the lane registers. -/
theorem exists_primitiveFn {i : Instr} (hi : i.isMemory = false) : ∃ f, primitiveFn i = some f := by
  rcases primitive_or_memory i with ⟨f, hf, -⟩ | ⟨-, -, -, -, hm⟩
  · exact ⟨f, hf⟩
  · simp [hi] at hm

/-- The state in which a primitive ends without fault. -/
def afterPrimitive (f : LaneLen → Nat → List Lane → List Lane) (s : State) : State :=
  complete { s with lanes := f s.hw.lane s.width s.lanes }

@[simp] theorem afterPrimitive_lanes (f : LaneLen → Nat → List Lane → List Lane) (s : State) :
    (afterPrimitive f s).lanes = f s.hw.lane s.width s.lanes := rfl

section
variable {i : Instr} {f : LaneLen → Nat → List Lane → List Lane} {s t : State}

theorem exec_primitive_illegal (hf : primitiveFn i = some f) (hl : i.legalFor s.hw.lane = false) :
    exec i s = .next (faultEntry 1 (encode i) s) := by
  simp [exec_of_primitiveFn hf, runPrimitive, hl, takeFault, faultEntry, UnitFault.code]

theorem exec_primitive_badWidth (hf : primitiveFn i = some f) (hl : i.legalFor s.hw.lane = true)
    (hw : ¬widthOk s) : exec i s = .next (faultEntry 2 (encode i) s) := by
  have hw' : widthLegal s = false := by simpa using mt widthLegal_iff.mp hw
  simp [exec_of_primitiveFn hf, runPrimitive, hl, hw', takeFault, faultEntry, UnitFault.code]

theorem exec_primitive_done (hf : primitiveFn i = some f) (hl : i.legalFor s.hw.lane = true) (hw : widthOk s) :
    exec i s = .next (afterPrimitive f s) := by
  have hw' : widthLegal s = true := widthLegal_iff.mpr hw
  simp [exec_of_primitiveFn hf, runPrimitive, hl, hw', State.size, afterPrimitive]

theorem width_even (hw : widthOk s) : 2 * (s.width / 2) = s.width := by rcases hw with h | h <;> rw [h]

theorem width_le_numLanes (hw : widthOk s) : s.width ≤ numLanes := by rcases hw with h | h <;> rw [h] <;> decide

/-- A register below `SIZE` has `L` bytes. -/
theorem lane_length (hs : lanesWf s) (hw : widthOk s) {r : Nat} (hr : r < s.width) :
    (s.lane r).length = s.hw.lane.bytes :=
  hs.2 _ (mem_getD_of_lt (by rw [hs.1]; exact lt_of_lt_of_le hr (width_le_numLanes hw)))

/-- A primitive that ends without fault changes `V[0..SIZE-1]`, `STATE` and `CMDCNT`. -/
theorem afterPrimitive_completed (hf : primitiveFn i = some f) (hl : i.legalFor s.hw.lane = true) (hs : lanesWf s)
    (hw : widthOk s) : completed s (afterPrimitive f s) ∧ (afterPrimitive f s).mem = s.mem ∧
      lanesWf (afterPrimitive f s) ∧ lanesKeptFrom s.width s (afterPrimitive f s) := by
  have hlen : s.width ≤ s.lanes.length := by rw [hs.1]; exact width_le_numLanes hw
  obtain ⟨front, hfront, hlanes, -⟩ := primitiveFn_active hf s.hw.lane (width_even hw) hlen hlen fun _ _ => rfl
  refine ⟨⟨rfl, rfl, ⟨rfl, rfl, rfl, rfl, rfl, rfl⟩, ⟨rfl, rfl, rfl, rfl⟩, rfl, rfl⟩, rfl,
    primitiveFn_lanes hf hl hw hs.1 hs.2, fun r hr => ?_⟩
  rw [State.lane, afterPrimitive_lanes, hlanes, getD_append_drop hfront, if_neg (by omega), ← State.lane]

/-- What a primitive that passes its checks makes of the lane registers. -/
theorem primitive_lanes (hf : primitiveFn i = some f) (hl : i.legalFor s.hw.lane = true) (hw : widthOk s)
    (h : exec i s = .next t) : t.lanes = f s.hw.lane s.width s.lanes := by
  rw [exec_primitive_done hf hl hw] at h
  rw [← Host.Outcome.next.inj h, afterPrimitive_lanes]

end

/-- Settles O29. -/
theorem primitivesCheckThenCannotFault : Obligations.PrimitivesCheckThenCannotFault := by
  unfold Obligations.PrimitivesCheckThenCannotFault
  intro i s hi
  obtain ⟨f, hf⟩ := exists_primitiveFn hi
  refine ⟨exec_primitive_illegal hf, exec_primitive_badWidth hf, fun hl hw hs => ?_⟩
  obtain ⟨-, -, -, kept⟩ := afterPrimitive_completed hf hl hs hw
  exact ⟨_, exec_primitive_done hf hl hw, rfl, kept⟩

/-! ### Operations that alternate the units of two registers -/

/-- The pairing rule of a `SKIP` primitive, or of a `NEXT` one. -/
def pairing (skip : Bool) : Pairing := if skip then .skip else .next

theorem pairing_first (skip : Bool) (k : Nat) : (pairing skip).first k = pairFirst skip k := by cases skip <;> rfl

theorem pairing_second (skip : Bool) (half k : Nat) : (pairing skip).second half k = pairSecond skip half k := by
  cases skip <;> rfl

/-- Within each block of `2·m` bytes, `x a b` alternates the `g`-byte units of `a` and of `b`, `m` bytes of each, taken
from byte `base` of the block on. -/
def alternatesUnits (len m g base : Nat) (x : Lane → Lane → Lane) : Prop :=
  ∀ a b : Lane, a.length = len → b.length = len → ∀ h < len / (2 * m), ∀ n < m / g, ∀ u < g,
    (x a b).getD (2 * m * h + 2 * n * g + u) 0 = a.getD (2 * m * h + base + n * g + u) 0 ∧
    (x a b).getD (2 * m * h + (2 * n + 1) * g + u) 0 = b.getD (2 * m * h + base + n * g + u) 0

/-- `lo` and `hi` alternate units within each 128-bit lane (40_primitives R96). -/
theorem perLane_alternatesUnits (l : LaneLen) {g : Nat} (hg : Granule g) {base : Nat} (hbase : base + 8 ≤ 16) :
    alternatesUnits l.bytes 8 g base (perLane l fun x y => alternate base x y g) := by
  intro a b ha hb h hh n hn u hu
  have fits : (n + 1) * g ≤ 8 := (Nat.mul_le_mul_right g hn).trans (Nat.div_mul_le_self 8 g)
  have first : 2 * n * g + u < 16 := by nlinarith
  have second : (2 * n + 1) * g + u < 16 := by nlinarith
  have inLane : base + n * g + u < 16 := by nlinarith
  have lane : ∀ v : Lane, v.length = l.bytes → (slice v (16 * h) (16 * h + 16)).length = 16 := by
    intro v hv
    rw [slice_length] <;> omega
  obtain ⟨fromA, fromB⟩ := alternate_getD hbase (lane a ha) (lane b hb) hn hu
  have len : ∀ x y : Lane, x.length = 16 → y.length = 16 → (alternate base x y g).length = 16 :=
    fun _ _ => alternate_length hg hbase
  rw [slice_getD _ (by omega)] at fromA fromB
  simp only [Nat.add_assoc] at *
  exact ⟨(perLane_getD ha hb len hh first).trans fromA, (perLane_getD ha hb len hh second).trans fromB⟩

theorem getD_slice_append_slice {a b : Lane} {lo hi j : Nat} (ha : hi ≤ a.length) (hj : j < hi - lo) :
    (slice a lo hi ++ slice b lo hi).getD j 0 = a.getD (lo + j) 0 ∧
    (slice a lo hi ++ slice b lo hi).getD (hi - lo + j) 0 = b.getD (lo + j) 0 := by
  have hlen := slice_length (a := lo) ha
  rw [List.getD_append _ _ _ _ (by omega), List.getD_append_right _ _ _ _ (by omega), hlen, Nat.add_sub_cancel_left,
    slice_getD _ hj, slice_getD _ hj]
  exact ⟨rfl, rfl⟩

/-- The wide gathers alternate units of 16 bytes: the low halves, or the high halves (40_primitives R90). -/
theorem gatherLow_alternatesUnits : alternatesUnits 32 16 16 0 gatherLow := by
  intro a b ha hb h hh n hn u hu
  obtain ⟨rfl, rfl⟩ : h = 0 ∧ n = 0 := by omega
  simpa [gatherLow] using getD_slice_append_slice (b := b) (by omega : 16 ≤ a.length) (by omega : u < 16 - 0)

theorem gatherHigh_alternatesUnits : alternatesUnits 32 16 16 16 gatherHigh := by
  intro a b ha hb h hh n hn u hu
  obtain ⟨rfl, rfl⟩ : h = 0 ∧ n = 0 := by omega
  simpa [gatherHigh] using getD_slice_append_slice (b := b) (by omega : 32 ≤ a.length) (by omega : u < 32 - 16)

/-! ### Paired primitives -/

/-- From `s` to `t` the units of each pair of active registers were interleaved within blocks of `2·m` bytes, the first
`m` bytes of each source block into `V[2k]`, the others into `V[2k+1]` (40_primitives R82 to R91). -/
def interleavesPairs (skip : Bool) (m g : Nat) (s t : State) : Prop :=
  ∀ k < s.width / 2, ∀ h < s.laneBytes / (2 * m), ∀ n < m / g, ∀ u < g,
    t.laneByte (2 * k) (2 * m * h + 2 * n * g + u) = s.laneByte (pairFirst skip k) (2 * m * h + n * g + u) ∧
    t.laneByte (2 * k) (2 * m * h + (2 * n + 1) * g + u) =
      s.laneByte (pairSecond skip (s.width / 2) k) (2 * m * h + n * g + u) ∧
    t.laneByte (2 * k + 1) (2 * m * h + 2 * n * g + u) =
      s.laneByte (pairFirst skip k) (2 * m * h + m + n * g + u) ∧
    t.laneByte (2 * k + 1) (2 * m * h + (2 * n + 1) * g + u) =
      s.laneByte (pairSecond skip (s.width / 2) k) (2 * m * h + m + n * g + u)

/-- A paired operation interleaves the pairs when its two results alternate the units of the two halves. -/
theorem interleavesPairs_of_pairwise {skip : Bool} {m g : Nat} {x y : Lane → Lane → Lane} {s t : State}
    (hs : lanesWf s) (hw : widthOk s) (hx : alternatesUnits s.hw.lane.bytes m g 0 x)
    (hy : alternatesUnits s.hw.lane.bytes m g m y) (ht : t.lanes = pairwise (pairing skip) x y s.width s.lanes) :
    interleavesPairs skip m g s t := by
  intro k hk h hh n hn u hu
  obtain ⟨even, odd⟩ := pairwise_lane (p := pairing skip) (x := x) (y := y) (v := s.lanes) hk
  have ha := lane_length hs hw (Pairing.first_lt (p := pairing skip) hk)
  have hb := lane_length hs hw (Pairing.second_lt (p := pairing skip) hk)
  obtain ⟨xa, xb⟩ := hx _ _ ha hb h hh n hn u hu
  obtain ⟨ya, yb⟩ := hy _ _ ha hb h hh n hn u hu
  rw [← ht] at even odd
  simp only [pairing_first, pairing_second, Nat.add_zero] at even odd xa xb ya yb
  simp only [State.laneByte, State.lane, even, odd] at xa xb ya yb ⊢
  exact ⟨xa, xb, ya, yb⟩

/-- The register of pair `k` that unit `β` of a pair of units comes from: `A` for 0, `B` for 1 (40_primitives R80). -/
def pairMember (skip : Bool) (half k β : Nat) : Nat := if skip then k + β * half else 2 * k + β

/-- The byte that interleaved pairs have at unit `2n + β` of a block of `V[2k + b]`. -/
theorem interleavesPairs.byte {skip : Bool} {m g : Nat} {s t : State} (hi : interleavesPairs skip m g s t)
    {k h n u b β : Nat} (hk : k < s.width / 2) (hh : h < s.laneBytes / (2 * m)) (hn : n < m / g) (hu : u < g)
    (hb : b < 2) (hβ : β < 2) :
    t.laneByte (2 * k + b) (2 * m * h + (2 * n + β) * g + u) =
      s.laneByte (pairMember skip (s.width / 2) k β) (2 * m * h + b * m + n * g + u) := by
  obtain ⟨a0, b0, a1, b1⟩ := hi k hk h hh n hn u hu
  have first : pairMember skip (s.width / 2) k 0 = pairFirst skip k := by simp [pairMember, pairFirst]
  have second : pairMember skip (s.width / 2) k 1 = pairSecond skip (s.width / 2) k := by
    simp [pairMember, pairSecond]
  rcases (by omega : b = 0 ∨ b = 1) with rfl | rfl <;> rcases (by omega : β = 0 ∨ β = 1) with rfl | rfl
  · simpa [first] using a0
  · simpa [second] using b0
  · simpa [first] using a1
  · simpa [second] using b1

/-- A row of the table of interleaves, in the model's terms. -/
theorem unpkTable_row {i : Instr} {skip : Bool} {g : Nat} (h : (i, skip, g) ∈ unpkTable) :
    primitiveFn i = some (interleave (pairing skip) g) ∧ Granule g ∧ i.cls = .unpk := by
  simp only [unpkTable, List.mem_cons, Prod.mk.injEq, List.not_mem_nil, or_false] at h
  rcases h with ⟨rfl, rfl, rfl⟩ | ⟨rfl, rfl, rfl⟩ | ⟨rfl, rfl, rfl⟩ | ⟨rfl, rfl, rfl⟩ | ⟨rfl, rfl, rfl⟩ |
    ⟨rfl, rfl, rfl⟩ | ⟨rfl, rfl, rfl⟩ | ⟨rfl, rfl, rfl⟩ <;> exact ⟨rfl, by simp [Granule], rfl⟩

theorem interleave_interleavesPairs {skip : Bool} {g : Nat} (hg : Granule g) {s t : State} (hs : lanesWf s)
    (hw : widthOk s) (ht : t.lanes = interleave (pairing skip) g s.hw.lane s.width s.lanes) :
    interleavesPairs skip 8 g s t :=
  interleavesPairs_of_pairwise hs hw (perLane_alternatesUnits _ hg (by omega))
    (perLane_alternatesUnits _ hg (by omega)) ht

theorem perm128_interleavesPairs {skip : Bool} {s t : State} (hl : s.hw.lane = .l32) (hs : lanesWf s)
    (hw : widthOk s) (ht : t.lanes = perm128 (pairing skip) s.hw.lane s.width s.lanes) :
    interleavesPairs skip 16 16 s t :=
  interleavesPairs_of_pairwise hs hw (hl ▸ gatherLow_alternatesUnits) (hl ▸ gatherHigh_alternatesUnits) ht

/-- Settles O25: the two results of a pair alternate the units of its low and of its high halves. -/
theorem interleavesAlternateUnits : Obligations.InterleavesAlternateUnits := by
  unfold Obligations.InterleavesAlternateUnits
  intro i skip g hrow s hs hw
  obtain ⟨hf, hg, hcls⟩ := unpkTable_row hrow
  have hl := legalFor_of_cls_unpk hcls s.hw.lane
  obtain ⟨done, mem, wf, kept⟩ := afterPrimitive_completed hf hl hs hw
  exact ⟨_, exec_primitive_done hf hl hw, done, mem, wf, kept, interleave_interleavesPairs hg hs hw rfl⟩

/-- Settles O26: byte `q` of a block is byte `q mod g` of unit `2·(q / g / 2) + q / g mod 2`. -/
theorem interleavesInIndexForm : Obligations.InterleavesInIndexForm := by
  unfold Obligations.InterleavesInIndexForm
  intro i skip g hrow s t hs hw h k hk b hb y hy q hq
  obtain ⟨hf, hg, hcls⟩ := unpkTable_row hrow
  have pairs : interleavesPairs skip 8 g s t :=
    interleave_interleavesPairs hg hs hw (primitive_lanes hf (legalFor_of_cls_unpk hcls _) hw h)
  have hn : q / g / 2 < 8 / g := by rcases hg with rfl | rfl | rfl | rfl <;> omega
  have hu : q % g < g := Nat.mod_lt _ (by rcases hg with rfl | rfl | rfl | rfl <;> decide)
  have unit : (2 * (q / g / 2) + q / g % 2) * g + q % g = q := by rw [Nat.div_add_mod, Nat.div_add_mod']
  have byte := pairs.byte hk hy hn hu hb (Nat.mod_lt (q / g) two_pos)
  rw [Nat.add_assoc (2 * 8 * y), unit] at byte
  rw [byte, Nat.mul_comm b]
  simp only [Nat.add_assoc]
  rfl

/-- The row of a wide permute, in the model's terms. -/
theorem perm128_primitiveFn {i : Instr} {skip : Bool}
    (h : (i = .perm128Next ∧ skip = false) ∨ (i = .perm128Skip ∧ skip = true)) :
    primitiveFn i = some (perm128 (pairing skip)) ∧ i.legalFor .l16 = false := by
  rcases h with ⟨rfl, rfl⟩ | ⟨rfl, rfl⟩ <;> exact ⟨rfl, rfl⟩

/-- Settles O27: an interleave with units of 16 bytes, one from each half. -/
theorem widePermutesGatherHalves : Obligations.WidePermutesGatherHalves := by
  unfold Obligations.WidePermutesGatherHalves
  intro i skip hi
  obtain ⟨hf, illegal⟩ := perm128_primitiveFn hi
  refine ⟨fun s h32 hs hw => ?_, fun s h16 => exec_primitive_illegal hf (h16 ▸ illegal)⟩
  have hl : i.legalFor s.hw.lane = true := h32 ▸ legalFor_l32 i
  obtain ⟨done, mem, wf, kept⟩ := afterPrimitive_completed hf hl hs hw
  refine ⟨_, exec_primitive_done hf hl hw, done, mem, wf, kept, fun k hk j hj => ?_⟩
  have bytes : 0 < s.laneBytes / (2 * 16) := by simp [State.laneBytes, h32, LaneLen.bytes]
  simpa using perm128_interleavesPairs h32 hs hw rfl k hk 0 bytes 0 (by decide) j hj

/-! ### `SHUFQ.SELF` (40_primitives R92) -/

/-- Quarter `c` of the shuffled register is quarter 0, 2, 1, 3 of the register. -/
theorem swapMiddle_getD {a : Lane} (ha : a.length = 32) {c j : Nat} (hc : c < 4) (hj : j < 8) :
    (swapMiddle a).getD (8 * c + j) 0 = a.getD (8 * (c % 2 * 2 + c / 2) + j) 0 := by
  have quarterwise : swapMiddle a =
      (List.range 4).flatMap fun c => slice a (8 * (c % 2 * 2 + c / 2)) (8 * (c % 2 * 2 + c / 2) + 8) := by
    simp [swapMiddle, List.range_succ]
  rw [quarterwise, Nat.mul_comm 8 c, getD_flatMap_range _ 8 4 0 (fun c hc => by rw [slice_length] <;> omega) hc hj,
    slice_getD _ (by omega)]

/-- A register whose quarters are `p`, `q`, `r` and `w`, shuffled. -/
theorem swapMiddle_append {p q r w : Lane} (hp : p.length = 8) (hq : q.length = 8) (hr : r.length = 8)
    (hw : w.length = 8) : swapMiddle (p ++ q ++ r ++ w) = p ++ r ++ q ++ w := by
  simp [swapMiddle, slice, List.drop_append, List.drop_eq_nil_of_le, hp, hq, hr, hw]

theorem swapMiddle_swapMiddle {a : Lane} (ha : a.length = 32) : swapMiddle (swapMiddle a) = a := by
  conv_lhs => rw [swapMiddle.eq_def a]
  rw [swapMiddle_append, quarters a ha] <;> rw [slice_length] <;> omega

/-- The shuffle restores the lane registers the second time. -/
theorem shufq_shufq (l : LaneLen) {size : Nat} {v : List Lane} (hsize : size ≤ v.length)
    (hv : ∀ w ∈ v, w.length = 32) : shufq l size (shufq l size v) = v := by
  have hlen : ((v.take size).map swapMiddle).length = size := by simp [hsize]
  have back : ((v.take size).map swapMiddle).map swapMiddle = v.take size := by
    rw [List.map_map]
    exact (List.map_congr_left fun w hw => swapMiddle_swapMiddle (hv w (List.mem_of_mem_take hw))).trans
      (List.map_id _)
  rw [shufq, shufq, List.take_left' hlen, List.drop_left' hlen, back, List.take_append_drop]

/-- Byte `j` of quarter `c` of a shuffled register. -/
theorem shufq_laneByte {s t : State} (hl : s.hw.lane = .l32) (hs : lanesWf s) (hw : widthOk s)
    (ht : t.lanes = shufq s.hw.lane s.width s.lanes) {r c j : Nat} (hr : r < s.width) (hc : c < 4) (hj : j < 8) :
    t.laneByte r (8 * c + j) = s.laneByte r (8 * (c % 2 * 2 + c / 2) + j) := by
  have hlen : r < s.lanes.length := by rw [hs.1]; exact lt_of_lt_of_le hr (width_le_numLanes hw)
  have shuffled : t.lane r = swapMiddle (s.lane r) := by
    simp [State.lane, ht, shufq, List.getD, List.getElem?_append, hr, hlen]
  have len : (s.lane r).length = 32 := by rw [lane_length hs hw hr, hl]; rfl
  rw [State.laneByte, State.laneByte, shuffled, swapMiddle_getD len hc hj]

/-- Settles O28: bytes by quarters, and the shuffle of registers of 32 bytes is its own inverse. -/
theorem shuffleSwapsMiddleQuarters : Obligations.ShuffleSwapsMiddleQuarters := by
  unfold Obligations.ShuffleSwapsMiddleQuarters
  have hf : primitiveFn .shufqSelf = some shufq := rfl
  refine ⟨fun s h32 hs hw => ?_, fun s h16 => exec_primitive_illegal hf (by rw [h16]; rfl)⟩
  have hl : Instr.shufqSelf.legalFor s.hw.lane = true := h32 ▸ legalFor_l32 _
  have hlen : s.width ≤ s.lanes.length := by rw [hs.1]; exact width_le_numLanes hw
  obtain ⟨done, mem, wf, kept⟩ := afterPrimitive_completed hf hl hs hw
  refine ⟨_, exec_primitive_done hf hl hw, done, mem, wf, kept, fun r hr j hj => ?_,
    _, exec_primitive_done (s := afterPrimitive shufq s) hf hl hw, shufq_shufq s.hw.lane hlen fun v hv => ?_⟩
  · have quarter := fun c hc => shufq_laneByte (t := afterPrimitive shufq s) h32 hs hw rfl hr (c := c) hc hj
    exact ⟨by simpa using quarter 0 (by decide), quarter 1 (by decide), quarter 2 (by decide), quarter 3 (by decide)⟩
  · exact (hs.2 v hv).trans (by rw [State.laneBytes, h32]; rfl)

end Sys2Proof.Machine
end

section
/-! Positions as bits: every primitive rotates two bit fields of a byte's position (40_primitives R94, R97). -/

namespace Sys2Proof.Machine

/-! ### Numbers as bit strings -/

/-- The bits of `x` above `n` bits that hold `y`. -/
def joinBits (n x y : Nat) : Nat := 2 ^ n * x + y

theorem joinBits_lt {n m x y : Nat} (hx : x < 2 ^ m) (hy : y < 2 ^ n) : joinBits n x y < 2 ^ (n + m) := by
  rw [joinBits, pow_add]
  nlinarith

theorem testBit_joinBits {n x y : Nat} (hy : y < 2 ^ n) (c : Nat) :
    (joinBits n x y).testBit c = if c < n then y.testBit c else x.testBit (c - n) :=
  Nat.testBit_two_pow_mul_add x hy c

theorem exists_joinBits {n m a : Nat} (ha : a < 2 ^ (n + m)) : ∃ x < 2 ^ m, ∃ y < 2 ^ n, a = joinBits n x y := by
  obtain ⟨x, hx, y, hy, rfl⟩ := exists_mul_add (by rwa [Nat.add_comm, pow_add] at ha : a < 2 ^ m * 2 ^ n)
  exact ⟨x, hx, y, hy, by rw [joinBits, Nat.mul_comm]⟩

theorem testBit_of_not_lt_eight {x c : Nat} (hx : x < 2 ^ 8) (hc : ¬c < 8) : x.testBit c = false :=
  Nat.testBit_lt_two_pow (hx.trans_le (Nat.pow_le_pow_right two_pos (by omega)))

/-- The sum of the bits of a moved position is the number they make. -/
theorem movePosition_eq_ofBits (field : List Nat) (a : Nat) :
    movePosition field a = Nat.ofBits fun c : Fin 8 => a.testBit (sourceBit field c) := by
  have bit : ∀ c, a / 2 ^ c % 2 = (a.testBit c).toNat := fun c => (Nat.toNat_testBit a c).symm
  simp only [movePosition, bit, Nat.ofBits, Fin.foldr_eq_foldr_finRange]
  simp [List.range_succ, List.finRange_succ]
  ring

/-- Bit `c` of a moved position is the bit the field says (40_primitives R97). -/
theorem movePosition_testBit (field : List Nat) (a : Nat) {c : Nat} (hc : c < 8) :
    (movePosition field a).testBit c = a.testBit (sourceBit field c) := by
  rw [movePosition_eq_ofBits, Nat.testBit_ofBits_lt _ _ hc]

theorem movePosition_lt (field : List Nat) (a : Nat) : movePosition field a < 2 ^ 8 := by
  rw [movePosition_eq_ofBits]
  exact Nat.ofBits_lt_two_pow _

/-- No two positions move to one when every bit of the old position is a bit of the new one. -/
theorem movePosition_injOn {field : List Nat} (hf : ∀ c < 8, ∃ d < 8, sourceBit field d = c) {a b : Nat}
    (ha : a < 2 ^ 8) (hb : b < 2 ^ 8) (h : movePosition field a = movePosition field b) : a = b := by
  refine Nat.eq_of_testBit_eq fun c => ?_
  by_cases hc : c < 8
  · obtain ⟨d, hd, rfl⟩ := hf c hc
    rw [← movePosition_testBit field a hd, h, movePosition_testBit field b hd]
  · rw [testBit_of_not_lt_eight ha hc, testBit_of_not_lt_eight hb hc]

/-! ### The rotation of two fields of a position (40_primitives R97) -/

/-- The bits of a position, least significant first: `low` bits, a field of `lower + 1`, `gap` bits, a field of
`upper + 1`, and `rest` bits. The two fields, the upper one above the lower one, rotate as one. -/
structure Rotation where
  low : Nat
  lower : Nat
  gap : Nat
  upper : Nat
  rest : Nat

namespace Rotation

/-- The lowest bit of the upper field. -/
def base (R : Rotation) : Nat := R.low + (R.lower + 1) + R.gap

/-- How many bits a position has. -/
def bits (R : Rotation) : Nat := R.base + (R.upper + 1 + R.rest)

/-- The bit of the old position that bit `c` of the new one equals. -/
def sourceBit (R : Rotation) (c : Nat) : Nat :=
  if c = R.low then R.base + R.upper
  else if c = R.base then R.low + R.lower
  else if R.low < c ∧ c ≤ R.low + R.lower ∨ R.base < c ∧ c ≤ R.base + R.upper then c - 1
  else c

/-- The position with these five bit strings, `up` and `down` in the two fields. -/
def position (R : Rotation) (top up mid down bot : Nat) : Nat :=
  joinBits R.base (joinBits (R.upper + 1) top up) (joinBits (R.low + (R.lower + 1)) mid (joinBits R.low down bot))

/-- The parts of a position outside the two fields, and each field as its top bit (`β`, `b`) and the bits below it. -/
structure Parts where
  top : Nat
  β : Nat
  k : Nat
  mid : Nat
  b : Nat
  n : Nat
  bot : Nat

/-- Every part fits its place. -/
structure Parts.Fit (R : Rotation) (p : Parts) : Prop where
  top : p.top < 2 ^ R.rest
  β : p.β < 2 ^ 1
  k : p.k < 2 ^ R.upper
  mid : p.mid < 2 ^ R.gap
  b : p.b < 2 ^ 1
  n : p.n < 2 ^ R.lower
  bot : p.bot < 2 ^ R.low

/-- The position before the rotation. -/
def before (R : Rotation) (p : Parts) : Nat :=
  R.position p.top (joinBits R.upper p.β p.k) p.mid (joinBits R.lower p.b p.n) p.bot

/-- The position after it: each field goes up by one bit, and the top bit of each comes in at the foot of the other. -/
def after (R : Rotation) (p : Parts) : Nat :=
  R.position p.top (joinBits 1 p.k p.b) p.mid (joinBits 1 p.n p.β) p.bot

theorem byteIndex_lt {R : Rotation} {mid down bot : Nat} (hmid : mid < 2 ^ R.gap) (hdown : down < 2 ^ (R.lower + 1))
    (hbot : bot < 2 ^ R.low) : joinBits (R.low + (R.lower + 1)) mid (joinBits R.low down bot) < 2 ^ R.base :=
  joinBits_lt hmid (joinBits_lt hdown hbot)

theorem position_testBit {R : Rotation} {top up mid down bot : Nat} (hup : up < 2 ^ (R.upper + 1))
    (hmid : mid < 2 ^ R.gap) (hdown : down < 2 ^ (R.lower + 1)) (hbot : bot < 2 ^ R.low) (c : Nat) :
    (R.position top up mid down bot).testBit c =
      if c < R.low then bot.testBit c
      else if c < R.low + (R.lower + 1) then down.testBit (c - R.low)
      else if c < R.base then mid.testBit (c - (R.low + (R.lower + 1)))
      else if c < R.base + (R.upper + 1) then up.testBit (c - R.base)
      else top.testBit (c - (R.base + (R.upper + 1))) := by
  rw [position, testBit_joinBits (byteIndex_lt hmid hdown hbot), testBit_joinBits hup,
    testBit_joinBits (joinBits_lt hdown hbot), testBit_joinBits hbot]
  unfold base
  grind

theorem exists_before (R : Rotation) {a : Nat} (ha : a < 2 ^ R.bits) : ∃ p : Parts, p.Fit R ∧ a = R.before p := by
  obtain ⟨regs, hregs, bytes, hbytes, rfl⟩ := exists_joinBits ha
  obtain ⟨top, htop, up, hup, rfl⟩ := exists_joinBits hregs
  obtain ⟨mid, hmid, rest, hrest, rfl⟩ := exists_joinBits hbytes
  obtain ⟨down, hdown, bot, hbot, rfl⟩ := exists_joinBits hrest
  obtain ⟨β, hβ, k, hk, rfl⟩ := exists_joinBits hup
  obtain ⟨b, hb, n, hn, rfl⟩ := exists_joinBits hdown
  exact ⟨⟨top, β, k, mid, b, n, bot⟩, ⟨htop, hβ, hk, hmid, hb, hn, hbot⟩, rfl⟩

section
variable {R : Rotation} {p : Parts} (hp : p.Fit R)
include hp

theorem Parts.Fit.up : joinBits 1 p.k p.b < 2 ^ (R.upper + 1) := Nat.add_comm 1 _ ▸ joinBits_lt hp.k hp.b

theorem Parts.Fit.down : joinBits 1 p.n p.β < 2 ^ (R.lower + 1) := Nat.add_comm 1 _ ▸ joinBits_lt hp.n hp.β

theorem after_lt : R.after p < 2 ^ R.bits :=
  joinBits_lt (joinBits_lt hp.top hp.up) (byteIndex_lt hp.mid hp.down hp.bot)

/-- The bits of the new position are those of the old one, rotated: in whichever part bit `c` falls, it has moved up by
one within its field, come in from the top of the other field, or stayed. -/
theorem after_testBit (c : Nat) : (R.after p).testBit c = (R.before p).testBit (R.sourceBit c) := by
  rw [after, before, position_testBit hp.up hp.mid hp.down hp.bot,
    position_testBit (joinBits_lt hp.β hp.k) hp.mid (joinBits_lt hp.b hp.n) hp.bot]
  simp only [testBit_joinBits hp.k, testBit_joinBits hp.n, testBit_joinBits hp.b, testBit_joinBits hp.β]
  unfold sourceBit base
  grind

/-- A field of bits that goes round as `R` says takes the position before to the one after. -/
theorem movePosition_before {field : List Nat} (hfield : ∀ c < 8, Machine.sourceBit field c = R.sourceBit c)
    (hbits : R.bits ≤ 8) : movePosition field (R.before p) = R.after p := by
  refine Nat.eq_of_testBit_eq fun c => ?_
  by_cases hc : c < 8
  · rw [movePosition_testBit field _ hc, hfield c hc, after_testBit hp]
  · have after_lt_256 := (after_lt hp).trans_le (Nat.pow_le_pow_right two_pos hbits)
    rw [testBit_of_not_lt_eight (movePosition_lt _ _) hc, testBit_of_not_lt_eight after_lt_256 hc]

end

end Rotation

/-! ### Every primitive is such a rotation -/

/-- The rotation of a paired primitive that interleaves units of `2^g` bytes within blocks of `2^(m+1)`: its upper field
is the register index of a `SKIP` primitive, or bit 0 of it. -/
def pairRotation (skip : Bool) (g m : Nat) (l : LaneLen) (regBits : Nat) : Rotation where
  low := g
  lower := m - g
  gap := l.log2.toNat - (m + 1)
  upper := if skip then regBits - 1 else 0
  rest := if skip then 0 else regBits - 1

/-- The rotation of `SHUFQ.SELF`: two single bits, 3 and 4 of a byte's index, swap. -/
def shufqRotation (regBits : Nat) : Rotation where
  low := 3
  lower := 0
  gap := 0
  upper := 0
  rest := regBits

/-- The rotation of each primitive; a memory command has none, and is given that of the shuffle. -/
def rotation (i : Instr) (l : LaneLen) (regBits : Nat) : Rotation :=
  match i with
  | .unpk8Next => pairRotation false 0 3 l regBits
  | .unpk16Next => pairRotation false 1 3 l regBits
  | .unpk32Next => pairRotation false 2 3 l regBits
  | .unpk64Next => pairRotation false 3 3 l regBits
  | .unpk8Skip => pairRotation true 0 3 l regBits
  | .unpk16Skip => pairRotation true 1 3 l regBits
  | .unpk32Skip => pairRotation true 2 3 l regBits
  | .unpk64Skip => pairRotation true 3 3 l regBits
  | .perm128Next => pairRotation false 4 4 l regBits
  | .perm128Skip => pairRotation true 4 4 l regBits
  | .shufqSelf | .lde | .stp | .ldp | .ste | .sce | .scd | .enc | .dec => shufqRotation regBits

/-- The primitives (40_primitives R81). -/
def primitives : List Instr :=
  [.unpk8Next, .unpk16Next, .unpk32Next, .unpk64Next, .unpk8Skip, .unpk16Skip, .unpk32Skip, .unpk64Skip,
   .perm128Next, .perm128Skip, .shufqSelf]

theorem mem_primitives {i : Instr} (hi : i.isMemory = false) : i ∈ primitives := by
  revert hi
  cases i <;> decide

theorem mem_laneLens (l : LaneLen) : l ∈ [LaneLen.l16, .l32] := by cases l <;> decide

/-- The rotation of a primitive is that of the field R97 gives it. -/
theorem rotation_rotatedField : ∀ i ∈ primitives, ∀ l ∈ [LaneLen.l16, .l32], i.legalFor l = true → ∀ r ∈ [2, 3],
    (rotation i l r).bits = r + l.log2.toNat ∧
    ∀ c < 8, sourceBit (rotatedField i l r) c = (rotation i l r).sourceBit c := by decide

/-- Every bit of the old position is a bit of the new one. -/
theorem sourceBit_rotatedField_surj : ∀ i ∈ primitives, ∀ l ∈ [LaneLen.l16, .l32],
    i.legalFor l = true → ∀ r ∈ [2, 3], ∀ c < 8, ∃ d < 8, sourceBit (rotatedField i l r) d = c := by decide

theorem two_pow_log2 (l : LaneLen) : 2 ^ l.log2.toNat = l.bytes := by cases l <;> rfl

/-- The byte at a position made of a register index and a byte index. -/
theorem posByte_joinBits {s : State} {n r j : Nat} (hn : n = s.hw.lane.log2.toNat) (hj : j < 2 ^ n) :
    s.posByte (joinBits n r j) = s.laneByte r j := by
  rw [hn, two_pow_log2] at hj
  have hL : s.laneBytes = s.hw.lane.bytes := rfl
  rw [State.posByte, joinBits, hn, two_pow_log2, hL, Nat.mul_add_div (by omega), Nat.div_eq_of_lt hj, Nat.add_zero,
    Nat.mul_add_mod, Nat.mod_eq_of_lt hj]

theorem width_eq_two_pow {s : State} (hw : widthOk s) : s.width = 2 ^ s.regBits ∧ s.regBits ∈ [2, 3] := by
  rcases hw with h | h <;> simp [State.regBits, h]

/-- The register a unit comes from, as the rotation has it. -/
theorem pairMember_eq_joinBits {skip : Bool} {g m : Nat} {l : LaneLen} {r : Nat} {p : Rotation.Parts}
    (hp : p.Fit (pairRotation skip g m l r)) :
    pairMember skip (2 ^ (r - 1)) (joinBits (pairRotation skip g m l r).upper p.top p.k) p.β =
      joinBits ((pairRotation skip g m l r).upper + 1) p.top (joinBits (pairRotation skip g m l r).upper p.β p.k) := by
  cases skip with
  | false =>
    have hk : p.k = 0 := by simpa [pairRotation] using hp.k
    simp [pairMember, joinBits, pairRotation, hk]
  | true =>
    have htop : p.top = 0 := by simpa [pairRotation] using hp.top
    simp only [pairMember, joinBits, pairRotation, htop, if_true]
    ring

/-- From `s` to `t` the byte at each position went to the position after the rotation. -/
def rotatesBytes (R : Rotation) (s t : State) : Prop :=
  ∀ p : Rotation.Parts, p.Fit R → t.posByte (R.after p) = s.posByte (R.before p)

/-- Interleaved pairs are a rotation of position bits. -/
theorem interleavesPairs.rotatesBytes {skip : Bool} {g m : Nat} {s t : State} (hw : widthOk s)
    (hi : interleavesPairs skip (2 ^ m) (2 ^ g) s t) (hhw : t.hw = s.hw) (hgm : g ≤ m)
    (hm : m + 1 ≤ s.hw.lane.log2.toNat) :
    rotatesBytes (pairRotation skip g m s.hw.lane s.regBits) s t := by
  intro p hp
  generalize hR : pairRotation skip g m s.hw.lane s.regBits = R at hp ⊢
  have low : R.low = g := by rw [← hR]; rfl
  have lower : R.lower = m - g := by rw [← hR]; rfl
  have gap : R.gap = s.hw.lane.log2.toNat - (m + 1) := by rw [← hR]; rfl
  have base : R.base = s.hw.lane.log2.toNat := by simp only [Rotation.base, low, lower, gap]; omega
  have pairBits : R.upper + R.rest = s.regBits - 1 := by rw [← hR]; cases skip <;> simp [pairRotation]
  have half : 2 ^ m = 2 ^ g * 2 ^ R.lower := by rw [lower, ← pow_add]; congr 1; omega
  have block : 2 ^ (R.low + (R.lower + 1)) = 2 * 2 ^ m := by rw [half, low]; ring
  have units : 2 ^ m / 2 ^ g = 2 ^ R.lower := by rw [lower, Nat.pow_div hgm two_pos]
  have blocks : s.laneBytes / (2 * 2 ^ m) = 2 ^ R.gap := by
    rw [State.laneBytes, ← two_pow_log2, ← pow_succ', Nat.pow_div hm two_pos, gap]
  have width : s.width / 2 = 2 ^ (s.regBits - 1) := by rcases hw with h | h <;> simp [State.regBits, h]
  have hk : joinBits R.upper p.top p.k < s.width / 2 := by rw [width, ← pairBits]; exact joinBits_lt hp.top hp.k
  have byte := hi.byte hk (blocks ▸ hp.mid) (units ▸ hp.n) (low ▸ hp.bot) hp.b hp.β
  rw [width, ← hR, pairMember_eq_joinBits (hR ▸ hp), hR] at byte
  have reg : joinBits (R.upper + 1) p.top (joinBits 1 p.k p.b) = 2 * joinBits R.upper p.top p.k + p.b := by
    simp only [joinBits]; ring
  rw [Rotation.after, Rotation.before, Rotation.position, Rotation.position,
    posByte_joinBits (by rw [base, hhw]) (Rotation.byteIndex_lt hp.mid hp.down hp.bot),
    posByte_joinBits base (Rotation.byteIndex_lt hp.mid (joinBits_lt hp.b hp.n) hp.bot), reg]
  convert byte using 2
  · rw [joinBits, block, low, joinBits, joinBits]; ring
  · rw [joinBits, block, low, joinBits, joinBits, half]; ring

/-- The shuffle is a rotation of position bits. -/
theorem shufq_rotatesBytes {s t : State} (hl : s.hw.lane = .l32) (hs : lanesWf s) (hw : widthOk s) (hhw : t.hw = s.hw)
    (ht : t.lanes = shufq s.hw.lane s.width s.lanes) : rotatesBytes (shufqRotation s.regBits) s t := by
  intro p hp
  obtain ⟨htop, hβ, hk, hmid, hb, hn, hbot⟩ := hp
  simp only [shufqRotation, pow_zero, pow_one, Nat.lt_one_iff] at htop hβ hk hmid hb hn hbot
  have hr : p.top < s.width := by rw [(width_eq_two_pow hw).1]; exact htop
  have byte := shufq_laneByte hl hs hw ht hr (c := 2 * p.b + p.β) (by omega) hbot
  have after : (shufqRotation s.regBits).after p = joinBits 5 p.top (8 * (2 * p.b + p.β) + p.bot) := by
    simp only [Rotation.after, Rotation.position, Rotation.base, shufqRotation, joinBits, hk, hmid, hn]
    ring
  have before : (shufqRotation s.regBits).before p = joinBits 5 p.top (8 * (2 * p.β + p.b) + p.bot) := by
    simp only [Rotation.before, Rotation.position, Rotation.base, shufqRotation, joinBits, hk, hmid, hn]
    ring
  rw [after, before, posByte_joinBits (by rw [hhw, hl]; rfl) (by omega), posByte_joinBits (by rw [hl]; rfl) (by omega),
    byte]
  congr 1
  omega

/-- Every primitive that passes its checks rotates the bits of positions. -/
theorem primitive_rotatesBytes {i : Instr} {s t : State} (hi : i.isMemory = false)
    (hl : i.legalFor s.hw.lane = true) (hw : widthOk s) (hs : lanesWf s) (h : exec i s = .next t) :
    rotatesBytes (rotation i s.hw.lane s.regBits) s t := by
  have unpk : ∀ (skip : Bool) (g : Nat), g ≤ 3 → primitiveFn i = some (interleave (pairing skip) (2 ^ g)) →
      rotatesBytes (pairRotation skip g 3 s.hw.lane s.regBits) s t := by
    intro skip g hg hf
    have granule : Granule (2 ^ g) := by interval_cases g <;> simp [Granule]
    have blocks : 3 + 1 ≤ s.hw.lane.log2.toNat := by cases s.hw.lane <;> decide
    exact (interleave_interleavesPairs granule hs hw (primitive_lanes hf hl hw h)).rotatesBytes (m := 3) hw
      (exec_hw h) hg blocks
  have perm : s.hw.lane = .l32 → ∀ skip : Bool, primitiveFn i = some (perm128 (pairing skip)) →
      rotatesBytes (pairRotation skip 4 4 s.hw.lane s.regBits) s t := by
    intro h32 skip hf
    exact (perm128_interleavesPairs h32 hs hw (primitive_lanes hf hl hw h)).rotatesBytes (m := 4) (g := 4) hw
      (exec_hw h) le_rfl (by rw [h32]; decide)
  have wide : i.cls = .wide → s.hw.lane = .l32 := fun hcls => by simpa [Instr.legalFor, hcls] using hl
  cases i
  case unpk8Next => exact unpk false 0 (by decide) rfl
  case unpk16Next => exact unpk false 1 (by decide) rfl
  case unpk32Next => exact unpk false 2 (by decide) rfl
  case unpk64Next => exact unpk false 3 (by decide) rfl
  case unpk8Skip => exact unpk true 0 (by decide) rfl
  case unpk16Skip => exact unpk true 1 (by decide) rfl
  case unpk32Skip => exact unpk true 2 (by decide) rfl
  case unpk64Skip => exact unpk true 3 (by decide) rfl
  case perm128Next => exact perm (wide rfl) false rfl
  case perm128Skip => exact perm (wide rfl) true rfl
  case shufqSelf => exact shufq_rotatesBytes (wide rfl) hs hw (exec_hw h) (primitive_lanes rfl hl hw h)
  all_goals exact absurd hi (by decide)

/-- Every position has parts that fit, and the field of R97 takes it to the position after their rotation, which is a
position too. -/
theorem exists_parts {i : Instr} {l : LaneLen} {r a : Nat} (hi : i.isMemory = false) (hl : i.legalFor l = true)
    (hr : r ∈ [2, 3]) (ha : a < 2 ^ r * l.bytes) :
    movePosition (rotatedField i l r) a < 2 ^ r * l.bytes ∧
    ∃ p : Rotation.Parts, p.Fit (rotation i l r) ∧ a = (rotation i l r).before p ∧
      movePosition (rotatedField i l r) a = (rotation i l r).after p := by
  obtain ⟨bits, field⟩ := rotation_rotatedField i (mem_primitives hi) l (mem_laneLens l) hl r hr
  have positions : 2 ^ r * l.bytes = 2 ^ (rotation i l r).bits := by rw [bits, pow_add, two_pow_log2]
  have atMost : (rotation i l r).bits ≤ 8 := by
    have hlog : l.log2.toNat ≤ 5 := by cases l <;> decide
    have hregs : r = 2 ∨ r = 3 := by simpa using hr
    omega
  rw [positions] at ha ⊢
  obtain ⟨p, hp, rfl⟩ := Rotation.exists_before _ ha
  have moved := Rotation.movePosition_before hp field atMost
  exact ⟨moved ▸ Rotation.after_lt hp, p, hp, rfl, moved⟩

/-- Settles O31: cut a position at the two fields; the rule of the primitive moves the parts as the rotation does. -/
theorem primitivesRotatePositionBits : Obligations.PrimitivesRotatePositionBits := by
  unfold Obligations.PrimitivesRotatePositionBits
  intro i s t hi hl hw hs h a ha
  obtain ⟨width, hr⟩ := width_eq_two_pow hw
  rw [width, State.laneBytes] at ha ⊢
  obtain ⟨lt, p, hp, before, after⟩ := exists_parts hi hl hr ha
  refine ⟨lt, ?_⟩
  rw [after, before]
  exact primitive_rotatesBytes hi hl hw hs h p hp

/-- The positions of a primitive are permuted: no two of them move to one. -/
theorem exists_perm_movePosition {i : Instr} {l : LaneLen} {r : Nat} (hi : i.isMemory = false)
    (hl : i.legalFor l = true) (hr : r ∈ [2, 3]) : ∃ π : Equiv.Perm (Fin (2 ^ r * l.bytes)),
      ∀ a, (π a : Nat) = movePosition (rotatedField i l r) a := by
  have small : 2 ^ r * l.bytes ≤ 2 ^ 8 := by
    rcases (by simpa using hr : r = 2 ∨ r = 3) with rfl | rfl <;> cases l <;> decide
  have surj := sourceBit_rotatedField_surj i (mem_primitives hi) l (mem_laneLens l) hl r hr
  have inj : Function.Injective fun a : Fin (2 ^ r * l.bytes) =>
      (⟨movePosition (rotatedField i l r) a, (exists_parts hi hl hr a.isLt).1⟩ : Fin (2 ^ r * l.bytes)) :=
    fun a b hab => Fin.ext <| movePosition_injOn surj (a.isLt.trans_le small) (b.isLt.trans_le small) (Fin.mk.inj hab)
  exact ⟨Equiv.ofBijective _ (Finite.injective_iff_bijective.mp inj), fun _ => rfl⟩

/-- Settles O30: the rotation of O31 is a permutation of the positions, and does not look at the bytes. -/
theorem primitivesPermutePositions : Obligations.PrimitivesPermutePositions := by
  unfold Obligations.PrimitivesPermutePositions
  intro i l width hi hl hwidth
  obtain ⟨r, hr, rfl⟩ : ∃ r ∈ [2, 3], width = 2 ^ r := by rcases hwidth with rfl | rfl <;> decide
  obtain ⟨π, hπ⟩ := exists_perm_movePosition hi hl hr
  refine ⟨π, fun s t hlane hw hs h a => ?_⟩
  subst hlane
  have hwidthOk : widthOk s := by rwa [widthOk, hw]
  obtain rfl : r = s.regBits := Nat.pow_right_injective le_rfl (hw.symm.trans (width_eq_two_pow hwidthOk).1)
  rw [hπ]
  exact (primitivesRotatePositionBits i s t hi hl hwidthOk hs h a (by rw [hw]; exact a.isLt)).2

end Sys2Proof.Machine
end

section
/-! Block moves and scalar moves between memory and the lane registers (41_block_moves R101 to R106). -/

namespace Sys2Proof.Machine

/-! ### Block loads -/

/-- The lane registers after a block load: `V[r]` is its `L` bytes of memory for `r < SIZE`, and the rest are kept. -/
theorem finishPlan_loadPlan_lane (at_ : Nat → Nat) (s : State) (r : Nat) : (finishPlan (loadPlan at_ s) s).lane r =
    if r < s.width then s.mem.readBytes (at_ r) s.laneBytes else s.lane r := by
  have front : ((List.range s.width).map fun r => s.mem.readBytes (at_ r) s.laneBytes).length = s.width := by simp
  refine (getD_append_drop rfl r).trans ?_
  rw [State.size, front]
  split
  · next hr => simp [List.getD, hr]
  · rfl

/-- A block load that passes its checks and may read its bytes completes, writes no memory and loads `V[r]` from the `L`
bytes its plan names. -/
theorem exec_load {i : Instr} {plan : State → Plan} (hp : memoryPlan i = some (.block, plan)) {at_ : Nat → Nat}
    {s : State} (hplan : plan s = loadPlan at_ s) (hc : checksPass i s)
    (hr : ∀ a, readsByte i s a → s.hw.readable a = true) :
    ∃ t, exec i s = .next t ∧ completed s t ∧ t.mem = s.mem ∧ lanesKeptFrom s.width s t ∧
      ∀ r < s.width, t.lane r = s.mem.readBytes (at_ r) s.laneBytes := by
  have granted : ¬∃ a, refusedByte i s a := by
    rintro ⟨a, ⟨ha, hn⟩ | ⟨⟨b, hb⟩, -⟩⟩
    · simp [hr a ha] at hn
    · simp [storesByte_iff hp, hplan, loadPlan] at hb
  refine ⟨_, exec_finish hp hc granted, finish_completed _ s, ?_, fun r hr => ?_, fun r hr => ?_⟩
  · rw [hplan]; rfl
  · rw [hplan, finishPlan_loadPlan_lane, if_neg (by omega)]
  · rw [hplan, finishPlan_loadPlan_lane, if_pos hr]

theorem elemAddr_div_mod (base width i o : Nat) :
    elemAddr base width (i + o / width) (o % width) = base + i * width + o := by
  have := Nat.div_add_mod' o width
  rw [elemAddr, Nat.add_mul]
  omega

/-- Settles O32: offset `o` of the block is byte `o mod W` of element `IDX + o div W`. -/
theorem ldeLoadsABlockOfElements : Obligations.LdeLoadsABlockOfElements := by
  unfold Obligations.LdeLoadsABlockOfElements
  intro s hc hr
  obtain ⟨t, h, done, mem, kept, lane⟩ := exec_load (plan := ldePlan) rfl rfl hc hr
  refine ⟨t, h, done, mem, kept, fun r hr => by rw [lane r hr, Memory.readBytes_length], fun r hr j hj => ?_⟩
  rw [elemAddr_div_mod, ← Nat.add_assoc, State.laneByte, lane r hr, Memory.readBytes_getD _ hj]
  exact ⟨rfl, rfl⟩

/-- Settles O34: the `L` bytes from byte `k` of element `IDX` on are byte `k` of the elements from `IDX` on. -/
theorem ldpLoadsRegistersFromPlanes : Obligations.LdpLoadsRegistersFromPlanes := by
  unfold Obligations.LdpLoadsRegistersFromPlanes
  intro s hc hr
  obtain ⟨t, h, done, mem, kept, lane⟩ := exec_load (plan := ldpPlan) rfl rfl hc hr
  refine ⟨t, h, done, mem, kept, fun r hr => by rw [lane r hr, Memory.readBytes_length], fun k hk j hj => ?_⟩
  rw [State.laneByte, lane k hk, Memory.readBytes_getD _ hj]
  exact congrArg s.mem.read (Nat.add_assoc ..)

/-! ### Block stores and scalar moves -/

/-- A block store or a scalar move that passes its checks and meets no refused address completes, keeps the lane
registers, and changes exactly the bytes its rule stores. -/
theorem exec_store {i : Instr} (hi : i ∈ ([.stp, .ste, .sce, .scd] : List Instr)) {s : State} (hc : checksPass i s)
    (hr : ¬∃ a, refusedByte i s a) : ∃ t, exec i s = .next t ∧ completed s t ∧ t.lanes = s.lanes ∧
      (∀ a b, storesByte i s a b → t.mem.read a = b) ∧
      ∀ a, (∀ b, ¬storesByte i s a b) → t.mem.read a = s.mem.read a := by
  obtain ⟨f, -, hn, -⟩ | ⟨need, plan, hp, -⟩ := primitive_or_memory i
  · cases i <;> simp [memoryPlan] at hi hn
  · have h := exec_finish hp hc hr
    exact ⟨_, h, finish_completed _ s, exec_keeps_lanes hi h, fun a b => finish_read hp hc,
      fun a ha => finish_read_other hp (not_exists.mpr ha)⟩

/-- A command that reads nothing meets no refused address when the platform writes every byte it stores. -/
theorem no_refused_of_writable {i : Instr} {s : State} (hr : ∀ a, ¬readsByte i s a)
    (hw : ∀ a b, storesByte i s a b → s.hw.writable a = true) : ¬∃ a, refusedByte i s a := by
  rintro ⟨a, ⟨ha, -⟩ | ⟨⟨b, hb⟩, hn⟩⟩
  · exact hr a ha
  · simp [hw a b hb] at hn

/-- Settles O33: what `STP` stores is R102's, and nothing else changes. -/
theorem stpStoresRegistersToPlanes : Obligations.StpStoresRegistersToPlanes := by
  unfold Obligations.StpStoresRegistersToPlanes
  intro s hc hw
  obtain ⟨t, h, done, lanes, stored, kept⟩ := exec_store (by decide) hc (no_refused_of_writable (fun _ => id) hw)
  exact ⟨t, h, done, lanes, fun k hk j hj => stored _ _ ⟨k, hk, j, hj, rfl, rfl⟩,
    fun a ha => kept a fun _ ⟨k, hk, j, hj, e, _⟩ => ha k hk j hj e⟩

/-- Settles O35: what `STE` stores is R104's, and nothing else changes. -/
theorem steStoresABlockOfElements : Obligations.SteStoresABlockOfElements := by
  unfold Obligations.SteStoresABlockOfElements
  intro s hc hw
  obtain ⟨t, h, done, lanes, stored, kept⟩ := exec_store (by decide) hc (no_refused_of_writable (fun _ => id) hw)
  exact ⟨t, h, done, lanes, fun r hr j hj => stored _ _ ⟨r, hr, j, hj, rfl, rfl⟩,
    fun a ha => kept a fun _ ⟨r, hr, j, hj, e, _⟩ => ha r hr j hj e⟩

/-- Settles O36: what `SCE` stores is R105's, and nothing else changes. -/
theorem sceCopiesOneElementToPlanes : Obligations.SceCopiesOneElementToPlanes := by
  unfold Obligations.SceCopiesOneElementToPlanes
  intro s hc hr
  obtain ⟨t, h, done, lanes, stored, kept⟩ := exec_store (by decide) hc hr
  exact ⟨t, h, done, lanes, fun k hk => stored _ _ ⟨k, hk, rfl, rfl⟩,
    fun a ha => kept a fun _ ⟨k, hk, e, _⟩ => ha k hk e⟩

/-- Settles O37: what `SCD` stores is R106's, and nothing else changes. -/
theorem scdCopiesOneElementFromPlanes : Obligations.ScdCopiesOneElementFromPlanes := by
  unfold Obligations.ScdCopiesOneElementFromPlanes
  intro s hc hr
  obtain ⟨t, h, done, lanes, stored, kept⟩ := exec_store (by decide) hc hr
  exact ⟨t, h, done, lanes, fun k hk => stored _ _ ⟨k, hk, rfl, rfl⟩,
    fun a ha => kept a fun _ ⟨k, hk, e, _⟩ => ha k hk e⟩

end Sys2Proof.Machine
end

section
/-! Networks of primitives: how they end and where they take a position (42_codec R126; 40_primitives R94, R97). -/

namespace Sys2Proof.Machine

/-! ### Commands run one after the other -/

/-- Commands that end in `IDLE` are followed by those after them. -/
theorem runCommands_append {xs : List Instr} (ys : List Instr) {s t : State} (h : runCommands xs s = .next t)
    (hidle : t.seq = .idle) : runCommands (xs ++ ys) s = runCommands ys t := by
  induction xs generalizing s with
  | nil => cases h; rfl
  | cons i xs ih =>
    obtain ⟨u, hu⟩ := exec_next i s
    rw [List.cons_append, runCommands, hu]
    rw [runCommands, hu] at h
    by_cases hs : u.seq = .idle
    · simp only [hs, if_true] at h ⊢
      exact ih h
    · simp only [hs, if_false] at h
      cases h
      exact absurd hidle hs

theorem runCommands_cons {i : Instr} (is : List Instr) {s t : State} (h : exec i s = .next t) (hidle : t.seq = .idle) :
    runCommands (i :: is) s = runCommands is t := by
  rw [runCommands, h]
  exact if_pos hidle

theorem runCommands_singleton {i : Instr} {s t : State} (h : exec i s = .next t) (hidle : t.seq = .idle) :
    runCommands [i] s = .next t :=
  runCommands_cons [] h hidle

/-! ### Where a network takes a position -/

/-- The position a network takes the byte at position `a` to. -/
def networkPosition (l : LaneLen) (regBits : Nat) (net : List Instr) (a : Nat) : Nat :=
  net.foldl (fun a i => movePosition (rotatedField i l regBits) a) a

/-- The bit of the first position that bit `c` of the last one equals. -/
def networkBit (l : LaneLen) (regBits : Nat) (net : List Instr) (c : Nat) : Nat :=
  net.foldr (fun i c => sourceBit (rotatedField i l regBits) c) c

theorem sourceBit_rotatedField_lt : ∀ i ∈ primitives, ∀ l ∈ [LaneLen.l16, .l32], ∀ r ∈ [2, 3], ∀ c < 8,
    sourceBit (rotatedField i l r) c < 8 := by decide

theorem networkBit_lt {l : LaneLen} {r : Nat} (hr : r ∈ [2, 3]) {net : List Instr} (hn : isNetwork l net) {c : Nat}
    (hc : c < 8) : networkBit l r net c < 8 := by
  induction net with
  | nil => exact hc
  | cons i net ih =>
    obtain ⟨⟨hi, -⟩, hn⟩ := List.forall_mem_cons.mp hn
    exact sourceBit_rotatedField_lt i (mem_primitives hi) l (mem_laneLens l) r hr _ (ih hn)

/-- A network moves the bits of a position, one primitive after the other. -/
theorem networkPosition_testBit {l : LaneLen} {r : Nat} (hr : r ∈ [2, 3]) {net : List Instr} (hn : isNetwork l net)
    (a : Nat) {c : Nat} (hc : c < 8) :
    (networkPosition l r net a).testBit c = a.testBit (networkBit l r net c) := by
  induction net generalizing a with
  | nil => rfl
  | cons i net ih =>
    obtain ⟨-, hn⟩ := List.forall_mem_cons.mp hn
    exact (ih hn _).trans (movePosition_testBit _ _ (networkBit_lt hr hn hc))

/-! ### How a network ends -/

/-- A network that ran from `s` to `t`: it changed lane registers, `STATE` and `CMDCNT` only, and took every byte of the
active registers to its new position. -/
structure NetworkRan (net : List Instr) (s t : State) : Prop where
  lanes : lanesWf t
  idle : s.seq = .idle → t.seq = .idle
  rest : t = { s with seq := t.seq, cmdcnt := s.cmdcnt + BitVec.ofNat 32 net.length, lanes := t.lanes }
  bytes : ∀ a < s.width * s.laneBytes, networkPosition s.hw.lane s.regBits net a < s.width * s.laneBytes ∧
    t.posByte (networkPosition s.hw.lane s.regBits net a) = s.posByte a

/-- `CMDCNT` counts modulo `2^32`, in whatever portions (10_state R24). -/
theorem cmdcnt_add (c : BitVec 32) (m n : Nat) :
    c + BitVec.ofNat 32 m + BitVec.ofNat 32 n = c + BitVec.ofNat 32 (m + n) := by
  rw [BitVec.add_assoc, BitVec.ofNat_add]

/-- A network cannot fault (40_primitives R93): each of its primitives completes. -/
theorem runCommands_network {net : List Instr} {s : State} (hn : isNetwork s.hw.lane net) (hs : lanesWf s)
    (hw : widthOk s) : ∃ t, runCommands net s = .next t ∧ NetworkRan net s t := by
  induction net generalizing s with
  | nil => exact ⟨s, rfl, hs, id, by simp, fun a ha => ⟨ha, rfl⟩⟩
  | cons i net ih =>
    obtain ⟨⟨hi, hl⟩, hn⟩ := List.forall_mem_cons.mp hn
    obtain ⟨f, hf⟩ := exists_primitiveFn hi
    have first := exec_primitive_done hf hl hw
    obtain ⟨-, -, hlanes, -⟩ := afterPrimitive_completed hf hl hs hw
    obtain ⟨t, ht, ran⟩ := ih (s := afterPrimitive f s) hn hlanes hw
    refine ⟨t, (runCommands_cons net first rfl).trans ht, ran.lanes, fun _ => ran.idle rfl, ?_, fun a ha => ?_⟩
    · rw [ran.rest, List.length_cons, Nat.add_comm net.length, ← cmdcnt_add]
      rfl
    · obtain ⟨lt, moved⟩ := primitivesRotatePositionBits i s _ hi hl hw hs first a ha
      obtain ⟨lt', moved'⟩ := ran.bytes _ lt
      exact ⟨lt', moved'.trans moved⟩

/-! ### The reference networks (42_codec R126) -/

/-- `x` above `n` bits that hold `y`, and `y` above `m` bits that hold `x`, are rotations of each other. -/
theorem testBit_joinBits_swap {m n x y : Nat} (hx : x < 2 ^ m) (hy : y < 2 ^ n) (c : Nat) :
    (joinBits m y x).testBit c = (joinBits n x y).testBit (if c < m + n then (c + n) % (m + n) else c) := by
  rw [testBit_joinBits hx, testBit_joinBits hy]
  rcases (by omega : c < m ∨ (m ≤ c ∧ c < m + n) ∨ m + n ≤ c) with hc | ⟨hm, hmn⟩ | hc
  · have source : (if c < m + n then (c + n) % (m + n) else c) = c + n := by
      rw [if_pos (by omega), Nat.mod_eq_of_lt (by omega)]
    rw [source, if_pos hc, if_neg (by omega), Nat.add_sub_cancel]
  · have source : (if c < m + n then (c + n) % (m + n) else c) = c - m := by
      rw [if_pos hmn, show c + n = c - m + (m + n) by omega, Nat.add_mod_right, Nat.mod_eq_of_lt (by omega)]
    rw [source, if_neg (by omega), if_pos (by omega)]
  · have above : ∀ {z w d : Nat}, z < 2 ^ w → w ≤ d → z.testBit d = false := fun hz hd =>
      Nat.testBit_lt_two_pow (hz.trans_le (Nat.pow_le_pow_right two_pos hd))
    rw [if_neg (by omega : ¬c < m + n), if_neg (by omega), if_neg (by omega), above hy (by omega), above hx (by omega)]

theorem networkPosition_lt (l : LaneLen) (r : Nat) (net : List Instr) {a : Nat} (ha : a < 2 ^ 8) :
    networkPosition l r net a < 2 ^ 8 := by
  induction net generalizing a with
  | nil => exact ha
  | cons i net ih => exact ih (movePosition_lt _ a)

/-- A network that rotates the position bits by `n` swaps the `n` bits at their foot with the `m` bits above them. -/
theorem networkPosition_joinBits {l : LaneLen} {r : Nat} (hr : r ∈ [2, 3]) {net : List Instr} (hn : isNetwork l net)
    {m n : Nat} (hmn : m + n ≤ 8)
    (hbit : ∀ c < 8, networkBit l r net c = if c < m + n then (c + n) % (m + n) else c) {x y : Nat} (hx : x < 2 ^ m)
    (hy : y < 2 ^ n) : networkPosition l r net (joinBits n x y) = joinBits m y x := by
  have le : 2 ^ (m + n) ≤ 2 ^ 8 := Nat.pow_le_pow_right two_pos hmn
  have old : joinBits n x y < 2 ^ 8 := (Nat.add_comm n m ▸ joinBits_lt hx hy).trans_le le
  refine Nat.eq_of_testBit_eq fun c => ?_
  by_cases hc : c < 8
  · rw [networkPosition_testBit hr hn _ hc, hbit c hc, testBit_joinBits_swap hx hy]
  · rw [testBit_of_not_lt_eight (networkPosition_lt l r net old) hc,
      testBit_of_not_lt_eight ((joinBits_lt hy hx).trans_le le) hc]

/-- The widths are the powers of two whose exponent is `log2 SIZE`. -/
theorem widthOk_of_two_pow {s : State} {r : Nat} (hr : r ∈ [2, 3]) (h : s.width = 2 ^ r) :
    widthOk s ∧ s.regBits = r := by
  rcases (by simpa using hr : r = 2 ∨ r = 3) with rfl | rfl <;> simp [widthOk, State.regBits, h]

theorem positions_eq_two_pow {s : State} (hw : widthOk s) :
    s.width * s.laneBytes = 2 ^ (s.regBits + s.hw.lane.log2.toNat) := by
  rw [pow_add, two_pow_log2, ← (width_eq_two_pow hw).1, State.laneBytes]

section
variable {l : LaneLen} {r : Nat} {net : List Instr} (hr : r ∈ [2, 3]) (hn : isNetwork l net)
include hr hn

/-- A network that takes every byte of a block from its element position to its plane position encodes the block. -/
theorem encodesBlock_of_networkPosition
    (h : ∀ k < 2 ^ r, ∀ j < l.bytes, networkPosition l r net (joinBits r j k) = joinBits l.log2.toNat k j) :
    encodesBlock l (2 ^ r) net := by
  rintro s rfl hwidth hlen hv
  obtain ⟨hw, rfl⟩ := widthOk_of_two_pow hr hwidth
  obtain ⟨t, ht, ran⟩ := runCommands_network hn ⟨hlen, hv⟩ hw
  refine ⟨t, ht, fun k hk j hj => ?_⟩
  have hj' : j < 2 ^ s.hw.lane.log2.toNat := (two_pow_log2 _).symm ▸ hj
  have moved := (ran.bytes _ (positions_eq_two_pow hw ▸ joinBits_lt hj' hk)).2
  rw [h k hk j hj, posByte_joinBits (by rw [ran.rest]) hj'] at moved
  rw [moved, joinBits, Nat.mul_comm]

/-- A network that takes every byte of a block from its plane position to its element position decodes the block. -/
theorem decodesBlock_of_networkPosition
    (h : ∀ k < 2 ^ r, ∀ j < l.bytes, networkPosition l r net (joinBits l.log2.toNat k j) = joinBits r j k) :
    decodesBlock l (2 ^ r) net := by
  rintro s rfl hwidth hlen hv
  obtain ⟨hw, rfl⟩ := widthOk_of_two_pow hr hwidth
  obtain ⟨t, ht, ran⟩ := runCommands_network hn ⟨hlen, hv⟩ hw
  refine ⟨t, ht, fun k hk j hj => ?_⟩
  have hj' : j < 2 ^ s.hw.lane.log2.toNat := (two_pow_log2 _).symm ▸ hj
  have moved := (ran.bytes _ (positions_eq_two_pow hw ▸ Nat.add_comm _ s.regBits ▸ joinBits_lt hk hj')).2
  rw [h k hk j hj, posByte_joinBits rfl hj'] at moved
  rw [← moved, joinBits, Nat.mul_comm]

end

/-- The reference networks are networks and rotate the position bits, `NET.ENC` by `log2 SIZE`, `NET.DEC` by
`log2 L` (42_codec R126). -/
theorem referenceNetworks_rotate : ∀ l ∈ [LaneLen.l16, .l32], ∀ r ∈ [2, 3],
    (isNetwork l (netEnc l) ∧ isNetwork l (netDec l (2 ^ r))) ∧ l.log2.toNat + r ≤ 8 ∧ ∀ c < 8,
    networkBit l r (netEnc l) c = (if c < l.log2.toNat + r then (c + r) % (l.log2.toNat + r) else c) ∧
    networkBit l r (netDec l (2 ^ r)) c =
      if c < r + l.log2.toNat then (c + l.log2.toNat) % (r + l.log2.toNat) else c := by
  unfold isNetwork
  decide

theorem exists_regBits {width : Nat} (h : width = 4 ∨ width = 8) : ∃ r ∈ [2, 3], width = 2 ^ r := by
  rcases h with rfl | rfl <;> decide

/-- `NET.ENC` is a network that encodes a block, whatever `L` and `W` (42_codec R126). -/
theorem netEnc_encodesBlock (l : LaneLen) {width : Nat} (hw : width = 4 ∨ width = 8) :
    isNetwork l (netEnc l) ∧ encodesBlock l width (netEnc l) := by
  obtain ⟨r, hr, rfl⟩ := exists_regBits hw
  obtain ⟨⟨hn, -⟩, le, bits⟩ := referenceNetworks_rotate l (mem_laneLens l) r hr
  refine ⟨hn, encodesBlock_of_networkPosition hr hn fun k hk j hj => ?_⟩
  exact networkPosition_joinBits hr hn le (fun c hc => (bits c hc).1) ((two_pow_log2 l).symm ▸ hj) hk

/-- `NET.DEC` is a network that decodes a block, whatever `L` and `W` (42_codec R126). -/
theorem netDec_decodesBlock (l : LaneLen) {width : Nat} (hw : width = 4 ∨ width = 8) :
    isNetwork l (netDec l width) ∧ decodesBlock l width (netDec l width) := by
  obtain ⟨r, hr, rfl⟩ := exists_regBits hw
  obtain ⟨⟨-, hn⟩, le, bits⟩ := referenceNetworks_rotate l (mem_laneLens l) r hr
  refine ⟨hn, decodesBlock_of_networkPosition hr hn fun k hk j hj => ?_⟩
  exact networkPosition_joinBits hr hn (Nat.add_comm r _ ▸ le) (fun c hc => (bits c hc).2) hk
    ((two_pow_log2 l).symm ▸ hj)

end Sys2Proof.Machine
end

section
/-! The block path and the scalar path (41_block_moves R109), in both directions at once. -/

namespace Sys2Proof.Machine

/-! ### What a script statement does -/

theorem Runs.writeIdx {s : State} (hs : s.seq = .idle) {v : Nat} (hv : v < s.hw.top) :
    Runs (Stmt.wr .idx v).events s { s with idx := v } := by
  refine Runs.one fun rest => congrArg Host.Outcome.next ?_
  rw [PortReg.number, portWrite_idle (s := { s with host := rest }) hs]
  simp [portReg, idleWrite, keepAlen, Nat.mod_eq_of_lt hv]

/-- A `cmd` statement of an idle unit runs its command to the end (30_encoding R70). -/
theorem Runs.command {i : Instr} {s t : State} (hs : s.seq = .idle) (h : exec i s = .next t) :
    Runs (Stmt.cmd i).events s { t with seen := s.seen ++ [portRead 6 t], raced := [] } := by
  have word : commandWord (encode i).toNat = encode i := BitVec.eq_of_toNat_eq (by simp [commandWord])
  have issued : Runs [.write 10 (encode i).toNat] s { s with seq := .busy (encode i), raced := [] } := by
    refine Runs.one fun rest => congrArg Host.Outcome.next ?_
    rw [portWrite_idle (s := { s with host := rest }) hs]
    simp [portReg, idleWrite, issue, word]
  have ended : Runs [.unit] { s with seq := .busy (encode i), raced := [] } { t with seen := s.seen, raced := [] } := by
    refine Runs.one fun rest => ?_
    refine (unitTurn_busy (s := { s with host := rest, seq := .busy (encode i), raced := [] }) rfl (.inr rfl)).trans ?_
    rw [runWord, decodeAndEncodeAgree.1 i]
    exact exec_outer h rest s.seen _ []
  exact (issued.append ended).append (Runs.one fun rest => rfl)

/-! ### A block in the lane registers -/

theorem posByte_mul_add {s : State} {r j : Nat} (hj : j < s.laneBytes) :
    s.posByte (r * s.laneBytes + j) = s.laneByte r j := by
  rw [State.laneBytes, ← two_pow_log2] at hj ⊢
  rw [← posByte_joinBits rfl hj, joinBits, Nat.mul_comm]

/-- An offset of a block, `q·l + r`, is a byte of one of its elements and a byte of one lane register. -/
theorem exists_blockOffset {w l q r : Nat} (hq : q < w) (hr : r < l) :
    ∃ q' < l, ∃ r' < w, q * l + r = q' * w + r' := by
  refine exists_mul_add ?_
  rw [Nat.mul_comm l w]
  nlinarith

/-! ### What depends on the buffers -/

/-- The parameters and the operand registers but `IDX` agree. -/
structure SameBuffers (s t : State) : Prop where
  hw : t.hw = s.hw
  cfgW : t.cfgW = s.cfgW
  nelem : t.nelem = s.nelem
  src : t.src = s.src
  dst : t.dst = s.dst

theorem SameBuffers.of_sameControl {s t : State} (h : sameControl s t) : SameBuffers s t := by
  obtain ⟨hhw, hw, hn, hs, hd, -⟩ := h
  exact ⟨hhw, hw, hn, hs, hd⟩

section
variable {s t u : State}

theorem SameBuffers.trans (h : SameBuffers s t) (h' : SameBuffers t u) : SameBuffers s u :=
  ⟨h'.hw.trans h.hw, h'.cfgW.trans h.cfgW, h'.nelem.trans h.nelem, h'.src.trans h.src, h'.dst.trans h.dst⟩

theorem sameControl.trans (h : sameControl s t) (h' : sameControl t u) : sameControl s u := by
  obtain ⟨hhw, hw, hn, hs, hd, hx⟩ := h
  obtain ⟨hhw', hw', hn', hs', hd', hx'⟩ := h'
  exact ⟨hhw'.trans hhw, hw'.trans hw, hn'.trans hn, hs'.trans hs, hd'.trans hd, hx'.trans hx⟩

theorem SameBuffers.width (h : SameBuffers s t) : t.width = s.width := congrArg BitVec.toNat h.cfgW

theorem SameBuffers.laneBytes (h : SameBuffers s t) : t.laneBytes = s.laneBytes :=
  congrArg (fun hw : Hardware => hw.lane.bytes) h.hw

theorem SameBuffers.granted (h : SameBuffers s t) (hg : regionsGranted s) : regionsGranted t := by
  rwa [regionsGranted, h.width, h.hw, h.nelem, h.src, h.dst]

end

/-! ### The two directions -/

/-- From an element buffer to a plane buffer, or back. -/
inductive Direction where
  | toPlanes
  | toElements

namespace Direction

/-- The block load of a direction. -/
def load : Direction → Instr
  | toPlanes => .lde
  | toElements => .ldp

/-- The block store of a direction. -/
def store : Direction → Instr
  | toPlanes => .stp
  | toElements => .ste

/-- The scalar move of a direction. -/
def scalar : Direction → Instr
  | toPlanes => .sce
  | toElements => .scd

/-- The whole-buffer command of a direction. -/
def codec : Direction → Instr
  | toPlanes => .enc
  | toElements => .dec

/-- The address byte `k` of element `e` comes from (20_memory R41). -/
def source (d : Direction) (s : State) (e k : Nat) : Nat :=
  match d with
  | toPlanes => elemAddr s.src s.width e k
  | toElements => planeAddr s.src s.nelem e k

/-- The address byte `k` of element `e` goes to (20_memory R41). -/
def target (d : Direction) (s : State) (e k : Nat) : Nat :=
  match d with
  | toPlanes => planeAddr s.dst s.nelem e k
  | toElements => elemAddr s.dst s.width e k

/-- Byte `k` of element `j` of a block in the lane registers, in the image the block load leaves (R109). -/
def loaded (d : Direction) (s : State) (j k : Nat) : Byte :=
  match d with
  | toPlanes => s.posByte (j * s.width + k)
  | toElements => s.laneByte k j

/-- Byte `k` of element `j` of a block in the lane registers, in the image the block store takes (R109). -/
def stored (d : Direction) (s : State) (j k : Nat) : Byte :=
  match d with
  | toPlanes => s.laneByte k j
  | toElements => s.posByte (j * s.width + k)

/-- The network takes the image that is loaded to the one that is stored. -/
def turnsBlock (d : Direction) (l : LaneLen) (width : Nat) (net : List Instr) : Prop :=
  match d with
  | toPlanes => encodesBlock l width net
  | toElements => decodesBlock l width net

/-! ### The checks and accesses of a direction -/

variable (d : Direction)

/-- The checks of the commands of a direction differ in what they ask of `IDX` only (60_exceptions R144). -/
theorem checksPass_codec_iff (s : State) : checksPass d.codec s ↔ widthOk s ∧
    (s.src + s.nelem * s.width ≤ 2 ^ s.hw.alen ∧ s.dst + s.nelem * s.width ≤ 2 ^ s.hw.alen) ∧ ¬overlap s := by
  cases d <;> simp [checksPass, rangeOk, indexOk, codec]

theorem checksPass_block_iff {i : Instr} (hi : i = d.load ∨ i = d.store) (s : State) :
    checksPass i s ↔ checksPass d.codec s ∧ s.idx + s.laneBytes ≤ s.nelem := by
  rw [checksPass_codec_iff]
  cases d <;> rcases hi with rfl | rfl <;> simp only [checksPass, rangeOk, indexOk, load, store] <;> tauto

theorem checksPass_scalar_iff (s : State) : checksPass d.scalar s ↔ checksPass d.codec s ∧ s.idx < s.nelem := by
  rw [checksPass_codec_iff]
  cases d <;> simp only [checksPass, rangeOk, indexOk, scalar] <;> tauto

theorem readsByte_codec (s : State) (a : Nat) :
    readsByte d.codec s a ↔ ∃ e < s.nelem, ∃ k < s.width, a = d.source s e k := by
  cases d <;> rfl

theorem storesByte_codec (s : State) (a : Nat) (b : Byte) : storesByte d.codec s a b ↔
    ∃ e < s.nelem, ∃ k < s.width, a = d.target s e k ∧ b = s.mem.read (d.source s e k) := by
  cases d <;> rfl

theorem storesByte_scalar (s : State) (a : Nat) (b : Byte) :
    storesByte d.scalar s a b ↔ ∃ k < s.width, a = d.target s s.idx k ∧ b = s.mem.read (d.source s s.idx k) := by
  cases d <;> rfl

/-- A block load leaves the bytes of the block in the image of its direction (41_block_moves R101, R103). -/
theorem exec_blockLoad {s : State} (hc : checksPass d.load s) (hg : regionsGranted s) :
    ∃ t, exec d.load s = .next t ∧ completed s t ∧ t.mem = s.mem ∧
      ∀ j < s.laneBytes, ∀ k < s.width, d.loaded t j k = s.mem.read (d.source s (s.idx + j) k) := by
  have readable : ∀ a, readsByte d.load s a → s.hw.readable a = true := fun a ha => by
    obtain ⟨hlo, hhi⟩ := reads_bound hc ha
    obtain ⟨o, rfl⟩ := Nat.exists_eq_add_of_le hlo
    exact hg.1 o (by omega)
  cases d with
  | toPlanes =>
    obtain ⟨t, h, done, mem, -, -, bytes⟩ := ldeLoadsABlockOfElements s hc readable
    refine ⟨t, h, done, mem, fun j hj k hk => ?_⟩
    obtain ⟨-, -, control, -⟩ := done
    have same := SameBuffers.of_sameControl control
    obtain ⟨r, hr, j', hj', e⟩ := exists_blockOffset hj hk
    rw [loaded, same.width, e, ← same.laneBytes, posByte_mul_add (same.laneBytes ▸ hj'), (bytes r hr j' hj').1]
    refine congrArg s.mem.read ?_
    rw [source, elemAddr, Nat.add_mul]
    omega
  | toElements =>
    obtain ⟨t, h, done, mem, -, -, bytes⟩ := ldpLoadsRegistersFromPlanes s hc readable
    exact ⟨t, h, done, mem, fun j hj k hk => bytes k hk j hj⟩

/-- A block store writes the bytes of the image it takes to their places (41_block_moves R102, R104). -/
theorem storesByte_store (s : State) (a : Nat) (b : Byte) : storesByte d.store s a b ↔
    ∃ j < s.laneBytes, ∃ k < s.width, a = d.target s (s.idx + j) k ∧ b = d.stored s j k := by
  cases d with
  | toPlanes =>
    simp only [store, storesByte, target, planeAddr, stored, Nat.add_assoc]
    exact ⟨fun ⟨k, hk, j, hj, h⟩ => ⟨j, hj, k, hk, h⟩, fun ⟨j, hj, k, hk, h⟩ => ⟨k, hk, j, hj, h⟩⟩
  | toElements =>
    simp only [store, storesByte, target, elemAddr, stored, Nat.add_mul, Nat.add_assoc]
    constructor
    · rintro ⟨r, hr, j', hj', rfl, rfl⟩
      obtain ⟨j, hj, k, hk, e⟩ := exists_blockOffset hr hj'
      exact ⟨j, hj, k, hk, by rw [e], by rw [← e, posByte_mul_add hj']⟩
    · rintro ⟨j, hj, k, hk, rfl, rfl⟩
      obtain ⟨r, hr, j', hj', e⟩ := exists_blockOffset hj hk
      exact ⟨r, hr, j', hj', by rw [e], by rw [e, posByte_mul_add hj']⟩

end Direction

section
variable {d : Direction} {s t : State} (h : SameBuffers s t)
include h

theorem SameBuffers.checks (hc : checksPass d.codec s) : checksPass d.codec t := by
  rw [Direction.checksPass_codec_iff] at hc ⊢
  rwa [widthOk, overlap, h.width, h.hw, h.nelem, h.src, h.dst]

theorem SameBuffers.source_eq : d.source t = d.source s := by
  funext e k
  cases d <;> simp only [Direction.source, h.width, h.nelem, h.src]

theorem SameBuffers.target_eq : d.target t = d.target s := by
  funext e k
  cases d <;> simp only [Direction.target, h.width, h.nelem, h.dst]

end

namespace Direction

variable {d : Direction} {s : State}

/-! ### Elements moved from place to place -/

/-- A place holds a byte of one element only (20_memory R41). -/
theorem target_inj {e e' k k' : Nat} (he : e < s.nelem) (he' : e' < s.nelem) (hk : k < s.width) (hk' : k' < s.width)
    (h : d.target s e k = d.target s e' k') : e = e' := by
  cases d with
  | toPlanes =>
    simp only [target, planeAddr] at h
    exact (mul_add_inj he he' (by omega : k * s.nelem + e = k' * s.nelem + e')).2
  | toElements =>
    simp only [target, elemAddr] at h
    exact (mul_add_inj hk hk' (by omega : e * s.width + k = e' * s.width + k')).1

/-- No byte is moved to a place that one is moved from: the regions share none (60_exceptions R145). -/
theorem source_ne_target (hc : checksPass d.codec s) {e e' k k' : Nat} (he : e < s.nelem) (he' : e' < s.nelem)
    (hk : k < s.width) (hk' : k' < s.width) : d.source s e k ≠ d.target s e' k' := fun h =>
  reads_not_stored hc ((d.readsByte_codec s _).mpr ⟨e, he, k, hk, rfl⟩)
    ⟨_, (d.storesByte_codec s _ _).mpr ⟨e', he', k', hk', h, rfl⟩⟩

/-- From memory `m` to `m'` the bytes of `n` elements from `first` on went to their places; no other byte changed. -/
structure Copies (d : Direction) (s : State) (first n : Nat) (m m' : Memory) : Prop where
  moved : ∀ j < n, ∀ k < s.width, m'.read (d.target s (first + j) k) = m.read (d.source s (first + j) k)
  kept : ∀ a, (∀ j < n, ∀ k < s.width, a ≠ d.target s (first + j) k) → m'.read a = m.read a

theorem Copies.zero (first : Nat) (m : Memory) : d.Copies s first 0 m m :=
  ⟨fun j hj => absurd hj (Nat.not_lt_zero j), fun _ _ => rfl⟩

/-- Elements moved after others leave the places of those alone, and find their own bytes as they were. -/
theorem Copies.append (hc : checksPass d.codec s) {first n n' : Nat} (hn : first + (n + n') ≤ s.nelem)
    {m m' m'' : Memory} (h : d.Copies s first n m m') (h' : d.Copies s (first + n) n' m' m'') :
    d.Copies s first (n + n') m m'' := by
  refine ⟨fun j hj k hk => ?_, fun a ha => ?_⟩
  · by_cases hjn : j < n
    · rw [h'.kept _ fun j' hj' k' hk' e => ?_, h.moved j hjn k hk]
      have := target_inj (by omega) (by omega) hk hk' e
      omega
    · obtain ⟨j, rfl⟩ := Nat.exists_eq_add_of_le (Nat.le_of_not_lt hjn)
      rw [← Nat.add_assoc, h'.moved j (by omega) k hk,
        h.kept _ fun j' hj' k' hk' => source_ne_target hc (by omega) (by omega) hk hk']
  · rw [h'.kept a fun j hj k hk => Nat.add_assoc first n j ▸ ha (n + j) (by omega) k hk,
      h.kept a fun j hj k hk => ha j (by omega) k hk]

/-- What memory reads after elements were moved is fixed by memory before. -/
theorem Copies.unique {first n : Nat} {m m' m'' : Memory} (h : d.Copies s first n m m') (h' : d.Copies s first n m m'')
    (a : Nat) : m''.read a = m'.read a := by
  by_cases ha : ∃ j < n, ∃ k < s.width, a = d.target s (first + j) k
  · obtain ⟨j, hj, k, hk, rfl⟩ := ha
    rw [h'.moved j hj k hk, h.moved j hj k hk]
  · have other : ∀ j < n, ∀ k < s.width, a ≠ d.target s (first + j) k := fun j hj k hk e => ha ⟨j, hj, k, hk, e⟩
    rw [h'.kept a other, h.kept a other]

theorem Copies.congr {t : State} (hb : SameBuffers s t) {first n : Nat} {m m' : Memory} (h : d.Copies t first n m m') :
    d.Copies s first n m m' := by
  obtain ⟨moved, kept⟩ := h
  rw [hb.source_eq, hb.target_eq, hb.width] at moved
  rw [hb.target_eq, hb.width] at kept
  exact ⟨moved, kept⟩

/-! ### The block path -/

/-- A block store moves the bytes of the image it takes to their places, and changes no other byte. -/
theorem exec_blockStore (hc : checksPass d.store s) (hg : regionsGranted s) :
    ∃ t, exec d.store s = .next t ∧ completed s t ∧ t.lanes = s.lanes ∧
      (∀ j < s.laneBytes, ∀ k < s.width, t.mem.read (d.target s (s.idx + j) k) = d.stored s j k) ∧
      ∀ a, (∀ j < s.laneBytes, ∀ k < s.width, a ≠ d.target s (s.idx + j) k) → t.mem.read a = s.mem.read a := by
  obtain ⟨t, h, done, lanes, stored, kept⟩ := exec_store (by cases d <;> decide) hc (no_refused_of_granted hc hg)
  simp only [storesByte_store] at stored kept
  exact ⟨t, h, done, lanes, fun j hj k hk => stored _ _ ⟨j, hj, k, hk, rfl, rfl⟩,
    fun a ha => kept a fun _ ⟨j, hj, k, hk, e, _⟩ => ha j hj k hk e⟩

/-- A network that turns a block leaves in one image what it found in the other. -/
theorem turnsBlock.stored {net : List Instr} (h : d.turnsBlock s.hw.lane s.width net) (hs : lanesWf s) {t : State}
    (ht : runCommands net s = .next t) (hb : SameBuffers s t) {j k : Nat} (hj : j < s.laneBytes) (hk : k < s.width) :
    d.stored t j k = d.loaded s j k := by
  cases d <;>
  · obtain ⟨u, hu, image⟩ := h s rfl rfl hs.1 hs.2
    obtain rfl := Host.Outcome.next.inj (hu.symm.trans ht)
    simpa only [Direction.stored, Direction.loaded, hb.width] using image k hk j hj

/-- A block load and a network that turns the block leave the bytes of the block in the image the store takes. -/
theorem runCommands_load_network (hs : lanesWf s) (hc : checksPass d.load s) (hg : regionsGranted s)
    {net : List Instr} (hn : isNetwork s.hw.lane net) (ht : d.turnsBlock s.hw.lane s.width net) :
    ∃ t, runCommands (d.load :: net) s = .next t ∧ t.seq = .idle ∧ lanesWf t ∧ sameControl s t ∧ t.mem = s.mem ∧
      t.cmdcnt = s.cmdcnt + BitVec.ofNat 32 (net.length + 1) ∧
      ∀ j < s.laneBytes, ∀ k < s.width, d.stored t j k = s.mem.read (d.source s (s.idx + j) k) := by
  obtain ⟨hw, -⟩ := id hc
  obtain ⟨u, load, ⟨idle, count, control, -⟩, mem, loaded⟩ := d.exec_blockLoad hc hg
  have lanes := exec_lanesWf hs load
  have buffers := SameBuffers.of_sameControl control
  rw [← buffers.hw] at hn
  rw [← buffers.hw, ← buffers.width] at ht
  obtain ⟨t, network, ran⟩ := runCommands_network hn lanes (by rwa [widthOk, buffers.width])
  have kept : SameBuffers u t := by rw [ran.rest]; exact ⟨rfl, rfl, rfl, rfl, rfl⟩
  refine ⟨t, (runCommands_cons net load idle).trans network, ran.idle idle, ran.lanes, ?_, ?_, ?_,
    fun j hj k hk => ?_⟩
  · rw [ran.rest]; exact control
  · rw [ran.rest]; exact mem
  · rw [ran.rest, count, Nat.add_comm, ← cmdcnt_add]; rfl
  · rw [ht.stored lanes network kept (buffers.laneBytes ▸ hj) (buffers.width ▸ hk), loaded j hj k hk]

/-- What the block path does: `n` commands end without fault, keep the operand registers and move one block. -/
structure BlockMoved (d : Direction) (n : Nat) (s t : State) : Prop where
  seq : t.seq = .idle
  lanes : lanesWf t
  control : sameControl s t
  cmdcnt : t.cmdcnt = s.cmdcnt + BitVec.ofNat 32 n
  copies : d.Copies s s.idx s.laneBytes s.mem t.mem

/-- A block load, a network that turns the block, and the block store move the block (41_block_moves R109). -/
theorem runCommands_blkWith (hs : lanesWf s) (hc : checksPass d.load s) (hg : regionsGranted s) {net : List Instr}
    (hn : isNetwork s.hw.lane net) (ht : d.turnsBlock s.hw.lane s.width net) :
    ∃ t, runCommands (blkWith d.load d.store net) s = .next t ∧ d.BlockMoved (net.length + 2) s t := by
  obtain ⟨u, turned, idle, lanes, control, mem, count, image⟩ := runCommands_load_network hs hc hg hn ht
  have buffers := SameBuffers.of_sameControl control
  obtain ⟨hcodec, hidx⟩ := (d.checksPass_block_iff (.inl rfl) s).mp hc
  obtain ⟨-, -, hnelem, -, -, hx⟩ := id control
  have checks : checksPass d.store u := (d.checksPass_block_iff (.inr rfl) u).mpr
    ⟨buffers.checks hcodec, by rwa [hx, buffers.laneBytes, hnelem]⟩
  obtain ⟨t, store, ⟨tidle, tcount, tcontrol, -⟩, tlanes, moved, kept⟩ :=
    exec_blockStore checks (buffers.granted hg)
  rw [hx, buffers.laneBytes, buffers.width, buffers.target_eq] at moved kept
  refine ⟨t, (runCommands_append [d.store] turned idle).trans (runCommands_singleton store tidle), tidle,
    exec_lanesWf lanes store, control.trans tcontrol, ?_, fun j hj k hk => ?_, fun a ha => ?_⟩
  · rw [tcount, count]; exact cmdcnt_add _ _ 1
  · rw [moved j hj k hk, image j hj k hk]
  · rw [kept a ha, mem]

/-! ### The scalar path -/

/-- A scalar move moves the element at `IDX` (41_block_moves R105, R106). -/
theorem exec_scalar (hc : checksPass d.codec s) (hi : s.idx < s.nelem) (hg : regionsGranted s) :
    ∃ t, exec d.scalar s = .next t ∧ completed s t ∧ d.Copies s s.idx 1 s.mem t.mem := by
  have hc' := (d.checksPass_scalar_iff s).mpr ⟨hc, hi⟩
  obtain ⟨t, h, done, -, stored, kept⟩ := exec_store (by cases d <;> decide) hc' (no_refused_of_granted hc' hg)
  simp only [storesByte_scalar] at stored kept
  refine ⟨t, h, done, fun j hj k hk => ?_, fun a ha => kept a fun _ ⟨k, hk, e, _⟩ => ha 0 one_pos k hk e⟩
  obtain rfl : j = 0 := by omega
  exact stored _ _ ⟨k, hk, rfl, rfl⟩

/-- What the scalar path does: `n` scalar moves end without fault and move `n` elements from `first` on. -/
structure ElementsMoved (d : Direction) (first n : Nat) (s t : State) : Prop where
  seq : t.seq = .idle
  buffers : SameBuffers s t
  cmdcnt : t.cmdcnt = s.cmdcnt + BitVec.ofNat 32 n
  copies : d.Copies s first n s.mem t.mem

/-- The index of an element fits `IDX` when both regions are in range (60_exceptions R144). -/
theorem index_lt_top (hc : checksPass d.codec s) {e : Nat} (he : e < s.nelem) : e < s.hw.top := by
  obtain ⟨hw, ⟨hsrc, -⟩, -⟩ := (d.checksPass_codec_iff s).mp hc
  have hpos : 0 < s.width := by rcases hw with h | h <;> omega
  calc e < s.nelem * s.width := he.trans_le (Nat.le_mul_of_pos_right _ hpos)
    _ ≤ 2 ^ s.hw.alen := (Nat.le_add_left _ _).trans hsrc

/-- A scalar move at the next `IDX` moves one element more. -/
theorem ElementsMoved.step (hc : checksPass d.codec s) (hg : regionsGranted s) {first n : Nat}
    (hn : first + n < s.nelem) {t : State} (h : d.ElementsMoved first n s t) :
    ∃ u, Runs (scriptEvents [.wr .idx (first + n), .cmd d.scalar]) t u ∧ d.ElementsMoved first (n + 1) s u := by
  have buffers : SameBuffers s { t with idx := first + n } := h.buffers.trans ⟨rfl, rfl, rfl, rfl, rfl⟩
  have checks : checksPass d.codec { t with idx := first + n } := buffers.checks hc
  have inRange : first + n < t.nelem := by rw [h.buffers.nelem]; exact hn
  obtain ⟨u, move, ⟨useq, ucnt, ucontrol, -⟩, one⟩ := exec_scalar checks inRange (buffers.granted hg)
  have setIdx := Runs.writeIdx h.seq (index_lt_top (h.buffers.checks hc) inRange)
  refine ⟨_, setIdx.append (.command h.seq move), useq, buffers.trans (.of_sameControl ucontrol), ?_,
    h.copies.append hc (by omega) (one.congr buffers)⟩
  exact ucnt.trans ((congrArg (· + 1) h.cmdcnt).trans (cmdcnt_add _ _ 1))

/-- Scalar moves at `IDX = first, first + 1, ..` move the elements (41_block_moves R109; 42_codec R124). -/
theorem runs_scalarMoves (hs : s.seq = .idle) (hc : checksPass d.codec s) (hg : regionsGranted s) {first n : Nat}
    (hn : first + n ≤ s.nelem) :
    ∃ t, Runs (scriptEvents (scalarMoves first n d.scalar)) s t ∧ d.ElementsMoved first n s t := by
  rw [scriptEvents, scalarMoves, List.flatMap_assoc]
  refine Runs.loop _ (fun j => d.ElementsMoved first j s) n (fun j hj t ht => ht.step hc hg (by omega)) n le_rfl s ?_
  exact ⟨hs, ⟨rfl, rfl, rfl, rfl, rfl⟩, by simp, .zero first s.mem⟩

/-- The block path and the scalar path write the same bytes, those of the formula. -/
theorem blockPath_eq_scalarPath (hs : lanesWf s) (hc : checksPass d.load s) (hg : regionsGranted s) {net : List Instr}
    (hn : isNetwork s.hw.lane net) (ht : d.turnsBlock s.hw.lane s.width net) :
    ∃ t, runCommands (blkWith d.load d.store net) s = .next t ∧ t.seq = .idle ∧
      d.Copies s s.idx s.laneBytes s.mem t.mem ∧
      (s.seq = .idle →
        ∃ u, Host.Core.run Sys2Proof.core (scriptEvents (scalarMoves s.idx s.laneBytes d.scalar)).length
            { s with host := scriptEvents (scalarMoves s.idx s.laneBytes d.scalar) } = .next u ∧
          u.seq = .idle ∧ u.host = [] ∧ sameMemory t u) := by
  obtain ⟨t, block, moved⟩ := runCommands_blkWith hs hc hg hn ht
  refine ⟨t, block, moved.seq, moved.copies, fun hidle => ?_⟩
  obtain ⟨hcodec, hidx⟩ := (d.checksPass_block_iff (.inl rfl) s).mp hc
  obtain ⟨u, scalars, elements⟩ := runs_scalarMoves hidle hcodec hg hidx
  exact ⟨_, scalars.all, elements.seq, rfl, moved.copies.unique elements.copies⟩

end Direction

/-- Settles O54: either path moves the block's bytes to their places and changes no other byte. -/
theorem blockPathEqualsScalarPath : Obligations.BlockPathEqualsScalarPath := by
  unfold Obligations.BlockPathEqualsScalarPath
  intro s hs hc hg
  obtain ⟨hw, -⟩ := id hc
  refine ⟨fun net hnet => ?_, fun net hnet => ?_⟩
  · obtain ⟨hn, ht⟩ : isNetwork s.hw.lane net ∧ encodesBlock s.hw.lane s.width net :=
      hnet.elim (fun e => e ▸ netEnc_encodesBlock _ hw) id
    obtain ⟨t, block, idle, ⟨moved, kept⟩, scalar⟩ :=
      Direction.blockPath_eq_scalarPath (d := .toPlanes) hs hc hg hn ht
    simp only [Direction.target, planeAddr, ← Nat.add_assoc] at moved kept
    exact ⟨t, block, idle, moved, kept, scalar⟩
  · obtain ⟨hn, ht⟩ : isNetwork s.hw.lane net ∧ decodesBlock s.hw.lane s.width net :=
      hnet.elim (fun e => e ▸ netDec_decodesBlock _ hw) id
    obtain ⟨t, block, idle, ⟨moved, kept⟩, scalar⟩ :=
      Direction.blockPath_eq_scalarPath (d := .toElements) hs hc hg hn ht
    simp only [Direction.source, planeAddr, ← Nat.add_assoc] at moved
    exact ⟨t, block, idle, moved, kept, scalar⟩

end Sys2Proof.Machine
end

section
/-! `ENC` and `DEC` move every element of a buffer, and so do their expansions (42_codec R120 to R125). -/

namespace Sys2Proof.Machine

namespace Direction

variable {d : Direction} {s t : State}

/-! ### The whole-buffer commands (42_codec R120, R121) -/

theorem exists_memoryPlan_codec (d : Direction) : ∃ need plan, memoryPlan d.codec = some (need, plan) := by
  cases d <;> exact ⟨_, _, rfl⟩

/-- All accesses of `ENC` or `DEC` together move every element. -/
theorem finishPlan_copies {need : IndexNeed} {plan : State → Plan} (hp : memoryPlan d.codec = some (need, plan))
    (hc : checksPass d.codec s) : d.Copies s 0 s.nelem s.mem (finishPlan (plan s) s).mem := by
  refine ⟨fun j hj k hk => finish_read hp hc ?_, fun a ha => finish_read_other hp ?_⟩
  · exact (d.storesByte_codec s _ _).mpr ⟨0 + j, by omega, k, hk, rfl, rfl⟩
  · rintro ⟨b, hb⟩
    obtain ⟨e, he, k, hk, rfl, -⟩ := (d.storesByte_codec s _ _).mp hb
    exact ha e he k hk (by rw [Nat.zero_add])

/-- With its checks passed and its regions granted the command completes and moves every element. -/
theorem exec_codec (hc : checksPass d.codec s) (hg : regionsGranted s) :
    ∃ t, exec d.codec s = .next t ∧ completed s t ∧ d.Copies s 0 s.nelem s.mem t.mem := by
  obtain ⟨need, plan, hp⟩ := d.exists_memoryPlan_codec
  exact ⟨_, exec_finish hp hc (no_refused_of_granted hc hg), finish_completed _ s, finishPlan_copies hp hc⟩

/-- A command that ended in `IDLE` has moved every element: each of its faults ends in `FAULT`. -/
theorem copies_of_exec_codec (h : exec d.codec s = .next t) (ht : t.seq = .idle) : d.Copies s 0 s.nelem s.mem t.mem := by
  obtain ⟨need, plan, hp⟩ := d.exists_memoryPlan_codec
  rcases exec_memory_cases hp h with ⟨k, -, rfl⟩ | ⟨hc, -, rfl⟩ | ⟨-, -, rfl⟩
  · simp at ht
  · exact finishPlan_copies hp hc
  · simp at ht

/-- The byte at every place is the element's, and no byte outside the destination region changed. -/
theorem exec_codec_transposes (hc : checksPass d.codec s) (hg : regionsGranted s) :
    ∃ t, exec d.codec s = .next t ∧ completed s t ∧
      (∀ e < s.nelem, ∀ k < s.width, t.mem.read (d.target s e k) = s.mem.read (d.source s e k)) ∧
      ∀ a, ¬(s.dst ≤ a ∧ a < s.dst + s.nelem * s.width) → t.mem.read a = s.mem.read a := by
  obtain ⟨t, h, done, ⟨moved, kept⟩⟩ := exec_codec hc hg
  simp only [Nat.zero_add] at moved kept
  refine ⟨t, h, done, moved, fun a ha => kept a fun e he k hk hak => ha ?_⟩
  exact stores_bound hc ((d.storesByte_codec s a _).mpr ⟨e, he, k, hk, hak, rfl⟩)

/-! ### There and back (42_codec R122) -/

/-- The other direction. -/
def flip : Direction → Direction
  | toPlanes => toElements
  | toElements => toPlanes

/-- A byte of a buffer is a byte of an element, and the element returns to the offset it came from. -/
theorem exists_source_eq_target_flip (d : Direction) {u : State} (hw : u.cfgW = s.cfgW) (hn : u.nelem = s.nelem) {o : Nat}
    (ho : o < s.nelem * s.width) :
    ∃ e < s.nelem, ∃ k < s.width, d.source s e k = s.src + o ∧ d.flip.target u e k = u.dst + o := by
  have width : u.width = s.width := congrArg BitVec.toNat hw
  cases d with
  | toPlanes =>
    obtain ⟨e, he, k, hk, rfl⟩ := exists_mul_add ho
    exact ⟨e, he, k, hk, Nat.add_assoc .., by rw [flip, target, elemAddr, width, Nat.add_assoc]⟩
  | toElements =>
    obtain ⟨k, hk, e, he, rfl⟩ := exists_mul_add (Nat.mul_comm s.nelem _ ▸ ho)
    exact ⟨e, he, k, hk, Nat.add_assoc .., by rw [flip, target, planeAddr, hn, Nat.add_assoc]⟩

/-- What one direction writes the other reads. -/
theorem source_flip (d : Direction) {u : State} (hw : u.cfgW = s.cfgW) (hn : u.nelem = s.nelem) (hs : u.src = s.dst)
    (e k : Nat) : d.flip.source u e k = d.target s e k := by
  have width : u.width = s.width := congrArg BitVec.toNat hw
  cases d <;> simp only [flip, source, target, hn, hs, width]

/-- A command and then the one of the other direction bring every byte back to its offset. -/
theorem round_trip {u v : State} (h : exec d.codec s = .next t) (ht : t.seq = .idle) (hm : sameMemory t u)
    (hw : u.cfgW = s.cfgW) (hn : u.nelem = s.nelem) (hs : u.src = s.dst) (h' : exec d.flip.codec u = .next v)
    (hv : v.seq = .idle) {o : Nat} (ho : o < s.nelem * s.width) : v.mem.read (u.dst + o) = s.mem.read (s.src + o) := by
  have width : u.width = s.width := congrArg BitVec.toNat hw
  obtain ⟨there, -⟩ := copies_of_exec_codec h ht
  obtain ⟨back, -⟩ := copies_of_exec_codec h' hv
  simp only [Nat.zero_add] at there back
  obtain ⟨e, he, k, hk, from_, to_⟩ := d.exists_source_eq_target_flip hw hn ho
  calc v.mem.read (u.dst + o)
      = u.mem.read (d.flip.source u e k) := by rw [← to_, back e (hn ▸ he) k (width ▸ hk)]
    _ = t.mem.read (d.target s e k) := by rw [source_flip d hw hn hs, hm]
    _ = s.mem.read (s.src + o) := by rw [there e he k hk, from_]

end Direction

/-- Settles O38: the elements are moved from the element buffer to the planes. -/
theorem encTransposesToPlanes : Obligations.EncTransposesToPlanes := by
  unfold Obligations.EncTransposesToPlanes
  exact fun _ hc hg => Direction.exec_codec_transposes (d := .toPlanes) hc hg

/-- Settles O39: the elements are moved from the planes to the element buffer. -/
theorem decTransposesToElements : Obligations.DecTransposesToElements := by
  unfold Obligations.DecTransposesToElements
  exact fun _ hc hg => Direction.exec_codec_transposes (d := .toElements) hc hg

/-- Settles O40: what one direction writes the other reads, and brings back to where it came from. -/
theorem codecRoundTrip : Obligations.CodecRoundTrip := by
  unfold Obligations.CodecRoundTrip
  rintro _ _ (⟨rfl, rfl⟩ | ⟨rfl, rfl⟩) s t u v h ht hm hw hn hs h' hv o ho
  · exact Direction.round_trip (d := .toPlanes) h ht hm hw hn hs h' hv ho
  · exact Direction.round_trip (d := .toElements) h ht hm hw hn hs h' hv ho

/-! ### The scalar loop (42_codec R124) -/

namespace Direction

variable {d : Direction} {s t : State}

/-- Scalar moves of all elements leave the memory that the whole-buffer command leaves. -/
theorem scalarLoop_eq_codec (hs : s.seq = .idle) (hc : checksPass d.codec s) (hg : regionsGranted s) :
    ∃ t u, Host.Core.run Sys2Proof.core (scriptEvents (scalarLoop s.nelem d.scalar)).length
        { s with host := scriptEvents (scalarLoop s.nelem d.scalar) } = .next t ∧
      exec d.codec s = .next u ∧ t.seq = .idle ∧ t.host = [] ∧ sameMemory u t := by
  obtain ⟨t, scalars, moved⟩ := runs_scalarMoves hs hc hg (Nat.zero_add s.nelem).le
  obtain ⟨u, codec, -, copies⟩ := exec_codec hc hg
  exact ⟨_, u, scalars.all, codec, moved.seq, rfl, copies.unique moved.copies⟩

end Direction

/-- Settles O57: both move every element to its place and change no other byte. -/
theorem scalarLoopEqualsCodec : Obligations.ScalarLoopEqualsCodec := by
  unfold Obligations.ScalarLoopEqualsCodec
  rintro _ _ (⟨rfl, rfl⟩ | ⟨rfl, rfl⟩) s hs hc hg
  · exact Direction.scalarLoop_eq_codec (d := .toPlanes) hs hc hg
  · exact Direction.scalarLoop_eq_codec (d := .toElements) hs hc hg

/-! ### The block loop (42_codec R123, R125) -/

/-- Commands that the host issues one by one run as they do with nothing of the host between them: what the host has
read and what has raced them is all that differs. -/
theorem runs_commands {is : List Instr} {s t : State} (hs : s.seq = .idle) (h : runCommands is s = .next t)
    (ht : t.seq = .idle) (seen : List Nat) (raced : List (Nat × Byte)) :
    ∃ seen' raced', Runs (scriptEvents (is.map .cmd)) { s with seen := seen, raced := raced }
      { t with seen := seen', raced := raced' } := by
  induction is generalizing s seen raced with
  | nil =>
    cases h
    exact ⟨seen, raced, .nil _⟩
  | cons i is ih =>
    obtain ⟨u, hu⟩ := exec_next i s
    rw [runCommands, hu] at h
    by_cases hidle : u.seq = .idle
    · simp only [hidle, if_true] at h
      have one := Runs.command (s := { s with seen := seen, raced := raced }) hs (exec_outer hu s.host seen s.seq raced)
      obtain ⟨seen', raced', rest⟩ := ih hidle h _ _
      exact ⟨seen', raced', one.append rest⟩
    · simp only [hidle, if_false] at h
      cases h
      exact absurd ht hidle

namespace Direction

variable {d : Direction} {s t : State}

/-- What the block loop does: `b` blocks, of `n` commands each, are moved. -/
structure BlocksMoved (d : Direction) (n b : Nat) (s t : State) : Prop where
  seq : t.seq = .idle
  lanes : lanesWf t
  buffers : SameBuffers s t
  cmdcnt : t.cmdcnt = s.cmdcnt + BitVec.ofNat 32 (b * n)
  copies : d.Copies s 0 (b * s.laneBytes) s.mem t.mem

section
variable {net : List Instr} (hc : checksPass d.codec s) (hg : regionsGranted s) (hn : isNetwork s.hw.lane net)
  (ht : d.turnsBlock s.hw.lane s.width net)
include hc hg hn ht

/-- A pass of the block loop moves one block more. -/
theorem BlocksMoved.step {b : Nat} (hb : (b + 1) * s.laneBytes ≤ s.nelem)
    (h : d.BlocksMoved (net.length + 2) b s t) :
    ∃ u, Runs (scriptEvents (.wr .idx (b * s.laneBytes) :: (blkWith d.load d.store net).map .cmd)) t u ∧
      d.BlocksMoved (net.length + 2) (b + 1) s u := by
  have pos : 0 < s.laneBytes := by rw [State.laneBytes]; cases s.hw.lane <;> decide
  rw [Nat.add_mul, Nat.one_mul] at hb
  have buffers : SameBuffers s { t with idx := b * s.laneBytes } := h.buffers.trans ⟨rfl, rfl, rfl, rfl, rfl⟩
  have checks : checksPass d.load { t with idx := b * s.laneBytes } := (d.checksPass_block_iff (.inl rfl) _).mpr
    ⟨buffers.checks hc, by rw [buffers.laneBytes, buffers.nelem]; exact hb⟩
  have setIdx := Runs.writeIdx h.seq (v := b * s.laneBytes)
    (by rw [h.buffers.hw]; exact index_lt_top hc (by omega))
  have turns : d.turnsBlock t.hw.lane t.width net := by rwa [h.buffers.hw, h.buffers.width]
  obtain ⟨u, block, moved⟩ := runCommands_blkWith (s := { t with idx := b * s.laneBytes }) h.lanes checks
    (buffers.granted hg) (h.buffers.hw ▸ hn) turns
  obtain ⟨seen, raced, run⟩ := runs_commands (by exact h.seq) block moved.seq t.seen t.raced
  have copies : d.Copies s (0 + b * s.laneBytes) s.laneBytes t.mem u.mem := by
    simpa only [Nat.zero_add, buffers.laneBytes] using moved.copies.congr buffers
  refine ⟨_, setIdx.append run, moved.seq, moved.lanes, buffers.trans (.of_sameControl moved.control), ?_, ?_⟩
  · rw [Nat.add_mul, Nat.one_mul, ← cmdcnt_add]
    exact moved.cmdcnt.trans (congrArg (· + _) h.cmdcnt)
  · rw [Nat.add_mul, Nat.one_mul]
    exact h.copies.append hc (by omega) copies

/-- The block loop moves the whole blocks and the scalar loop the elements after them. -/
theorem runs_expansion (hs : s.seq = .idle) (hl : lanesWf s) :
    ∃ t, Runs (scriptEvents (expansion s.hw.lane s.nelem (blkWith d.load d.store net) d.scalar)) s t ∧ t.seq = .idle ∧
      t.cmdcnt = s.cmdcnt + BitVec.ofNat 32 (s.nelem / s.laneBytes * (2 + net.length) +
        (s.nelem - s.nelem / s.laneBytes * s.laneBytes)) ∧
      d.Copies s 0 s.nelem s.mem t.mem := by
  have le : s.nelem / s.laneBytes * s.laneBytes ≤ s.nelem := Nat.div_mul_le_self _ _
  obtain ⟨t, blocks, whole⟩ := Runs.loop
    (fun b => scriptEvents (.wr .idx (b * s.laneBytes) :: (blkWith d.load d.store net).map .cmd))
    (fun b => d.BlocksMoved (net.length + 2) b s) (s.nelem / s.laneBytes)
    (fun b hb t h => h.step hc hg hn ht ((Nat.mul_le_mul_right _ hb).trans le)) _ le_rfl s
    ⟨hs, hl, ⟨rfl, rfl, rfl, rfl, rfl⟩, by simp, by rw [Nat.zero_mul]; exact .zero 0 s.mem⟩
  obtain ⟨u, scalars, tail⟩ := runs_scalarMoves whole.seq (whole.buffers.checks hc) (whole.buffers.granted hg)
    (first := s.nelem / s.laneBytes * s.laneBytes) (n := s.nelem - s.nelem / s.laneBytes * s.laneBytes)
    (by rw [whole.buffers.nelem]; omega)
  have rest : d.Copies s (0 + s.nelem / s.laneBytes * s.laneBytes)
      (s.nelem - s.nelem / s.laneBytes * s.laneBytes) t.mem u.mem := by
    rw [Nat.zero_add]
    exact tail.copies.congr whole.buffers
  refine ⟨u, ?_, tail.seq, ?_, ?_⟩
  · rw [scriptEvents, expansion, List.flatMap_append, List.flatMap_assoc]
    exact blocks.append scalars
  · rw [tail.cmdcnt, whole.cmdcnt, cmdcnt_add, Nat.add_comm 2]
  · have := whole.copies.append hc (by omega) rest
    rwa [Nat.add_sub_cancel' le] at this

/-- The expansion leaves the memory that the whole-buffer command leaves. -/
theorem expansion_eq_codec (hs : s.seq = .idle) (hl : lanesWf s) :
    ∃ t u, Host.Core.run Sys2Proof.core
        (scriptEvents (expansion s.hw.lane s.nelem (blkWith d.load d.store net) d.scalar)).length
        { s with host := scriptEvents (expansion s.hw.lane s.nelem (blkWith d.load d.store net) d.scalar) } = .next t ∧
      exec d.codec s = .next u ∧ t.seq = .idle ∧ t.host = [] ∧ sameMemory u t ∧
      t.cmdcnt = s.cmdcnt + BitVec.ofNat 32 (s.nelem / s.laneBytes * (2 + net.length) +
        (s.nelem - s.nelem / s.laneBytes * s.laneBytes)) := by
  obtain ⟨t, run, idle, count, moved⟩ := runs_expansion hc hg hn ht hs hl
  obtain ⟨u, codec, -, copies⟩ := exec_codec hc hg
  exact ⟨_, u, run.all, codec, idle, rfl, copies.unique moved, count⟩

end

end Direction

/-- Settles O55: `NET.ENC` turns a block, and blocks and the elements after them are all elements. -/
theorem encExpansionEqualsEnc : Obligations.EncExpansionEqualsEnc := by
  unfold Obligations.EncExpansionEqualsEnc
  intro s hs hl hc hg
  obtain ⟨hw, -⟩ := id hc
  obtain ⟨hn, ht⟩ := netEnc_encodesBlock s.hw.lane hw
  exact Direction.expansion_eq_codec (d := .toPlanes) hc hg hn ht hs hl

/-- Settles O56: `NET.DEC` turns a block, and blocks and the elements after them are all elements. -/
theorem decExpansionEqualsDec : Obligations.DecExpansionEqualsDec := by
  unfold Obligations.DecExpansionEqualsDec
  intro s hs hl hc hg
  obtain ⟨hw, -⟩ := id hc
  obtain ⟨hn, ht⟩ := netDec_decodesBlock s.hw.lane hw
  exact Direction.expansion_eq_codec (d := .toElements) hc hg hn ht hs hl

end Sys2Proof.Machine
end

section
/-! Networks that leave the lane registers as they were (95_test_vectors section 3 item 4). -/

namespace Sys2Proof.Machine

/-- A network does not touch the registers above the active ones (10_state R12). -/
theorem runCommands_network_kept {net : List Instr} {s t : State} (hn : isNetwork s.hw.lane net) (hs : lanesWf s)
    (hw : widthOk s) (h : runCommands net s = .next t) : lanesKeptFrom s.width s t := by
  induction net generalizing s with
  | nil => cases h; exact fun _ _ => rfl
  | cons i net ih =>
    obtain ⟨⟨hi, hl⟩, hn⟩ := List.forall_mem_cons.mp hn
    obtain ⟨f, hf⟩ := exists_primitiveFn hi
    obtain ⟨-, -, hlanes, kept⟩ := afterPrimitive_completed hf hl hs hw
    rw [runCommands_cons net (exec_primitive_done hf hl hw) rfl] at h
    exact fun r hr => (ih (s := afterPrimitive f s) hn hlanes hw h r hr).trans (kept r hr)

/-- A network of at least one primitive ends in `IDLE`, whatever `STATE` it was started in. -/
theorem runCommands_network_idle {net : List Instr} (hne : net ≠ []) {s t : State} (hn : isNetwork s.hw.lane net)
    (hs : lanesWf s) (hw : widthOk s) (h : runCommands net s = .next t) : t.seq = .idle := by
  obtain ⟨i, net, rfl⟩ := List.exists_cons_of_ne_nil hne
  obtain ⟨⟨hi, hl⟩, hn⟩ := List.forall_mem_cons.mp hn
  obtain ⟨f, hf⟩ := exists_primitiveFn hi
  obtain ⟨-, -, hlanes, -⟩ := afterPrimitive_completed hf hl hs hw
  rw [runCommands_cons net (exec_primitive_done hf hl hw) rfl] at h
  obtain ⟨u, hu, ran⟩ := runCommands_network (s := afterPrimitive f s) hn hlanes hw
  rw [← Host.Outcome.next.inj (hu.symm.trans h)]
  exact ran.idle rfl

/-- Lane registers that agree register by register are the same. -/
theorem lanes_eq_of_lane_eq {s t : State} (hs : lanesWf s) (ht : lanesWf t) (h : ∀ r, t.lane r = s.lane r) :
    t.lanes = s.lanes := by
  refine List.ext_getElem (ht.1.trans hs.1.symm) fun r htr hsr => ?_
  simpa [State.lane, List.getD, htr, hsr] using h r

/-- Registers of one length that agree byte by byte are the same. -/
theorem lane_eq_of_laneByte_eq {s t : State} {r n : Nat} (hs : (s.lane r).length = n) (ht : (t.lane r).length = n)
    (h : ∀ j < n, t.laneByte r j = s.laneByte r j) : t.lane r = s.lane r := by
  refine List.ext_getElem (ht.trans hs.symm) fun j htj hsj => ?_
  simpa [State.laneByte, List.getD, htj, hsj] using h j (hs ▸ hsj)

theorem networkPosition_eq_self {l : LaneLen} {r : Nat} (hr : r ∈ [2, 3]) {net : List Instr} (hn : isNetwork l net)
    (hbit : ∀ c < 8, networkBit l r net c = c) {a : Nat} (ha : a < 2 ^ 8) : networkPosition l r net a = a := by
  refine Nat.eq_of_testBit_eq fun c => ?_
  by_cases hc : c < 8
  · rw [networkPosition_testBit hr hn a hc, hbit c hc]
  · rw [testBit_of_not_lt_eight (networkPosition_lt l r net ha) hc, testBit_of_not_lt_eight ha hc]

theorem positions_le (l : LaneLen) {r : Nat} (hr : r ∈ [2, 3]) : 2 ^ (r + l.log2.toNat) ≤ 2 ^ 8 := by
  refine Nat.pow_le_pow_right two_pos ?_
  have : l.log2.toNat ≤ 5 := by cases l <;> decide
  have : r = 2 ∨ r = 3 := by simpa using hr
  omega

/-- A network that takes every bit of a position back to its place restores the lane registers. -/
theorem runCommands_of_networkBit_eq_self {net : List Instr} (hne : net ≠ []) {s : State}
    (hn : isNetwork s.hw.lane net) (hs : lanesWf s) (hw : widthOk s)
    (hbit : ∀ c < 8, networkBit s.hw.lane s.regBits net c = c) :
    ∃ t, runCommands net s = .next t ∧ t.seq = .idle ∧ t.lanes = s.lanes := by
  obtain ⟨-, hr⟩ := width_eq_two_pow hw
  obtain ⟨t, h, ran⟩ := runCommands_network hn hs hw
  have same : SameBuffers s t := by rw [ran.rest]; exact ⟨rfl, rfl, rfl, rfl, rfl⟩
  refine ⟨t, h, runCommands_network_idle hne hn hs hw h, lanes_eq_of_lane_eq hs ran.lanes fun r => ?_⟩
  by_cases hact : r < s.width
  · refine lane_eq_of_laneByte_eq (lane_length hs hw hact) ?_ fun j hj => ?_
    · rw [← same.hw]
      exact lane_length ran.lanes (by rwa [widthOk, same.width]) (same.width ▸ hact)
    · have lt : r * s.laneBytes + j < s.width * s.laneBytes := by
        have : j < s.laneBytes := hj
        nlinarith
      have le : s.width * s.laneBytes ≤ 2 ^ 8 := positions_eq_two_pow hw ▸ positions_le _ hr
      obtain ⟨-, moved⟩ := ran.bytes _ lt
      rwa [networkPosition_eq_self hr hn hbit (lt.trans_le le), posByte_mul_add hj, ← same.laneBytes,
        posByte_mul_add (same.laneBytes ▸ hj)] at moved
  · exact runCommands_network_kept hn hs hw h r (by omega)

/-- The rotations of the reference networks undo each other (40_primitives R97; 42_codec R126). -/
theorem referenceNetworks_networkBit : ∀ l ∈ [LaneLen.l16, .l32], ∀ r ∈ [2, 3], ∀ c < 8,
    networkBit l r (netEnc l ++ netDec l (2 ^ r)) c = c ∧ networkBit l r (netDec l (2 ^ r) ++ netEnc l) c = c := by
  decide

theorem netEnc_ne_nil (l : LaneLen) : netEnc l ≠ [] := by cases l <;> decide

/-- Settles O50, by the rotations of the reference networks. -/
theorem referenceNetworksTranspose : Obligations.ReferenceNetworksTranspose := by
  unfold Obligations.ReferenceNetworksTranspose
  exact fun l width hw => ⟨(netEnc_encodesBlock l hw).2, (netDec_decodesBlock l hw).2⟩

/-- Settles O51: one reference network after the other takes every bit of a position back to its place. -/
theorem referenceNetworksAreInverse : Obligations.ReferenceNetworksAreInverse := by
  unfold Obligations.ReferenceNetworksAreInverse
  intro s hs hw
  obtain ⟨width, hr⟩ := width_eq_two_pow hw
  have bits := referenceNetworks_networkBit _ (mem_laneLens s.hw.lane) _ hr
  rw [← width] at bits
  have enc := (netEnc_encodesBlock s.hw.lane hw).1
  have dec := (netDec_decodesBlock s.hw.lane hw).1
  obtain ⟨t, ht, tidle, tlanes⟩ := runCommands_of_networkBit_eq_self (by simp [netEnc_ne_nil])
    (List.forall_mem_append.mpr ⟨enc, dec⟩) hs hw fun c hc => (bits c hc).1
  obtain ⟨u, hu, uidle, ulanes⟩ := runCommands_of_networkBit_eq_self (by simp [netEnc_ne_nil])
    (List.forall_mem_append.mpr ⟨dec, enc⟩) hs hw fun c hc => (bits c hc).2
  exact ⟨t, u, ht, tidle, tlanes, hu, uidle, ulanes⟩

end Sys2Proof.Machine
end

section
/-! Which networks turn a block: those that rotate the bits of its positions (40_primitives R97; 42_codec R134). -/

namespace Sys2Proof.Machine

/-! ### A block whose bytes tell their positions -/

/-- A unit of lane length `l` and width `2^r` whose byte at position `a` is `a`. -/
def numberedUnit (l : LaneLen) (r : Nat) : State :=
  { State.resetOf { Hardware.baseline with lane := l } with
    cfgW := BitVec.ofNat 4 (2 ^ r)
    lanes := (List.range numLanes).map fun v =>
      (List.range l.bytes).map fun j => BitVec.ofNat 8 (v * l.bytes + j) }

theorem numberedUnit_lanesWf (l : LaneLen) (r : Nat) : lanesWf (numberedUnit l r) := by
  refine ⟨by simp [numberedUnit], fun v hv => ?_⟩
  obtain ⟨i, -, rfl⟩ := List.mem_map.mp hv
  simp only [List.length_map, List.length_range]
  rfl

theorem numberedUnit_width {l : LaneLen} {r : Nat} (hr : r ∈ [2, 3]) : (numberedUnit l r).width = 2 ^ r := by
  rcases (by simpa using hr : r = 2 ∨ r = 3) with rfl | rfl <;> rfl

theorem numberedUnit_posByte {l : LaneLen} {r a : Nat} (ha : a < numLanes * l.bytes) :
    (numberedUnit l r).posByte a = BitVec.ofNat 8 a := by
  have pos : 0 < l.bytes := by cases l <;> decide
  have reg : a / l.bytes < numLanes := Nat.div_lt_of_lt_mul (Nat.mul_comm _ _ ▸ ha)
  have byte : a % l.bytes < l.bytes := Nat.mod_lt _ pos
  change (((List.range numLanes).map fun v => (List.range l.bytes).map fun j =>
    BitVec.ofNat 8 (v * l.bytes + j)).getD (a / l.bytes) []).getD (a % l.bytes) 0 = _
  simp [List.getD, reg, byte, Nat.div_add_mod']

/-- No two positions of the block hold one byte. -/
theorem numberedUnit_posByte_inj {l : LaneLen} {r : Nat} (hr : r ∈ [2, 3]) {a b : Nat}
    (ha : a < 2 ^ (r + l.log2.toNat)) (hb : b < 2 ^ (r + l.log2.toNat))
    (h : (numberedUnit l r).posByte a = (numberedUnit l r).posByte b) : a = b := by
  have le : 2 ^ (r + l.log2.toNat) ≤ numLanes * l.bytes := by
    rw [pow_add, two_pow_log2]
    exact Nat.mul_le_mul_right _ (by rcases (by simpa using hr : r = 2 ∨ r = 3) with rfl | rfl <;> decide)
  rw [numberedUnit_posByte (ha.trans_le le), numberedUnit_posByte (hb.trans_le le)] at h
  have := congrArg BitVec.toNat h
  rwa [BitVec.toNat_ofNat, BitVec.toNat_ofNat, Nat.mod_eq_of_lt (ha.trans_le (positions_le l hr)),
    Nat.mod_eq_of_lt (hb.trans_le (positions_le l hr))] at this

/-! ### A network turns a block exactly when it rotates the position bits -/

/-- The bit that bit `c` of a position equals after the lowest `w` bits were rotated by `k`. -/
def rotatedBit (w k c : Nat) : Nat := if c < w then (c + k) % w else c

/-- No primitive moves a bit above those of the active positions. -/
theorem sourceBit_rotatedField_of_le : ∀ i ∈ primitives, ∀ l ∈ [LaneLen.l16, .l32], ∀ r ∈ [2, 3], ∀ c < 8,
    r + l.log2.toNat ≤ c → sourceBit (rotatedField i l r) c = c := by decide

theorem networkBit_of_le {l : LaneLen} {r : Nat} (hr : r ∈ [2, 3]) {net : List Instr} (hn : isNetwork l net) {c : Nat}
    (hc : c < 8) (hle : r + l.log2.toNat ≤ c) : networkBit l r net c = c := by
  induction net with
  | nil => rfl
  | cons i net ih =>
    obtain ⟨⟨hi, -⟩, hn⟩ := List.forall_mem_cons.mp hn
    change sourceBit _ (networkBit l r net c) = c
    rw [ih hn, sourceBit_rotatedField_of_le i (mem_primitives hi) l (mem_laneLens l) r hr c hc hle]

section
variable {l : LaneLen} {r : Nat} (hr : r ∈ [2, 3]) {net : List Instr} (hn : isNetwork l net)
include hr hn

/-- What a network makes of that block: each byte still tells where it was. -/
theorem runCommands_numberedUnit : ∃ t, runCommands net (numberedUnit l r) = .next t ∧ t.hw.lane = l ∧
    ∀ a < 2 ^ (r + l.log2.toNat), networkPosition l r net a < 2 ^ (r + l.log2.toNat) ∧
      t.posByte (networkPosition l r net a) = (numberedUnit l r).posByte a := by
  obtain ⟨hw, regBits⟩ := widthOk_of_two_pow hr (numberedUnit_width (l := l) hr)
  obtain ⟨t, ht, ran⟩ := runCommands_network (s := numberedUnit l r) hn (numberedUnit_lanesWf l r) hw
  have bytes := ran.bytes
  rw [positions_eq_two_pow hw, regBits] at bytes
  exact ⟨t, ht, by rw [ran.rest]; rfl, bytes⟩

/-- A network that moves the byte at `x` above `n` bits `y` to `y` above `m` bits `x` rotates the position bits: follow
the position with the one bit that has to come to bit `c`. -/
theorem networkBit_of_swaps {m n : Nat} (hmn : m + n = r + l.log2.toNat) {t : State}
    (ht : runCommands net (numberedUnit l r) = .next t)
    (h : ∀ x < 2 ^ m, ∀ y < 2 ^ n, t.posByte (joinBits m y x) = (numberedUnit l r).posByte (joinBits n x y)) :
    ∀ c < 8, networkBit l r net c = rotatedBit (m + n) n c := by
  intro c hc
  obtain ⟨u, hu, -, bytes⟩ := runCommands_numberedUnit hr hn
  obtain rfl := Host.Outcome.next.inj (hu.symm.trans ht)
  rw [← hmn] at bytes
  rw [rotatedBit]
  split
  · next hlt =>
    have ha : 2 ^ ((c + n) % (m + n)) < 2 ^ (m + n) := Nat.pow_lt_pow_right one_lt_two (Nat.mod_lt _ (by omega))
    obtain ⟨lt, moved⟩ := bytes _ ha
    obtain ⟨y, hy, x, hx, place⟩ := exists_joinBits lt
    have old : joinBits n x y < 2 ^ (m + n) := Nat.add_comm n m ▸ joinBits_lt hx hy
    have from_ : joinBits n x y = 2 ^ ((c + n) % (m + n)) :=
      numberedUnit_posByte_inj hr (hmn ▸ old) (hmn ▸ ha) ((h x hx y hy).symm.trans (place ▸ moved))
    have bit := networkPosition_testBit hr hn (2 ^ ((c + n) % (m + n))) hc
    rw [place, testBit_joinBits_swap hx hy, if_pos hlt, from_, Nat.testBit_two_pow_self, Nat.testBit_two_pow] at bit
    exact (of_decide_eq_true bit.symm).symm
  · next hle => exact networkBit_of_le hr hn hc (by omega)

end

namespace Direction

/-- By how many bits a network of this direction rotates the bits of a position. -/
def shift (d : Direction) (l : LaneLen) (r : Nat) : Nat :=
  match d with
  | toPlanes => r
  | toElements => l.log2.toNat

/-- A network turns a block exactly when it rotates the position bits (40_primitives R97; 42_codec R126). -/
theorem turnsBlock_iff (d : Direction) {l : LaneLen} {r : Nat} (hr : r ∈ [2, 3]) {net : List Instr}
    (hn : isNetwork l net) : d.turnsBlock l (2 ^ r) net ↔
      ∀ c < 8, networkBit l r net c = rotatedBit (r + l.log2.toNat) (d.shift l r) c := by
  have le : r + l.log2.toNat ≤ 8 := (Nat.pow_le_pow_iff_right one_lt_two).mp (positions_le l hr)
  obtain ⟨hlen, hlens⟩ := numberedUnit_lanesWf l r
  obtain ⟨u, hu, lane, -⟩ := runCommands_numberedUnit hr hn
  cases d with
  | toPlanes =>
    rw [Nat.add_comm] at le ⊢
    refine ⟨fun h => ?_, fun h => encodesBlock_of_networkPosition hr hn fun k hk j hj => ?_⟩
    · obtain ⟨t, ht, image⟩ := h _ rfl (numberedUnit_width hr) hlen hlens
      obtain rfl := Host.Outcome.next.inj (hu.symm.trans ht)
      refine networkBit_of_swaps hr hn (Nat.add_comm _ _) ht fun j hj k hk => ?_
      rw [posByte_joinBits (lane ▸ rfl) hj, image k hk j (two_pow_log2 l ▸ hj), joinBits, Nat.mul_comm]
    · exact networkPosition_joinBits hr hn le h ((two_pow_log2 l).symm ▸ hj) hk
  | toElements =>
    refine ⟨fun h => ?_, fun h => decodesBlock_of_networkPosition hr hn fun k hk j hj => ?_⟩
    · obtain ⟨t, ht, image⟩ := h _ rfl (numberedUnit_width hr) hlen hlens
      obtain rfl := Host.Outcome.next.inj (hu.symm.trans ht)
      refine networkBit_of_swaps hr hn rfl ht fun k hk j hj => ?_
      rw [posByte_joinBits (s := numberedUnit l r) (n := l.log2.toNat) rfl hj, ← image k hk j (two_pow_log2 l ▸ hj),
        joinBits, Nat.mul_comm]
    · exact networkPosition_joinBits hr hn le h hk ((two_pow_log2 l).symm ▸ hj)

end Direction

end Sys2Proof.Machine
end

section
/-! The table of minimal networks (42_codec R134), by computation with sets of networks. A set of networks of one length is
held as one number: bit `networkNumber net` of it says whether `net` is in the set, so the networks that take each of the
eight position bits to its place are the bitwise AND of eight numbers. -/

namespace Sys2Proof.Machine

/-! ### Sets of networks as numbers -/

theorem mem_primitives_iff {i : Instr} : i ∈ primitives ↔ i.isMemory = false := by cases i <;> decide

/-- The number of a network among those of its length: the digits are the primitives, the first the least. -/
def networkNumber (net : List Instr) : Nat := Nat.ofDigits primitives.length (net.map (primitives.idxOf ·))

theorem networkNumber_lt {net : List Instr} (h : ∀ i ∈ net, i ∈ primitives) :
    networkNumber net < primitives.length ^ net.length := by
  have := Nat.ofDigits_lt_base_pow_length (b := primitives.length) (l := net.map (primitives.idxOf ·)) (by decide)
    fun x hx => by
      obtain ⟨i, hi, rfl⟩ := List.mem_map.mp hx
      exact List.idxOf_lt_length_of_mem (h i hi)
  rwa [List.length_map] at this

theorem networkNumber_concat (net : List Instr) (i : Instr) : networkNumber (net ++ [i]) =
    primitives.length ^ net.length * primitives.idxOf i + networkNumber net := by
  simp [networkNumber, Nat.ofDigits_append, Nat.add_comm]

/-- The numbers `f i` of `k` bits each, one above the other. -/
def joinSets (k : Nat) (f : Instr → Nat) : List Instr → Nat
  | [] => 0
  | i :: is => 2 ^ k * joinSets k f is + f i % 2 ^ k

theorem testBit_joinSets {k : Nat} (f : Instr → Nat) {is : List Instr} {i : Instr} (hi : i ∈ is) {j : Nat} (hj : j < k) :
    (joinSets k f is).testBit (k * is.idxOf i + j) = (f i).testBit j := by
  induction is with
  | nil => simp at hi
  | cons a is ih =>
    rw [joinSets, Nat.testBit_two_pow_mul_add _ (Nat.mod_lt _ (Nat.two_pow_pos k))]
    by_cases ha : a = i
    · simp [ha, hj, Nat.testBit_mod_two_pow]
    · have above : k * (is.idxOf i + 1) + j = k * is.idxOf i + j + k := by ring
      rw [List.idxOf_cons_ne _ ha, above, if_neg (by omega), Nat.add_sub_cancel]
      exact ih (List.mem_of_ne_of_mem (Ne.symm ha) hi)

/-- From the sets of networks of `n` primitives that take bit `d` to bit `c`, one for each `c`, the sets of networks of
`n + 1` primitives that do: the last primitive is the first digit. -/
def nextSets (l : LaneLen) (r n : Nat) (sets : List Nat) : List Nat :=
  (List.range 8).map fun c => joinSets (primitives.length ^ n)
    (fun i => if i.legalFor l then sets.getD (sourceBit (rotatedField i l r) c) 0 else 0) primitives

/-- For each bit `c`, the set of networks of `n` primitives that take bit `d` of a position to bit `c`. -/
def bitSets (l : LaneLen) (r d : Nat) : Nat → List Nat
  | 0 => (List.range 8).map fun c => if c = d then 1 else 0
  | n + 1 => nextSets l r n (bitSets l r d n)

theorem getD_map_range {f : Nat → Nat} {n c : Nat} (hc : c < n) : ((List.range n).map f).getD c 0 = f c := by
  simp [List.getD, hc]

theorem testBit_bitSets {l : LaneLen} {r : Nat} (hr : r ∈ [2, 3]) (d : Nat) {net : List Instr}
    (hnet : ∀ i ∈ net, i ∈ primitives) {c : Nat} (hc : c < 8) :
    ((bitSets l r d net.length).getD c 0).testBit (networkNumber net) = true ↔
      (∀ i ∈ net, i.legalFor l = true) ∧ networkBit l r net c = d := by
  induction net using List.reverseRecOn generalizing c with
  | nil =>
    rw [List.length_nil, bitSets, getD_map_range hc]
    by_cases h : c = d <;> simp [networkNumber, networkBit, h]
  | append_singleton net i ih =>
    obtain ⟨hnet, hi⟩ := List.forall_mem_append.mp hnet
    have hi := hi i (List.mem_singleton_self i)
    have bit : networkBit l r (net ++ [i]) c = networkBit l r net (sourceBit (rotatedField i l r) c) := by
      simp [networkBit]
    rw [List.length_append, List.length_singleton, bitSets, nextSets, getD_map_range hc, networkNumber_concat,
      testBit_joinSets _ hi (networkNumber_lt hnet), bit, List.forall_mem_append, List.forall_mem_singleton]
    by_cases hl : i.legalFor l = true
    · rw [if_pos hl, ih hnet (sourceBit_rotatedField_lt i hi l (mem_laneLens l) r hr c hc), and_iff_left hl]
    · simp [hl]

/-- The networks of a set, in the order of their numbers. -/
def networksIn : Nat → Nat → List (List Instr)
  | 0, x => if x.testBit 0 then [[]] else []
  | n + 1, x => if x = 0 then [] else primitives.flatMap fun i =>
      (networksIn n (x >>> (primitives.length ^ n * primitives.idxOf i) % 2 ^ primitives.length ^ n)).map (· ++ [i])

theorem mem_networksIn {n x : Nat} {net : List Instr} : net ∈ networksIn n x ↔
    net.length = n ∧ (∀ i ∈ net, i ∈ primitives) ∧ x.testBit (networkNumber net) = true := by
  induction n generalizing x net with
  | zero =>
    rw [networksIn]
    split <;> cases net <;> simp_all [networkNumber]
  | succ n ih =>
    rw [networksIn]
    split
    · next h => simp [h]
    · simp only [List.mem_flatMap, List.mem_map, ih, Nat.testBit_mod_two_pow, Nat.testBit_shiftRight]
      constructor
      · rintro ⟨i, hi, net, ⟨rfl, hnet, hx⟩, rfl⟩
        rw [networkNumber_concat]
        exact ⟨by simp, by simpa [or_imp, forall_and] using ⟨hnet, hi⟩, (Bool.and_eq_true_iff.mp hx).2⟩
      · rintro ⟨hlen, hnet, hx⟩
        obtain ⟨net, i, rfl⟩ := (List.eq_nil_or_concat net).resolve_left (by rintro rfl; simp at hlen)
        rw [List.concat_eq_append] at *
        obtain ⟨hnet, hi⟩ := List.forall_mem_append.mp hnet
        obtain rfl : net.length = n := by simpa using hlen
        rw [networkNumber_concat] at hx
        exact ⟨i, hi i (List.mem_singleton_self i), net, ⟨rfl, hnet, by simp [networkNumber_lt hnet, hx]⟩, rfl⟩

theorem networksIn_nodup (n x : Nat) : (networksIn n x).Nodup := by
  induction n generalizing x with
  | zero => rw [networksIn]; split <;> simp
  | succ n ih =>
    rw [networksIn]
    split
    · exact List.nodup_nil
    · refine List.nodup_flatMap.mpr ⟨fun i _ => (ih _).map fun _ _ h => (List.append_left_inj _).mp h, ?_⟩
      refine (by decide : primitives.Nodup).imp fun {i j} hij net hi hj => hij ?_
      obtain ⟨_, -, rfl⟩ := List.mem_map.mp hi
      obtain ⟨_, -, h⟩ := List.mem_map.mp hj
      simpa using (List.append_inj' h rfl).2.symm

/-! ### The networks that turn a block -/

/-- The networks of `n` primitives that take the bits of a position to their places, as a set. -/
def rotatingSet (l : LaneLen) (r w k n : Nat) : Nat :=
  (List.range 8).foldr (fun c x => (bitSets l r (rotatedBit w k c) n).getD c 0 &&& x) (2 ^ primitives.length ^ n - 1)

theorem testBit_foldr_and {cs : List Nat} (f : Nat → Nat) (x j : Nat) :
    (cs.foldr (fun c x => f c &&& x) x).testBit j = true ↔ (∀ c ∈ cs, (f c).testBit j = true) ∧ x.testBit j = true := by
  induction cs with
  | nil => simp
  | cons c cs ih => simp [ih, and_assoc]

namespace Direction

/-- The networks of `n` primitives that turn a block. -/
def turningNetworks (d : Direction) (l : LaneLen) (r n : Nat) : List (List Instr) :=
  networksIn n (rotatingSet l r (r + l.log2.toNat) (d.shift l r) n)

theorem mem_turningNetworks (d : Direction) {l : LaneLen} {r : Nat} (hr : r ∈ [2, 3]) {n : Nat} {net : List Instr} :
    net ∈ d.turningNetworks l r n ↔ net.length = n ∧ isNetwork l net ∧ d.turnsBlock l (2 ^ r) net := by
  rw [turningNetworks, mem_networksIn, and_congr_right_iff]
  rintro rfl
  constructor
  · rintro ⟨hnet, hx⟩
    rw [rotatingSet, testBit_foldr_and] at hx
    have bits := fun c hc => (testBit_bitSets hr _ hnet hc).mp (hx.1 c (List.mem_range.mpr hc))
    have hn : isNetwork l net := fun i hi => ⟨mem_primitives_iff.mp (hnet i hi), (bits 0 (by omega)).1 i hi⟩
    exact ⟨hn, (d.turnsBlock_iff hr hn).mpr fun c hc => (bits c hc).2⟩
  · rintro ⟨hn, ht⟩
    have hnet : ∀ i ∈ net, i ∈ primitives := fun i hi => mem_primitives_iff.mpr (hn i hi).1
    refine ⟨hnet, (testBit_foldr_and _ _ _).mpr ⟨fun c hc => (testBit_bitSets hr _ hnet (List.mem_range.mp hc)).mpr
      ⟨fun i hi => (hn i hi).2, (d.turnsBlock_iff hr hn).mp ht c (List.mem_range.mp hc)⟩, ?_⟩⟩
    simp [Nat.testBit_two_pow_sub_one, networkNumber_lt hnet]

/-- No network turns a block with fewer than `n` primitives. -/
def noneShorter (d : Direction) (l : LaneLen) (r n : Nat) : Prop := ∀ m < n, d.turningNetworks l r m = []

section
variable {d : Direction} {l : LaneLen} {r n : Nat} (hr : r ∈ [2, 3]) (hs : d.noneShorter l r n)
include hr hs

/-- Of the networks of at most the minimal length those turn a block that the computation lists. -/
theorem turnsBlock_iff_mem_turningNetworks {net : List Instr} (hn : isNetwork l net) (hlen : net.length ≤ n) :
    d.turnsBlock l (2 ^ r) net ↔ net ∈ d.turningNetworks l r n := by
  rw [d.mem_turningNetworks hr]
  refine ⟨fun ht => ⟨le_antisymm hlen ?_, hn, ht⟩, fun ⟨_, _, ht⟩ => ht⟩
  by_contra hlt
  have mem := (d.mem_turningNetworks hr).mpr ⟨rfl, hn, ht⟩
  rw [hs net.length (by omega)] at mem
  exact List.not_mem_nil mem

theorem minimalNetworks_of_length {count : Nat} (hcount : (d.turningNetworks l r n).length = count) :
    minimalNetworks l (d.turnsBlock l (2 ^ r)) n count := by
  refine ⟨d.turningNetworks l r n, networksIn_nodup _ _, hcount, fun net h => ((d.mem_turningNetworks hr).mp h).1,
    fun net => ⟨fun h => ?_, fun ⟨hn, hlen, ht⟩ => (turnsBlock_iff_mem_turningNetworks hr hs hn hlen).mp ht⟩⟩
  obtain ⟨hlen, hn, ht⟩ := (d.mem_turningNetworks hr).mp h
  exact ⟨hn, hlen.le, ht⟩

end

end Direction

/-- The computation: of every row of the table, how many networks turn a block, and that none shorter does. The kernel
evaluates it by itself, with sets of up to `11 ^ 6` bits. -/
theorem networkTable_turningNetworks : ∀ row ∈ networkTable, ∀ r ∈ [2, 3], row.width = 2 ^ r →
    (Direction.toPlanes.noneShorter row.lane r row.encodeLength ∧
      (Direction.toPlanes.turningNetworks row.lane r row.encodeLength).length = row.encodeCount) ∧
    Direction.toElements.noneShorter row.lane r row.decodeLength ∧
      (Direction.toElements.turningNetworks row.lane r row.decodeLength).length = row.decodeCount := by
  unfold Direction.noneShorter
  decide +kernel

/-- Settles O60: the networks the computation lists are those of the row, and the four listed ones rotate the bits. -/
theorem minimalNetworksAreAsManyAsTheTableSays : Obligations.MinimalNetworksAreAsManyAsTheTableSays := by
  unfold Obligations.MinimalNetworksAreAsManyAsTheTableSays
  refine ⟨fun row hrow => ?_, ?_, ?_, ?_, ?_⟩
  · have widths : ∀ row ∈ networkTable, row.width = 4 ∨ row.width = 8 := by decide
    obtain ⟨r, hr, width⟩ := exists_regBits (widths row hrow)
    obtain ⟨⟨encodeNone, encodeCount⟩, decodeNone, decodeCount⟩ := networkTable_turningNetworks row hrow r hr width
    rw [width]
    exact ⟨Direction.minimalNetworks_of_length (d := .toPlanes) hr encodeNone encodeCount,
      Direction.minimalNetworks_of_length (d := .toElements) hr decodeNone decodeCount⟩
  · exact (Direction.toPlanes.turnsBlock_iff (r := 2) (by decide) (by unfold isNetwork; decide)).mpr (by decide)
  · exact (Direction.toElements.turnsBlock_iff (r := 2) (by decide) (by unfold isNetwork; decide)).mpr (by decide)
  · exact (Direction.toPlanes.turnsBlock_iff (r := 3) (by decide) (by unfold isNetwork; decide)).mpr (by decide)
  · exact (Direction.toElements.turnsBlock_iff (r := 3) (by decide) (by unfold isNetwork; decide)).mpr (by decide)

/-- Minimal networks are as short as any with the property. -/
theorem minimalNetworks.length_le {l : LaneLen} {reaches : List Instr → Prop} {n count : Nat}
    (h : minimalNetworks l reaches n count) {net : List Instr} (hn : isNetwork l net) (hp : reaches net) :
    n ≤ net.length := by
  obtain ⟨nets, -, -, lengths, mem⟩ := h
  by_contra hlt
  exact hlt (lengths net ((mem net).mpr ⟨hn, by omega, hp⟩)).ge

/-- Settles O53: the lengths are those of the table's rows for `L = 32`. -/
theorem minimalLengthsAtThirtyTwoBytes : Obligations.MinimalLengthsAtThirtyTwoBytes := by
  unfold Obligations.MinimalLengthsAtThirtyTwoBytes
  intro net hnet
  have hn : isNetwork .l32 net := fun i hi => ⟨hnet i hi, legalFor_l32 i⟩
  obtain ⟨table, -⟩ := minimalNetworksAreAsManyAsTheTableSays
  obtain ⟨encode4, decode4⟩ := table ⟨.l32, 4, 5, 15, 4, 14⟩ (by decide)
  obtain ⟨encode8, decode8⟩ := table ⟨.l32, 8, 5, 7, 6, 50⟩ (by decide)
  exact ⟨encode4.length_le hn, decode4.length_le hn, encode8.length_le hn, decode8.length_le hn⟩

/-- Settles O52: the computation lists exactly these networks. -/
theorem minimalNetworksAtSixteenBytes : Obligations.MinimalNetworksAtSixteenBytes := by
  unfold Obligations.MinimalNetworksAtSixteenBytes
  intro net hnet
  have hn : isNetwork .l16 net := fun i hi => ⟨by simp [Instr.isMemory, hnet i hi], legalFor_of_cls_unpk (hnet i hi) _⟩
  obtain ⟨⟨encode4, -⟩, decode4, -⟩ := networkTable_turningNetworks ⟨.l16, 4, 4, 8, 2, 2⟩ (by decide) 2 (by decide) rfl
  obtain ⟨⟨encode8, -⟩, decode8, -⟩ := networkTable_turningNetworks ⟨.l16, 8, 4, 4, 3, 2⟩ (by decide) 3 (by decide) rfl
  exact ⟨fun hlen => (Direction.turnsBlock_iff_mem_turningNetworks (by decide) encode4 hn hlen).trans
      (List.Perm.mem_iff (by decide +kernel)),
    fun hlen => (Direction.turnsBlock_iff_mem_turningNetworks (by decide) decode4 hn hlen).trans
      (List.Perm.mem_iff (by decide +kernel)),
    fun hlen => (Direction.turnsBlock_iff_mem_turningNetworks (by decide) encode8 hn hlen).trans
      (List.Perm.mem_iff (by decide +kernel)),
    fun hlen => (Direction.turnsBlock_iff_mem_turningNetworks (by decide) decode8 hn hlen).trans
      (List.Perm.mem_iff (by decide +kernel))⟩

end Sys2Proof.Machine
end

section
/-! Faults: what each check does, `AccessFault`, the order of the faults, and `FAULT` until reset (60_exceptions R141
to R148). -/

namespace Sys2Proof.Machine

/-! ### A command a check stops (60_exceptions R141 to R145) -/

section
variable {i : Instr} {need : IndexNeed} {plan : State → Plan} {s t : State}

/-- Fault entry and nothing else is one of the states a check may leave. -/
theorem stoppedBy_faultEntry (code : BitVec 4) (i : Instr) (s : State) :
    stoppedBy code i s (faultEntry code (encode i) s) := ⟨rfl, fun _ _ => rfl⟩

theorem stoppedBy.fault {code : BitVec 4} (h : stoppedBy code i s t) : t.seq = .fault ∧ t.causeCode = code := by
  obtain ⟨e, -⟩ := h
  rw [e]
  exact ⟨rfl, rfl⟩

theorem exists_memoryPlan (hi : i.isMemory = true) : ∃ need plan, memoryPlan i = some (need, plan) := by
  rcases primitive_or_memory i with ⟨-, -, -, hm⟩ | ⟨need, plan, hp, -⟩
  · simp [hi] at hm
  · exact ⟨need, plan, hp⟩

/-- A command the unit does not have is a primitive, which its first check stops (60_exceptions R141). -/
theorem isMemory_of_not_legalFor {l : LaneLen} (hl : i.legalFor l = false) : i.isMemory = false := by
  obtain ⟨wide, -⟩ : i.cls = .wide ∧ l ≠ .l32 := by simpa [Instr.legalFor] using hl
  simp [Instr.isMemory, wide]

theorem exec_illegal (hl : i.legalFor s.hw.lane = false) : exec i s = .next (faultEntry 1 (encode i) s) := by
  obtain ⟨f, hf⟩ := exists_primitiveFn (isMemory_of_not_legalFor hl)
  exact exec_primitive_illegal hf hl

/-- The width is the first check (60_exceptions R142). -/
theorem operandFault_badConfig (need : IndexNeed) (hw : ¬widthOk s) : operandFault need s = some .badConfig := by
  simp [operandFault, mt widthLegal_iff.mp hw]

/-- The range check is R144's. -/
theorem rangeOk_iff (hp : memoryPlan i = some (need, plan)) :
    (regionsFit s && indexLegal need s) = true ↔ rangeOk i s := by
  rw [Bool.and_eq_true, regionsFit_iff, indexLegal_iff hp, rangeOk, and_assoc]

/-- With a legal width the range comes next (60_exceptions R144). -/
theorem operandFault_rangeFault (hp : memoryPlan i = some (need, plan)) (hw : widthOk s) (hr : ¬rangeOk i s) :
    operandFault need s = some .rangeFault := by
  simp [operandFault, widthLegal_iff.mpr hw, mt (rangeOk_iff hp).mp hr]

/-- With all in range the overlap of the regions comes last (60_exceptions R145). -/
theorem operandFault_aliasFault (hp : memoryPlan i = some (need, plan)) (hw : widthOk s) (hr : rangeOk i s)
    (ho : overlap s) : operandFault need s = some .aliasFault := by
  simp [operandFault, widthLegal_iff.mpr hw, (rangeOk_iff hp).mpr hr, regionsOverlap_iff.mpr ho]

/-- A memory command with an operand fault takes it before any access (60_exceptions R143). -/
theorem exec_stopped (hp : memoryPlan i = some (need, plan)) {k : UnitFault} (hk : operandFault need s = some k) :
    ∃ t, exec i s = .next t ∧ stoppedBy k.code i s t :=
  ⟨_, by rw [exec_of_memoryPlan hp, runMemory, hk], checkFault_stoppedBy hp k s⟩

end

/-- Settles O18: the width is the first check of a legal primitive and of a memory command. -/
theorem badWidthRaisesBadConfig : Obligations.BadWidthRaisesBadConfig := by
  unfold Obligations.BadWidthRaisesBadConfig
  intro i s hl hw
  rcases primitive_or_memory i with ⟨f, hf, -⟩ | ⟨need, plan, hp, -⟩
  · exact ⟨_, exec_primitive_badWidth hf hl hw, stoppedBy_faultEntry 2 i s⟩
  · exact exec_stopped hp (operandFault_badConfig need hw)

/-- Settles O19: past the width, the range is the next check. -/
theorem outOfRangeRaisesRangeFault : Obligations.OutOfRangeRaisesRangeFault := by
  unfold Obligations.OutOfRangeRaisesRangeFault
  intro i s hi hw hr
  obtain ⟨need, plan, hp⟩ := exists_memoryPlan hi
  exact exec_stopped hp (operandFault_rangeFault hp hw hr)

/-- Settles O20: past the width and the range, the overlap is the last check. -/
theorem overlapRaisesAliasFault : Obligations.OverlapRaisesAliasFault := by
  unfold Obligations.OverlapRaisesAliasFault
  intro i s hi hw hr ho
  obtain ⟨need, plan, hp⟩ := exists_memoryPlan hi
  exact exec_stopped hp (operandFault_aliasFault hp hw hr ho)

/-- A word this unit does not decode is no command's, or that of a command the unit does not have (30_encoding R67, R68). -/
theorem decodeFor_eq_none {l : LaneLen} {w : Byte} (h : decodeFor l w = none) :
    decode w = none ∨ ∃ i, decode w = some i ∧ i.legalFor l = false := by
  cases hd : decode w with
  | none => exact .inl rfl
  | some i => exact .inr ⟨i, rfl, by simpa [decodeFor, hd, Option.filter_some] using h⟩

/-- Settles O17: such a word decodes to nothing, or to a primitive the unit does not have. -/
theorem illegalWordRaisesIllegalCmd : Obligations.IllegalWordRaisesIllegalCmd := by
  unfold Obligations.IllegalWordRaisesIllegalCmd
  intro s w hs hu hw
  obtain ⟨run, illegal⟩ := stepRunsTheWordTheUnitHolds.1 s w hs hu
  rcases decodeFor_eq_none hw with hd | ⟨i, hd, hl⟩
  · exact illegal hd
  · rw [run i hd (.inl (isMemory_of_not_legalFor hl)), exec_illegal (s := { s with host := s.host.tail }) hl,
      encode_of_decode hd]
    rfl

/-! ### `AccessFault` (60_exceptions R146) -/

section
variable {i : Instr} {need : IndexNeed} {plan : State → Plan} {s : State}

theorem accessFault_refusedByte (hp : memoryPlan i = some (need, plan)) (hr : ∃ a, refusedByte i s a) :
    refusedByte i s (accessFault (encode i) (plan s) s).faddr := by
  obtain ⟨a, ha⟩ := hr
  rw [refusedByte_iff hp] at ha ⊢
  exact pickRefused_mem (List.ne_nil_of_mem ha)

theorem accessFault_read (hp : memoryPlan i = some (need, plan)) (w : Byte) (a : Nat) :
    (accessFault w (plan s) s).mem.read a = s.mem.read a ∨
      storesByte i s a ((accessFault w (plan s) s).mem.read a) := by
  rw [storesByte_iff hp]
  exact cutMemory_cases s.hw s.freeCtr (plan s).writes s.mem a

theorem accessFault_lanesKeptFrom (hp : memoryPlan i = some (need, plan)) (hi : i = .lde ∨ i = .ldp) (w : Byte) :
    lanesKeptFrom s.width s (accessFault w (plan s) s) := fun r hr =>
  ((plan s).lanes.cut_replaces s.hw s.freeCtr s.lanes s.lanes r).2 ((memoryPlan_load_count hp hi s).trans_le hr)

end

/-- Settles O21, from the three parts of `accessFault` that are not its record: `FADDR`, memory and the lane registers. -/
theorem refusedAccessRaisesAccessFault : Obligations.RefusedAccessRaisesAccessFault := by
  unfold Obligations.RefusedAccessRaisesAccessFault
  intro i s hi hc hr
  obtain ⟨need, plan, hp⟩ := exists_memoryPlan hi
  have h := exec_access hp hc hr
  exact ⟨_, h, rfl, rfl, rfl, accessFault_refusedByte hp hr, rfl, rfl, ⟨rfl, rfl, rfl, rfl, rfl, rfl⟩, ⟨rfl, rfl⟩,
    accessFault_read hp _, fun hl => accessFault_lanesKeptFrom hp hl _, fun hs => exec_keeps_lanes (by simpa using hs) h⟩

/-! ### What every fault records, and which one is reported (60_exceptions R143, R147) -/

/-- A command that faults is stopped by a check, or meets a refused address. -/
theorem exec_fault_cases {i : Instr} {s t : State} (h : exec i s = .next t) (hne : t.seq ≠ .idle) :
    (∃ k : UnitFault, k ≠ .accessFault ∧ stoppedBy k.code i s t) ∨
      (t.causeCode = UnitFault.accessFault.code ∧ refusedByte i s t.faddr) := by
  rcases primitive_or_memory i with ⟨f, hf, -⟩ | ⟨need, plan, hp, -⟩
  · rw [exec_of_primitiveFn hf] at h
    rcases runPrimitive_cases h with ⟨-, rfl⟩ | ⟨-, -, rfl⟩ | ⟨-, -, rfl⟩
    · exact .inl ⟨.illegalCmd, by decide, stoppedBy_faultEntry 1 i s⟩
    · exact .inl ⟨.badConfig, by decide, stoppedBy_faultEntry 2 i s⟩
    · exact absurd rfl hne
  · rcases exec_memory_cases hp h with ⟨k, hk, rfl⟩ | ⟨-, -, rfl⟩ | ⟨-, hr, rfl⟩
    · refine .inl ⟨k, ?_, checkFault_stoppedBy hp k s⟩
      rcases operandFault_code hk with rfl | rfl | rfl <;> decide
    · exact absurd rfl hne
    · exact .inr ⟨rfl, accessFault_refusedByte hp hr⟩

theorem UnitFault.code_mem (k : UnitFault) : k.code = 1 ∨ k.code = 2 ∨ k.code = 3 ∨ k.code = 4 ∨ k.code = 5 := by
  cases k <;> decide

theorem UnitFault.code_eq_five {k : UnitFault} : k.code = 5 ↔ k = .accessFault := by cases k <;> decide

/-- Settles O22: the record is that of every fault entry, and the rest depends on whether a check or an access failed. -/
theorem faultEntryIsPrecise : Obligations.FaultEntryIsPrecise := by
  unfold Obligations.FaultEntryIsPrecise
  intro i s t h hne
  have hf : Faulted (encode i) s t := (exec_ends h).resolve_left fun hd => hne hd.1
  obtain ⟨k, hk⟩ := hf.code
  refine ⟨hf.seq, hf.word, hf.cmdcnt, hk ▸ k.code_mem, ?_⟩
  rcases exec_fault_cases h hne with ⟨k, hn, hs⟩ | ⟨hcode, hr⟩
  · have hcode : t.causeCode = k.code := hs.fault.2
    rw [hcode]
    exact ⟨fun h5 => absurd (UnitFault.code_eq_five.mp h5) hn, fun _ => hs⟩
  · exact ⟨fun _ => hr, fun h5 => absurd hcode h5⟩

/-- What holds of some next state of a command holds of each: there is only one. -/
theorem exec_next_elim {i : Instr} {s t : State} (h : exec i s = .next t) {P : State → Prop}
    (hP : ∃ u, exec i s = .next u ∧ P u) : P t := by
  obtain ⟨u, hu, hPu⟩ := hP
  obtain rfl := Host.Outcome.next.inj (h.symm.trans hu)
  exact hPu

/-- A memory command whose checks pass and which meets no refused address ends in `IDLE`. -/
theorem exec_memory_idle {i : Instr} {s t : State} (hi : i.isMemory = true) (h : exec i s = .next t)
    (hc : checksPass i s) (hr : ¬∃ a, refusedByte i s a) : t.seq = .idle := by
  obtain ⟨need, plan, hp⟩ := exists_memoryPlan hi
  exact (exec_next_elim h ⟨_, exec_finish hp hc hr, finish_completed _ s⟩).1

/-- Settles O23, one branch of the order after the other, each from the statement about its fault. -/
theorem theFirstApplicableFaultIsReported : Obligations.TheFirstApplicableFaultIsReported := by
  unfold Obligations.TheFirstApplicableFaultIsReported
  refine ⟨fun s t w hs hu hw h => ?_, fun i s t h => ⟨fun hl => ?_, fun hl => ⟨fun hw => ?_, fun hw => ⟨fun hi => ?_,
    fun hi => ⟨fun hr => ?_, fun hr => ⟨fun ho => ?_, fun ho => ⟨fun ha => ?_, fun ha => ?_⟩⟩⟩⟩⟩⟩⟩
  · rw [illegalWordRaisesIllegalCmd s w hs hu hw] at h
    rw [← Host.Outcome.next.inj h]
    exact ⟨rfl, rfl⟩
  · exact (exec_next_elim h ⟨_, exec_illegal hl, stoppedBy_faultEntry 1 i s⟩).fault
  · exact (exec_next_elim h (badWidthRaisesBadConfig i s hl hw)).fault
  · obtain ⟨f, hf⟩ := exists_primitiveFn hi
    exact exec_next_elim (P := (·.seq = .idle)) h ⟨_, exec_primitive_done hf hl hw, rfl⟩
  · exact (exec_next_elim h (outOfRangeRaisesRangeFault i s hi hw hr)).fault
  · exact (exec_next_elim h (overlapRaisesAliasFault i s hi hw hr ho)).fault
  · obtain ⟨hseq, hcode, -⟩ := exec_next_elim h (refusedAccessRaisesAccessFault i s hi ⟨hw, hr, ho⟩ ha)
    exact ⟨hseq, hcode⟩
  · exact exec_memory_idle hi h ⟨hw, hr, ho⟩ ha

/-! ### `FAULT` until a reset (60_exceptions R148) -/

/-- With no reset, a step of a faulted unit may set `OVR` and changes nothing else of the unit's own. -/
theorem step_fault_quiet {s t : State} (h : step s = .next t) (hs : s.seq = .fault) (hr : ¬takesReset s) :
    t = { s with
      mem := t.mem, host := t.host, seen := t.seen, freeCtr := t.freeCtr, raced := t.raced, ovr := t.ovr } := by
  rcases step_controlCase h with ⟨hr', -⟩ | ⟨w, -, hb, -⟩ | ⟨-, -, -, e⟩ | ⟨v, rest, -, hi, -⟩ |
    ⟨p, v, rest, -, -, -, hi, -⟩ | ⟨-, -, -, e⟩
  case reset => exact absurd hr' hr
  case turn => simp [hs] at hb
  case dropped => rw [e]
  case issue => simp [hs] at hi
  case operands => simp [hs] at hi
  case quiet => rw [e]

/-- While no command runs, only the host writes memory (10_state R31). -/
theorem step_mem_not_busy {s t : State} (h : step s = .next t) (hs : ∀ w, s.seq ≠ .busy w)
    (hp : ∀ a b rest, s.host ≠ .poke a b :: rest) : t.mem = s.mem := by
  obtain ⟨ws, e, hws⟩ := step_mem h
  obtain rfl : ws = [] := List.eq_nil_iff_forall_not_mem.mpr fun x hx => by
    rcases hws x hx with ⟨-, rest, hh⟩ | ⟨-, w, i, r, hb, -⟩
    · exact hp _ _ rest hh
    · exact hs w hb
  exact e

/-- Settles O24, from what a step of a faulted unit does with and without a reset. -/
theorem faultIsStickyUntilReset : Obligations.FaultIsStickyUntilReset := by
  unfold Obligations.FaultIsStickyUntilReset
  refine fun s t hs h => ⟨fun hr => ?_, fun hr => ?_⟩
  · rw [step_resets h hr]
    exact ⟨rfl, rfl, rfl, rfl⟩
  · have mem := step_mem_not_busy h (by simp [hs])
    rw [step_fault_quiet h hs hr]
    exact ⟨hs, rfl, rfl, rfl, ⟨rfl, rfl, rfl, rfl, rfl, rfl⟩, rfl, rfl, mem⟩

end Sys2Proof.Machine
end

section
/-! An issued command ends, and what a hardware reset may leave of one (70_reset R171, R173, R178). -/

namespace Sys2Proof.Machine

/-! ### A command ends (70_reset R178) -/

/-- A run of one step is the step. -/
theorem run_one {s t : State} (h : step s = .next t) : Host.Core.run Sys2Proof.core 1 s = .next t := by
  have hc : Sys2Proof.core.step s = .next t := h
  simp only [Host.Core.run, hc]

/-- The turn of a busy unit ends its command, in `IDLE` or `FAULT`. -/
theorem step_turn_ends {s : State} {w : Byte} (hu : unitsTurn s) (hs : s.seq = .busy w) :
    ∃ t, step s = .next t ∧ (t.seq = .idle ∨ t.seq = .fault) := by
  obtain ⟨t, ht⟩ := unitTurn_next { s with host := s.host.tail }
  have h : step s = .next t := (step_unitsTurn hu).trans ht
  exact ⟨t, h, (step_turn_busy h hu hs).imp (·.1) (·.seq)⟩

/-- A port access of the host leaves a busy unit its command, and takes one event off the schedule (10_state R34). -/
theorem step_port_busy {s : State} {w : Byte} {e : HostEvent} {rest : List HostEvent} (hs : s.seq = .busy w)
    (hh : s.host = e :: rest) (he : (∃ p v, e = .write p v) ∨ ∃ p, e = .read p) :
    ∃ t, step s = .next t ∧ t.seq = .busy w ∧ t.host = rest := by
  rcases he with ⟨p, v, rfl⟩ | ⟨p, rfl⟩
  · exact ⟨_, step_write_dropped hh (by simp [hs]) fun _ => ⟨w, hs⟩, hs, rfl⟩
  · exact ⟨_, step_cons hh, hs, rfl⟩

/-- Settles O13, by induction on the schedule: a port access takes an event off it, and the unit's turn, which comes when
it is empty if not before, ends the command. -/
theorem anIssuedCommandEnds : Obligations.AnIssuedCommandEnds := by
  unfold Obligations.AnIssuedCommandEnds
  intro s w hs hports
  induction hh : s.host generalizing s with
  | nil =>
    obtain ⟨t, h, ht⟩ := step_turn_ends (.inl hh) hs
    exact ⟨1, t, Nat.le_add_left .., run_one h, ht⟩
  | cons e rest ih =>
    rw [hh] at hports
    obtain ⟨he, hrest⟩ := List.forall_mem_cons.mp hports
    rcases or_assoc.mpr he with hport | rfl
    · obtain ⟨t, h, hbusy, hhost⟩ := step_port_busy hs hh hport
      obtain ⟨n, u, hn, hrun, hu⟩ := ih t hbusy (hhost ▸ hrest) hhost
      exact ⟨1 + n, u, by rw [List.length_cons]; omega, (run_add 1 n (run_one h)).trans hrun, hu⟩
    · obtain ⟨t, h, ht⟩ := step_turn_ends (.inr ⟨rest, hh⟩) hs
      exact ⟨1, t, Nat.le_add_left .., run_one h, ht⟩

/-! ### A hardware reset (70_reset R171, R173) -/

/-- A byte of memory after a hardware reset is as before, or the one the abandoned command would have written there:
a command whose checks pass, from bytes it may have read (70_reset R173; log 12, 14). -/
theorem hardReset_read_cases (s : State) (a : Nat) : (hardReset s).mem.read a = s.mem.read a ∨
    ∃ w i m, s.seq = .busy w ∧ decode w = some i ∧ checksPass i s ∧ raceMemory s m ∧
      storesByte i { s with mem := m } a ((hardReset s).mem.read a) := by
  rw [hardReset_mem]
  refine (cutMemory_cases s.hw s.freeCtr (pendingWrites (raceView s)) s.mem a).imp_right fun pending => ?_
  obtain ⟨w, i, hs, hd, -⟩ := pendingWrites_mem pending
  obtain ⟨hc, hstore⟩ := pendingWrites_raceView_stores (s := s) hs hd pending
  exact ⟨w, i, (raceView s).mem, hs, hd, hc, raceView_raceMemory s, hstore⟩

/-- Settles O16: the step is `hardReset`, which ends in `resetControl` and cuts the running command short. -/
theorem hardwareResetAbandonsTheCommand : Obligations.HardwareResetAbandonsTheCommand := by
  unfold Obligations.HardwareResetAbandonsTheCommand
  intro s rest hh hl
  have h : step s = .next (hardReset { s with host := rest }) := step_cons hh
  refine ⟨_, h, rfl, rfl, rfl, rfl, rfl, rfl, rfl, rfl, rfl, rfl, rfl, rfl, rfl, rfl, step_lanesWf hl h, fun a => ?_⟩
  refine (hardReset_read_cases { s with host := rest } a).imp_right fun ⟨w, i, m, hs, hd, hc, hm, hstore⟩ => ?_
  exact ⟨w, i, m, hs, hd, (checksPass_outer i s rest s.mem s.freeCtr).mp hc, hm,
    (storesByte_outer i { s with mem := m } rest s.freeCtr a _).mp hstore⟩

end Sys2Proof.Machine
end
